-- ==== Sys2Proof/Word.lean ====
section
/-! DEFINITION. The machine's word types (00_scope.md R5 `XLEN`, `ILEN`; R6): bit vectors of the widths
the spec fixes. Nothing here can be mended later, so only the types stand here. -/

namespace Sys2Proof

/-- A 32-bit value: a general register, the pc, a CSR, an address, an instruction word (R2, R5, R6). -/
abbrev Word := BitVec 32

/-- One byte of memory (R50). -/
abbrev Byte := BitVec 8

/-- A 5-bit register field of an instruction, naming one of `x0` to `x31` (R21, R81). With the default `NREG = 32`
every value names a register that exists. -/
abbrev RegId := BitVec 5

/-- A 12-bit CSR address field (R29, R102 (b)). -/
abbrev CsrAddr := BitVec 12

end Sys2Proof
end

