-- ==== Sys2Proof/Syntax.lean ====
section
/-! DEFINITION. The instructions, one constructor per row of spec/opcode_table.json, in the table's order
(30_encoding.md R97). A constructor carries the operand fields its format tag extracts (R82, R90): register
fields as they stand in the word, and the immediate at the width of its format, before sign extension. A
branch or jump offset is carried whole, bit 0 included, as R87 and R88 assemble it. -/

namespace Sys2Proof

/-- One row of the pattern table with its operands. -/
inductive Instr where
  -- 41_integer_immediate.md and 43_control_transfer.md: format U, J, I
  | lui (rd : RegId) (imm : BitVec 20)
  | auipc (rd : RegId) (imm : BitVec 20)
  | jal (rd : RegId) (imm : BitVec 21)
  | jalr (rd rs1 : RegId) (imm : BitVec 12)
  -- format B
  | beq (rs1 rs2 : RegId) (imm : BitVec 13)
  | bne (rs1 rs2 : RegId) (imm : BitVec 13)
  | blt (rs1 rs2 : RegId) (imm : BitVec 13)
  | bge (rs1 rs2 : RegId) (imm : BitVec 13)
  | bltu (rs1 rs2 : RegId) (imm : BitVec 13)
  | bgeu (rs1 rs2 : RegId) (imm : BitVec 13)
  -- 44_load_store.md: loads are format I, stores format S
  | lb (rd rs1 : RegId) (imm : BitVec 12)
  | lh (rd rs1 : RegId) (imm : BitVec 12)
  | lw (rd rs1 : RegId) (imm : BitVec 12)
  | lbu (rd rs1 : RegId) (imm : BitVec 12)
  | lhu (rd rs1 : RegId) (imm : BitVec 12)
  | sb (rs1 rs2 : RegId) (imm : BitVec 12)
  | sh (rs1 rs2 : RegId) (imm : BitVec 12)
  | sw (rs1 rs2 : RegId) (imm : BitVec 12)
  -- 41_integer_immediate.md, format I; the shifts carry `shamt = inst[24:20]` (R102 (a))
  | addi (rd rs1 : RegId) (imm : BitVec 12)
  | slti (rd rs1 : RegId) (imm : BitVec 12)
  | sltiu (rd rs1 : RegId) (imm : BitVec 12)
  | xori (rd rs1 : RegId) (imm : BitVec 12)
  | ori (rd rs1 : RegId) (imm : BitVec 12)
  | andi (rd rs1 : RegId) (imm : BitVec 12)
  | slli (rd rs1 : RegId) (shamt : BitVec 5)
  | srli (rd rs1 : RegId) (shamt : BitVec 5)
  | srai (rd rs1 : RegId) (shamt : BitVec 5)
  -- 42_integer_register.md, format R
  | add (rd rs1 rs2 : RegId)
  | sub (rd rs1 rs2 : RegId)
  | sll (rd rs1 rs2 : RegId)
  | slt (rd rs1 rs2 : RegId)
  | sltu (rd rs1 rs2 : RegId)
  | xor (rd rs1 rs2 : RegId)
  | srl (rd rs1 rs2 : RegId)
  | sra (rd rs1 rs2 : RegId)
  | or (rd rs1 rs2 : RegId)
  | and (rd rs1 rs2 : RegId)
  -- 45_muldiv.md, format R
  | mul (rd rs1 rs2 : RegId)
  | mulh (rd rs1 rs2 : RegId)
  | mulhsu (rd rs1 rs2 : RegId)
  | mulhu (rd rs1 rs2 : RegId)
  | div (rd rs1 rs2 : RegId)
  | divu (rd rs1 rs2 : RegId)
  | rem (rd rs1 rs2 : RegId)
  | remu (rd rs1 rs2 : RegId)
  -- 46_system.md: CSR access is format I with `csr_addr = inst[31:20]` (R102 (b)); the rest format N
  | csrrw (rd rs1 : RegId) (csr : CsrAddr)
  | csrrs (rd rs1 : RegId) (csr : CsrAddr)
  | ecall
  | ebreak
  | mret
  /-- The catch-all (R95, R235): `inst` is the word, which its action puts into the fault record. -/
  | inv (inst : Word)
deriving DecidableEq, Repr

end Sys2Proof
end

