-- ==== Sys2Proof/WellFormed.lean ====
section
/-! DEFINITION. Which terms of `Instr` are instructions of the pattern table: a branch or jump offset is even
(30_encoding.md R87, R88: "Always even"), and the catch-all holds a word that matches none of rows 1 to 50
(R95, R98). Every other operand is of the field's own width, so every value of it is encodable. -/

namespace Sys2Proof

/-- Rows 1 to 50 of R97 as `(match, mask)`, in the table's order: the columns `match` and `mask`. -/
def definedRows : List (Word × Word) :=
  [(0x00000037#32, 0x0000007f#32), (0x00000017#32, 0x0000007f#32), (0x0000006f#32, 0x0000007f#32),
   (0x00000067#32, 0x0000707f#32),
   (0x00000063#32, 0x0000707f#32), (0x00001063#32, 0x0000707f#32), (0x00004063#32, 0x0000707f#32),
   (0x00005063#32, 0x0000707f#32), (0x00006063#32, 0x0000707f#32), (0x00007063#32, 0x0000707f#32)] ++
  [(0x00000003#32, 0x0000707f#32), (0x00001003#32, 0x0000707f#32), (0x00002003#32, 0x0000707f#32),
   (0x00004003#32, 0x0000707f#32), (0x00005003#32, 0x0000707f#32),
   (0x00000023#32, 0x0000707f#32), (0x00001023#32, 0x0000707f#32), (0x00002023#32, 0x0000707f#32)] ++
  [(0x00000013#32, 0x0000707f#32), (0x00002013#32, 0x0000707f#32), (0x00003013#32, 0x0000707f#32),
   (0x00004013#32, 0x0000707f#32), (0x00006013#32, 0x0000707f#32), (0x00007013#32, 0x0000707f#32),
   (0x00001013#32, 0xfe00707f#32), (0x00005013#32, 0xfe00707f#32), (0x40005013#32, 0xfe00707f#32)] ++
  [(0x00000033#32, 0xfe00707f#32), (0x40000033#32, 0xfe00707f#32), (0x00001033#32, 0xfe00707f#32),
   (0x00002033#32, 0xfe00707f#32), (0x00003033#32, 0xfe00707f#32), (0x00004033#32, 0xfe00707f#32),
   (0x00005033#32, 0xfe00707f#32), (0x40005033#32, 0xfe00707f#32), (0x00006033#32, 0xfe00707f#32),
   (0x00007033#32, 0xfe00707f#32)] ++
  [(0x02000033#32, 0xfe00707f#32), (0x02001033#32, 0xfe00707f#32), (0x02002033#32, 0xfe00707f#32),
   (0x02003033#32, 0xfe00707f#32), (0x02004033#32, 0xfe00707f#32), (0x02005033#32, 0xfe00707f#32),
   (0x02006033#32, 0xfe00707f#32), (0x02007033#32, 0xfe00707f#32)] ++
  [(0x00001073#32, 0x0000707f#32), (0x00002073#32, 0x0000707f#32), (0x00000073#32, 0xffffffff#32),
   (0x00100073#32, 0xffffffff#32), (0x30200073#32, 0xffffffff#32)]

/-- `w` matches one of rows 1 to 50, by the second form of R93's test: `(inst & full_mask) == full_key`. -/
def isDefinedWord (w : Word) : Bool :=
  definedRows.any fun r => w &&& r.2 == r.1

/-- Bit 0 of an offset is 0 (R87, R88). -/
def evenOffset {n : Nat} (imm : BitVec n) : Bool := !imm.getLsbD 0

/-- The term is an instruction of the pattern table. -/
def Instr.wf : Instr → Bool
  | .jal _ imm => evenOffset imm
  | .beq _ _ imm | .bne _ _ imm | .blt _ _ imm | .bge _ _ imm | .bltu _ _ imm | .bgeu _ _ imm => evenOffset imm
  | .inv w => !isDefinedWord w
  | .lui .. | .auipc .. | .jalr .. | .lb .. | .lh .. | .lw .. | .lbu .. | .lhu .. | .sb .. | .sh .. | .sw .. => true
  | .addi .. | .slti .. | .sltiu .. | .xori .. | .ori .. | .andi .. | .slli .. | .srli .. | .srai .. => true
  | .add .. | .sub .. | .sll .. | .slt .. | .sltu .. | .xor .. | .srl .. | .sra .. | .or .. | .and .. => true
  | .mul .. | .mulh .. | .mulhsu .. | .mulhu .. | .div .. | .divu .. | .rem .. | .remu .. => true
  | .csrrw .. | .csrrs .. | .ecall | .ebreak | .mret => true

end Sys2Proof
end

