-- ==== Sys2Proof/Decode.lean ====
section
/-! DEFINITION. The instruction matcher, operand extraction and the encoder (30_encoding.md). The decoder is
the spec's own mechanism: an ordered table of rows, the first row whose compiled pattern matches the word
selects the instruction (R91 to R97), and the row's format tag says which fields become its operands (R81,
R82, R84 to R90, R102). The table is a parameter (00_scope.md R5), and its default is R97's. -/

namespace Sys2Proof

/-! ## Pattern strings and their compilation (R91, R92) -/

/-- One character of a pattern: a fixed bit or a wildcard (R91). -/
inductive PatBit where
  | zero
  | one
  | any
deriving DecidableEq, Repr

/-- A pattern, most significant bit first (R91). -/
abbrev Pattern := List PatBit

/-- Reads a pattern string: `0`, `1` and `?`; a space separates groups without meaning (R91). Any other
character is no pattern. -/
def parsePattern : List Char → Option Pattern
  | [] => some []
  | c :: cs =>
    if c = ' ' then parsePattern cs
    else if c = '0' then (parsePattern cs).map (PatBit.zero :: ·)
    else if c = '1' then (parsePattern cs).map (PatBit.one :: ·)
    else if c = '?' then (parsePattern cs).map (PatBit.any :: ·)
    else none

/-- `full_key`: the sum of `2^b` over the bits `b` fixed at 1 (R92). -/
def patternKey (p : Pattern) : Nat :=
  p.foldl (fun acc b => 2 * acc + if b = .one then 1 else 0) 0

/-- `full_mask`: the sum of `2^b` over the fixed bits `b` (R92). -/
def patternMask (p : Pattern) : Nat :=
  p.foldl (fun acc b => 2 * acc + if b = .any then 0 else 1) 0

/-- `shift`: the number of consecutive wildcards at the low end, all of them if every bit is one (R92). -/
def patternShift (p : Pattern) : Nat :=
  (p.reverse.takeWhile (· == .any)).length

/-- The triple `(key, mask, shift)` of R92. -/
def compilePattern (p : Pattern) : Nat × Nat × Nat :=
  (patternKey p >>> patternShift p, patternMask p >>> patternShift p, patternShift p)

/-- The matching test of R93. A shift by 32 reads as 0 (decision D28). -/
def matchTest (key mask : Word) (shift : Nat) (inst : Word) : Bool :=
  (inst >>> shift) &&& mask == key

/-! ## Fields and immediates (R81, R84 to R89, R102) -/

def rdOf (w : Word) : RegId := w.extractLsb' 7 5
def rs1Of (w : Word) : RegId := w.extractLsb' 15 5
def rs2Of (w : Word) : RegId := w.extractLsb' 20 5
/-- `shamt = inst[24:20]` (R102 (a)). -/
def shamtOf (w : Word) : BitVec 5 := w.extractLsb' 20 5
/-- `csr_addr = inst[31:20]`, not extended (R102 (b)). -/
def csrOf (w : Word) : CsrAddr := w.extractLsb' 20 12
/-- The 12 bits that R84 sign-extends: `inst[31:20]`. -/
def immIOf (w : Word) : BitVec 12 := w.extractLsb' 20 12
/-- The 12 bits that R85 sign-extends: `inst[31:25] ++ inst[11:7]`. -/
def immSOf (w : Word) : BitVec 12 := w.extractLsb' 25 7 ++ w.extractLsb' 7 5
/-- The 13 bits that R87 sign-extends: `inst[31] ++ inst[7] ++ inst[30:25] ++ inst[11:8] ++ 1'b0`. -/
def immBOf (w : Word) : BitVec 13 :=
  w.extractLsb' 31 1 ++ w.extractLsb' 7 1 ++ w.extractLsb' 25 6 ++ w.extractLsb' 8 4 ++ 0#1
/-- The 21 bits that R88 sign-extends: `inst[31] ++ inst[19:12] ++ inst[20] ++ inst[30:21] ++ 1'b0`. -/
def immJOf (w : Word) : BitVec 21 :=
  w.extractLsb' 31 1 ++ w.extractLsb' 12 8 ++ w.extractLsb' 20 1 ++ w.extractLsb' 21 10 ++ 0#1
/-- `inst[31:12]`, the upper bits of `immU` (R89). -/
def immUOf (w : Word) : BitVec 20 := w.extractLsb' 12 20

/-! ## The pattern table (R91, R92, R97) -/

/-- The format tags: the document's six, and U (R82). -/
inductive Tag where
  | N
  | I
  | S
  | R
  | B
  | J
  | U
deriving DecidableEq, Repr

/-- The semantic actions a table may name: those of R97's 51 rows, each under its row's mnemonic, and the empty action of
the rows that 92_eei_decisions.md D16 says to add for fences (log 3). -/
inductive Action where
  | lui | auipc | jal | jalr | beq | bne | blt | bge | bltu | bgeu
  | lb | lh | lw | lbu | lhu | sb | sh | sw
  | addi | slti | sltiu | xori | ori | andi | slli | srli | srai
  | add | sub | sll | slt | sltu | xor | srl | sra | or | and
  | mul | mulh | mulhsu | mulhu | div | divu | rem | remu
  | csrrw | csrrs | ecall | ebreak | mret
  | inv
  | empty
deriving DecidableEq, Repr

/-- The format tag whose operands the action takes: R97's column `tag`. The empty action takes none. -/
def Action.tag : Action → Tag
  | .lui | .auipc => .U
  | .jal => .J
  | .beq | .bne | .blt | .bge | .bltu | .bgeu => .B
  | .jalr | .lb | .lh | .lw | .lbu | .lhu | .addi | .slti | .sltiu | .xori => .I
  | .ori | .andi | .slli | .srli | .srai | .csrrw | .csrrs => .I
  | .sb | .sh | .sw => .S
  | .add | .sub | .sll | .slt | .sltu | .xor | .srl | .sra | .or | .and => .R
  | .mul | .mulh | .mulhsu | .mulhu | .div | .divu | .rem | .remu => .R
  | .ecall | .ebreak | .mret | .inv | .empty => .N

/-- Whether a row with this tag may have this action: the tag is the one whose operands the action takes, and the empty
action, which takes none, goes with every tag (log 19). -/
def Action.accepts (a : Action) (t : Tag) : Bool := a == .empty || t == a.tag

/-- The instruction of an action with the operands its tag extracts from the word (R82, R90, R102). The empty
action is run as `addi x0, x0, 0`: the step's own `pc + 4` and `x[0] <- 0` and nothing else (Laws/Exec.lean:
`exec_empty`; log 3). -/
def Action.build (w : Word) : Action → Instr
  | .lui => .lui (rdOf w) (immUOf w)
  | .auipc => .auipc (rdOf w) (immUOf w)
  | .jal => .jal (rdOf w) (immJOf w)
  | .jalr => .jalr (rdOf w) (rs1Of w) (immIOf w)
  | .beq => .beq (rs1Of w) (rs2Of w) (immBOf w)
  | .bne => .bne (rs1Of w) (rs2Of w) (immBOf w)
  | .blt => .blt (rs1Of w) (rs2Of w) (immBOf w)
  | .bge => .bge (rs1Of w) (rs2Of w) (immBOf w)
  | .bltu => .bltu (rs1Of w) (rs2Of w) (immBOf w)
  | .bgeu => .bgeu (rs1Of w) (rs2Of w) (immBOf w)
  | .lb => .lb (rdOf w) (rs1Of w) (immIOf w)
  | .lh => .lh (rdOf w) (rs1Of w) (immIOf w)
  | .lw => .lw (rdOf w) (rs1Of w) (immIOf w)
  | .lbu => .lbu (rdOf w) (rs1Of w) (immIOf w)
  | .lhu => .lhu (rdOf w) (rs1Of w) (immIOf w)
  | .sb => .sb (rs1Of w) (rs2Of w) (immSOf w)
  | .sh => .sh (rs1Of w) (rs2Of w) (immSOf w)
  | .sw => .sw (rs1Of w) (rs2Of w) (immSOf w)
  | .addi => .addi (rdOf w) (rs1Of w) (immIOf w)
  | .slti => .slti (rdOf w) (rs1Of w) (immIOf w)
  | .sltiu => .sltiu (rdOf w) (rs1Of w) (immIOf w)
  | .xori => .xori (rdOf w) (rs1Of w) (immIOf w)
  | .ori => .ori (rdOf w) (rs1Of w) (immIOf w)
  | .andi => .andi (rdOf w) (rs1Of w) (immIOf w)
  | .slli => .slli (rdOf w) (rs1Of w) (shamtOf w)
  | .srli => .srli (rdOf w) (rs1Of w) (shamtOf w)
  | .srai => .srai (rdOf w) (rs1Of w) (shamtOf w)
  | .add => .add (rdOf w) (rs1Of w) (rs2Of w)
  | .sub => .sub (rdOf w) (rs1Of w) (rs2Of w)
  | .sll => .sll (rdOf w) (rs1Of w) (rs2Of w)
  | .slt => .slt (rdOf w) (rs1Of w) (rs2Of w)
  | .sltu => .sltu (rdOf w) (rs1Of w) (rs2Of w)
  | .xor => .xor (rdOf w) (rs1Of w) (rs2Of w)
  | .srl => .srl (rdOf w) (rs1Of w) (rs2Of w)
  | .sra => .sra (rdOf w) (rs1Of w) (rs2Of w)
  | .or => .or (rdOf w) (rs1Of w) (rs2Of w)
  | .and => .and (rdOf w) (rs1Of w) (rs2Of w)
  | .mul => .mul (rdOf w) (rs1Of w) (rs2Of w)
  | .mulh => .mulh (rdOf w) (rs1Of w) (rs2Of w)
  | .mulhsu => .mulhsu (rdOf w) (rs1Of w) (rs2Of w)
  | .mulhu => .mulhu (rdOf w) (rs1Of w) (rs2Of w)
  | .div => .div (rdOf w) (rs1Of w) (rs2Of w)
  | .divu => .divu (rdOf w) (rs1Of w) (rs2Of w)
  | .rem => .rem (rdOf w) (rs1Of w) (rs2Of w)
  | .remu => .remu (rdOf w) (rs1Of w) (rs2Of w)
  | .csrrw => .csrrw (rdOf w) (rs1Of w) (csrOf w)
  | .csrrs => .csrrs (rdOf w) (rs1Of w) (csrOf w)
  | .ecall => .ecall
  | .ebreak => .ebreak
  | .mret => .mret
  | .inv => .inv w
  | .empty => .addi 0#5 0#5 0#12

/-- One entry of the parameter `PATTERN_TABLE`: `(bit-pattern string, operand-format tag, semantic action)` (R91). -/
structure PatternRow where
  pattern : String
  tag : Tag
  action : Action
deriving DecidableEq, Repr

/-- An entry after compilation, as the engine holds it (R92): its triple `(key, mask, shift)`, tag and action. -/
structure Row where
  tag : Tag
  key : Word
  mask : Word
  shift : Nat
  action : Action
deriving DecidableEq, Repr

/-- Compiles an entry: "Each pattern compiles once" (R92). A pattern string has exactly 32 characters that are not
spaces (R91); any other is no entry. -/
def PatternRow.compile (r : PatternRow) : Option Row :=
  match parsePattern r.pattern.toList with
  | some p =>
    if p.length = 32 then
      some ⟨r.tag, BitVec.ofNat 32 (compilePattern p).1, BitVec.ofNat 32 (compilePattern p).2.1, (compilePattern p).2.2,
        r.action⟩
    else none
  | none => none

/-- Compiles a table, entry by entry, in its order (R92). -/
def compileTable : List PatternRow → Option (List Row)
  | [] => some []
  | r :: rs =>
    match r.compile, compileTable rs with
    | some c, some cs => some (c :: cs)
    | _, _ => none

/-- The row's matching test (R93). -/
def Row.test (r : Row) (w : Word) : Bool := matchTest r.key r.mask r.shift w

/-- The row is what some pattern compiles to (R92: no bit set outside the mask, every low wildcard shifted out), and its
tag goes with its action (log 19). -/
def Row.wf (r : Row) : Bool :=
  r.action.accepts r.tag && r.key &&& r.mask == r.key &&
    (r.mask == 0#32 && r.shift == 32 ||
      r.mask.getLsbD 0 && decide (r.shift < 32) && r.mask <<< r.shift >>> r.shift == r.mask)

/-- Two rows differ in a bit that is fixed in both, so no word matches both (R96). -/
def Row.excludes (p q : Row) : Bool :=
  (p.key <<< p.shift ^^^ q.key <<< q.shift) &&& (p.mask <<< p.shift) &&& (q.mask <<< q.shift) != 0#32

/-- The tables the model accepts: the last entry is the all-wildcard "invalid instruction" (R95), and no two of the others
overlap (R96, U17). -/
def tableWf : List Row → Bool
  | [] => false
  | [r] => r.wf && r.mask == 0#32 && r.action == .inv
  | r :: q :: rs => r.wf && (q :: rs).dropLast.all r.excludes && tableWf (q :: rs)

/-- Rows 1 to 10: LUI, AUIPC, JAL, JALR and the six branches, as R97 writes them. -/
def patternsUpperJump : List PatternRow :=
  [⟨"??????? ????? ????? ??? ????? 01101 11", .U, .lui⟩,
   ⟨"??????? ????? ????? ??? ????? 00101 11", .U, .auipc⟩,
   ⟨"??????? ????? ????? ??? ????? 11011 11", .J, .jal⟩,
   ⟨"??????? ????? ????? 000 ????? 11001 11", .I, .jalr⟩,
   ⟨"??????? ????? ????? 000 ????? 11000 11", .B, .beq⟩,
   ⟨"??????? ????? ????? 001 ????? 11000 11", .B, .bne⟩,
   ⟨"??????? ????? ????? 100 ????? 11000 11", .B, .blt⟩,
   ⟨"??????? ????? ????? 101 ????? 11000 11", .B, .bge⟩,
   ⟨"??????? ????? ????? 110 ????? 11000 11", .B, .bltu⟩,
   ⟨"??????? ????? ????? 111 ????? 11000 11", .B, .bgeu⟩]

/-- Rows 11 to 18: loads and stores, as R97 writes them. -/
def patternsLoadStore : List PatternRow :=
  [⟨"??????? ????? ????? 000 ????? 00000 11", .I, .lb⟩,
   ⟨"??????? ????? ????? 001 ????? 00000 11", .I, .lh⟩,
   ⟨"??????? ????? ????? 010 ????? 00000 11", .I, .lw⟩,
   ⟨"??????? ????? ????? 100 ????? 00000 11", .I, .lbu⟩,
   ⟨"??????? ????? ????? 101 ????? 00000 11", .I, .lhu⟩,
   ⟨"??????? ????? ????? 000 ????? 01000 11", .S, .sb⟩,
   ⟨"??????? ????? ????? 001 ????? 01000 11", .S, .sh⟩,
   ⟨"??????? ????? ????? 010 ????? 01000 11", .S, .sw⟩]

/-- Rows 19 to 27: register-immediate, as R97 writes them. -/
def patternsImmediate : List PatternRow :=
  [⟨"??????? ????? ????? 000 ????? 00100 11", .I, .addi⟩,
   ⟨"??????? ????? ????? 010 ????? 00100 11", .I, .slti⟩,
   ⟨"??????? ????? ????? 011 ????? 00100 11", .I, .sltiu⟩,
   ⟨"??????? ????? ????? 100 ????? 00100 11", .I, .xori⟩,
   ⟨"??????? ????? ????? 110 ????? 00100 11", .I, .ori⟩,
   ⟨"??????? ????? ????? 111 ????? 00100 11", .I, .andi⟩,
   ⟨"0000000 ????? ????? 001 ????? 00100 11", .I, .slli⟩,
   ⟨"0000000 ????? ????? 101 ????? 00100 11", .I, .srli⟩,
   ⟨"0100000 ????? ????? 101 ????? 00100 11", .I, .srai⟩]

/-- Rows 28 to 37: register-register, as R97 writes them. -/
def patternsRegister : List PatternRow :=
  [⟨"0000000 ????? ????? 000 ????? 01100 11", .R, .add⟩,
   ⟨"0100000 ????? ????? 000 ????? 01100 11", .R, .sub⟩,
   ⟨"0000000 ????? ????? 001 ????? 01100 11", .R, .sll⟩,
   ⟨"0000000 ????? ????? 010 ????? 01100 11", .R, .slt⟩,
   ⟨"0000000 ????? ????? 011 ????? 01100 11", .R, .sltu⟩,
   ⟨"0000000 ????? ????? 100 ????? 01100 11", .R, .xor⟩,
   ⟨"0000000 ????? ????? 101 ????? 01100 11", .R, .srl⟩,
   ⟨"0100000 ????? ????? 101 ????? 01100 11", .R, .sra⟩,
   ⟨"0000000 ????? ????? 110 ????? 01100 11", .R, .or⟩,
   ⟨"0000000 ????? ????? 111 ????? 01100 11", .R, .and⟩]

/-- Rows 38 to 45: multiply and divide, as R97 writes them. -/
def patternsMulDiv : List PatternRow :=
  [⟨"0000001 ????? ????? 000 ????? 01100 11", .R, .mul⟩,
   ⟨"0000001 ????? ????? 001 ????? 01100 11", .R, .mulh⟩,
   ⟨"0000001 ????? ????? 010 ????? 01100 11", .R, .mulhsu⟩,
   ⟨"0000001 ????? ????? 011 ????? 01100 11", .R, .mulhu⟩,
   ⟨"0000001 ????? ????? 100 ????? 01100 11", .R, .div⟩,
   ⟨"0000001 ????? ????? 101 ????? 01100 11", .R, .divu⟩,
   ⟨"0000001 ????? ????? 110 ????? 01100 11", .R, .rem⟩,
   ⟨"0000001 ????? ????? 111 ????? 01100 11", .R, .remu⟩]

/-- Rows 46 to 50: CSR access and the three fixed words, as R97 writes them. -/
def patternsSystem : List PatternRow :=
  [⟨"??????? ????? ????? 001 ????? 11100 11", .I, .csrrw⟩,
   ⟨"??????? ????? ????? 010 ????? 11100 11", .I, .csrrs⟩,
   ⟨"0000000 00000 00000 000 00000 11100 11", .N, .ecall⟩,
   ⟨"0000000 00001 00000 000 00000 11100 11", .N, .ebreak⟩,
   ⟨"0011000 00010 00000 000 00000 11100 11", .N, .mret⟩]

/-- The default of `PATTERN_TABLE` (R5, R97): 51 entries, the catch-all last. -/
def standardPatterns : List PatternRow :=
  patternsUpperJump ++ patternsLoadStore ++ patternsImmediate ++ patternsRegister ++ patternsMulDiv ++ patternsSystem ++
    [⟨"??????? ????? ????? ??? ????? ????? ??", .N, .inv⟩]

/-- Rows 1 to 10: LUI, AUIPC, JAL, JALR and the six branches, compiled: R97's columns `match` and `mask`. -/
def rowsUpperJump : List Row :=
  [⟨.U, 0x00000037#32, 0x0000007f#32, 0, .lui⟩,
   ⟨.U, 0x00000017#32, 0x0000007f#32, 0, .auipc⟩,
   ⟨.J, 0x0000006f#32, 0x0000007f#32, 0, .jal⟩,
   ⟨.I, 0x00000067#32, 0x0000707f#32, 0, .jalr⟩,
   ⟨.B, 0x00000063#32, 0x0000707f#32, 0, .beq⟩,
   ⟨.B, 0x00001063#32, 0x0000707f#32, 0, .bne⟩,
   ⟨.B, 0x00004063#32, 0x0000707f#32, 0, .blt⟩,
   ⟨.B, 0x00005063#32, 0x0000707f#32, 0, .bge⟩,
   ⟨.B, 0x00006063#32, 0x0000707f#32, 0, .bltu⟩,
   ⟨.B, 0x00007063#32, 0x0000707f#32, 0, .bgeu⟩]

/-- Rows 11 to 18: loads and stores, compiled: R97's columns `match` and `mask`. -/
def rowsLoadStore : List Row :=
  [⟨.I, 0x00000003#32, 0x0000707f#32, 0, .lb⟩,
   ⟨.I, 0x00001003#32, 0x0000707f#32, 0, .lh⟩,
   ⟨.I, 0x00002003#32, 0x0000707f#32, 0, .lw⟩,
   ⟨.I, 0x00004003#32, 0x0000707f#32, 0, .lbu⟩,
   ⟨.I, 0x00005003#32, 0x0000707f#32, 0, .lhu⟩,
   ⟨.S, 0x00000023#32, 0x0000707f#32, 0, .sb⟩,
   ⟨.S, 0x00001023#32, 0x0000707f#32, 0, .sh⟩,
   ⟨.S, 0x00002023#32, 0x0000707f#32, 0, .sw⟩]

/-- Rows 19 to 27: register-immediate, compiled: R97's columns `match` and `mask`. -/
def rowsImmediate : List Row :=
  [⟨.I, 0x00000013#32, 0x0000707f#32, 0, .addi⟩,
   ⟨.I, 0x00002013#32, 0x0000707f#32, 0, .slti⟩,
   ⟨.I, 0x00003013#32, 0x0000707f#32, 0, .sltiu⟩,
   ⟨.I, 0x00004013#32, 0x0000707f#32, 0, .xori⟩,
   ⟨.I, 0x00006013#32, 0x0000707f#32, 0, .ori⟩,
   ⟨.I, 0x00007013#32, 0x0000707f#32, 0, .andi⟩,
   ⟨.I, 0x00001013#32, 0xfe00707f#32, 0, .slli⟩,
   ⟨.I, 0x00005013#32, 0xfe00707f#32, 0, .srli⟩,
   ⟨.I, 0x40005013#32, 0xfe00707f#32, 0, .srai⟩]

/-- Rows 28 to 37: register-register, compiled: R97's columns `match` and `mask`. -/
def rowsRegister : List Row :=
  [⟨.R, 0x00000033#32, 0xfe00707f#32, 0, .add⟩,
   ⟨.R, 0x40000033#32, 0xfe00707f#32, 0, .sub⟩,
   ⟨.R, 0x00001033#32, 0xfe00707f#32, 0, .sll⟩,
   ⟨.R, 0x00002033#32, 0xfe00707f#32, 0, .slt⟩,
   ⟨.R, 0x00003033#32, 0xfe00707f#32, 0, .sltu⟩,
   ⟨.R, 0x00004033#32, 0xfe00707f#32, 0, .xor⟩,
   ⟨.R, 0x00005033#32, 0xfe00707f#32, 0, .srl⟩,
   ⟨.R, 0x40005033#32, 0xfe00707f#32, 0, .sra⟩,
   ⟨.R, 0x00006033#32, 0xfe00707f#32, 0, .or⟩,
   ⟨.R, 0x00007033#32, 0xfe00707f#32, 0, .and⟩]

/-- Rows 38 to 45: multiply and divide, compiled: R97's columns `match` and `mask`. -/
def rowsMulDiv : List Row :=
  [⟨.R, 0x02000033#32, 0xfe00707f#32, 0, .mul⟩,
   ⟨.R, 0x02001033#32, 0xfe00707f#32, 0, .mulh⟩,
   ⟨.R, 0x02002033#32, 0xfe00707f#32, 0, .mulhsu⟩,
   ⟨.R, 0x02003033#32, 0xfe00707f#32, 0, .mulhu⟩,
   ⟨.R, 0x02004033#32, 0xfe00707f#32, 0, .div⟩,
   ⟨.R, 0x02005033#32, 0xfe00707f#32, 0, .divu⟩,
   ⟨.R, 0x02006033#32, 0xfe00707f#32, 0, .rem⟩,
   ⟨.R, 0x02007033#32, 0xfe00707f#32, 0, .remu⟩]

/-- Rows 46 to 50: CSR access and the three fixed words, compiled: R97's columns `match` and `mask`. -/
def rowsSystem : List Row :=
  [⟨.I, 0x00001073#32, 0x0000707f#32, 0, .csrrw⟩,
   ⟨.I, 0x00002073#32, 0x0000707f#32, 0, .csrrs⟩,
   ⟨.N, 0x00000073#32, 0xffffffff#32, 0, .ecall⟩,
   ⟨.N, 0x00100073#32, 0xffffffff#32, 0, .ebreak⟩,
   ⟨.N, 0x30200073#32, 0xffffffff#32, 0, .mret⟩]

/-- Row 51, the catch-all `inv`: all wildcards, shift 32 (R95). -/
def rowInv : Row := ⟨.N, 0x00000000#32, 0x00000000#32, 32, .inv⟩

/-- Rows 1 to 50, compiled. -/
def definedTable : List Row :=
  rowsUpperJump ++ rowsLoadStore ++ rowsImmediate ++ rowsRegister ++ rowsMulDiv ++ rowsSystem

/-- The default table, compiled: 51 rows, the catch-all last (R95, R97). -/
def patternTable : List Row := definedTable ++ [rowInv]

/-- Whether a table is accepted: `tableWf`, which the default table passes, so that it need not be checked again at every
step (Laws/Table.lean: `tableOk_eq`). -/
def tableOk (t : List Row) : Bool := decide (t = patternTable) || tableWf t

/-- `Match` over any table: the first row, from the top, whose test succeeds (R94). -/
def matchIn : List Row → Word → Option Row
  | [], _ => none
  | r :: rs, w => if r.test w then some r else matchIn rs w

/-- Match in a table, then operand extraction by the matched row's tag (R90, R94, R113, R114). The second arm is not
reached in an accepted table: its last row matches every word (R95). -/
def decodeIn (t : List Row) (w : Word) : Instr :=
  match matchIn t w with
  | some r => r.action.build w
  | none => .inv w

/-- The instruction of a word in the default table. -/
def decode (w : Word) : Instr := decodeIn patternTable w

/-! ## Bytes (R80) -/

/-- Why a list of bytes holds no instruction. Only its length can be wrong: every 32-bit word is an
instruction of the table (R95). -/
inductive ByteReject where
  /-- Fewer than four bytes: every instruction is 32 bits long (R80). Raised by `decodeBytes`; safe. -/
  | truncated
deriving DecidableEq, Repr

/-- The instruction word of four bytes, the first at the lowest address: little-endian (R55, R80). -/
def wordOfBytes (b0 b1 b2 b3 : Byte) : Word := b3 ++ b2 ++ b1 ++ b0

/-- Decodes the instruction at the head of a list of bytes, by a table, and gives the rest of the list. -/
def decodeBytesIn (t : List Row) : List Byte → Except ByteReject (Instr × List Byte)
  | b0 :: b1 :: b2 :: b3 :: rest => .ok (decodeIn t (wordOfBytes b0 b1 b2 b3), rest)
  | _ => .error .truncated

/-- Decodes by the default table. -/
def decodeBytes (bytes : List Byte) : Except ByteReject (Instr × List Byte) := decodeBytesIn patternTable bytes

/-- The four bytes of a word, lowest address first. -/
def bytesOfWord (w : Word) : List Byte :=
  [w.extractLsb' 0 8, w.extractLsb' 8 8, w.extractLsb' 16 8, w.extractLsb' 24 8]

/-- The 32-bit instruction whose low `nbits` bits are `w`, the bits above them zero, in the numbering of
spec/opcode_table.json. -/
def tableWord (nbits w : Nat) : Word := BitVec.ofNat 32 (w % 2 ^ nbits)

/-- What the decoder reads from the table's bits `w`, laid out as the hardware stores them. -/
def decodeTableWord (nbits w : Nat) : Option Instr :=
  match decodeBytes (bytesOfWord (tableWord nbits w)) with
  | .ok (i, _) => some i
  | .error _ => none

/-! ## The encoder, from the layouts of R81 and R82 -/

/-- Format R: `funct7 rs2 rs1 funct3 rd opcode`; the shift-immediate forms put `shamt` in the place of `rs2`. -/
def encodeR (funct7 : BitVec 7) (rs2 rs1 : RegId) (funct3 : BitVec 3) (rd : RegId) (opcode : BitVec 7) : Word :=
  funct7 ++ rs2 ++ rs1 ++ funct3 ++ rd ++ opcode

/-- Format I: `imm[11:0] rs1 funct3 rd opcode`. -/
def encodeI (imm : BitVec 12) (rs1 : RegId) (funct3 : BitVec 3) (rd : RegId) (opcode : BitVec 7) : Word :=
  imm ++ rs1 ++ funct3 ++ rd ++ opcode

/-- Format S: `imm[11:5] rs2 rs1 funct3 imm[4:0] opcode`. -/
def encodeS (imm : BitVec 12) (rs2 rs1 : RegId) (funct3 : BitVec 3) (opcode : BitVec 7) : Word :=
  imm.extractLsb' 5 7 ++ rs2 ++ rs1 ++ funct3 ++ imm.extractLsb' 0 5 ++ opcode

/-- Format B: `imm[12|10:5] rs2 rs1 funct3 imm[4:1|11] opcode`. -/
def encodeB (imm : BitVec 13) (rs2 rs1 : RegId) (funct3 : BitVec 3) (opcode : BitVec 7) : Word :=
  imm.extractLsb' 12 1 ++ imm.extractLsb' 5 6 ++ rs2 ++ rs1 ++ funct3 ++
    imm.extractLsb' 1 4 ++ imm.extractLsb' 11 1 ++ opcode

/-- Format J: `imm[20|10:1|11|19:12] rd opcode`. -/
def encodeJ (imm : BitVec 21) (rd : RegId) (opcode : BitVec 7) : Word :=
  imm.extractLsb' 20 1 ++ imm.extractLsb' 1 10 ++ imm.extractLsb' 11 1 ++ imm.extractLsb' 12 8 ++ rd ++ opcode

/-- Format U: `imm[31:12] rd opcode`. -/
def encodeU (imm : BitVec 20) (rd : RegId) (opcode : BitVec 7) : Word := imm ++ rd ++ opcode

/-- The word of an instruction, one line per row of R97. -/
def encode : Instr → Word
  | .lui rd imm => encodeU imm rd 0b0110111#7
  | .auipc rd imm => encodeU imm rd 0b0010111#7
  | .jal rd imm => encodeJ imm rd 0b1101111#7
  | .jalr rd rs1 imm => encodeI imm rs1 0b000#3 rd 0b1100111#7
  | .beq rs1 rs2 imm => encodeB imm rs2 rs1 0b000#3 0b1100011#7
  | .bne rs1 rs2 imm => encodeB imm rs2 rs1 0b001#3 0b1100011#7
  | .blt rs1 rs2 imm => encodeB imm rs2 rs1 0b100#3 0b1100011#7
  | .bge rs1 rs2 imm => encodeB imm rs2 rs1 0b101#3 0b1100011#7
  | .bltu rs1 rs2 imm => encodeB imm rs2 rs1 0b110#3 0b1100011#7
  | .bgeu rs1 rs2 imm => encodeB imm rs2 rs1 0b111#3 0b1100011#7
  | .lb rd rs1 imm => encodeI imm rs1 0b000#3 rd 0b0000011#7
  | .lh rd rs1 imm => encodeI imm rs1 0b001#3 rd 0b0000011#7
  | .lw rd rs1 imm => encodeI imm rs1 0b010#3 rd 0b0000011#7
  | .lbu rd rs1 imm => encodeI imm rs1 0b100#3 rd 0b0000011#7
  | .lhu rd rs1 imm => encodeI imm rs1 0b101#3 rd 0b0000011#7
  | .sb rs1 rs2 imm => encodeS imm rs2 rs1 0b000#3 0b0100011#7
  | .sh rs1 rs2 imm => encodeS imm rs2 rs1 0b001#3 0b0100011#7
  | .sw rs1 rs2 imm => encodeS imm rs2 rs1 0b010#3 0b0100011#7
  | .addi rd rs1 imm => encodeI imm rs1 0b000#3 rd 0b0010011#7
  | .slti rd rs1 imm => encodeI imm rs1 0b010#3 rd 0b0010011#7
  | .sltiu rd rs1 imm => encodeI imm rs1 0b011#3 rd 0b0010011#7
  | .xori rd rs1 imm => encodeI imm rs1 0b100#3 rd 0b0010011#7
  | .ori rd rs1 imm => encodeI imm rs1 0b110#3 rd 0b0010011#7
  | .andi rd rs1 imm => encodeI imm rs1 0b111#3 rd 0b0010011#7
  | .slli rd rs1 shamt => encodeR 0b0000000#7 shamt rs1 0b001#3 rd 0b0010011#7
  | .srli rd rs1 shamt => encodeR 0b0000000#7 shamt rs1 0b101#3 rd 0b0010011#7
  | .srai rd rs1 shamt => encodeR 0b0100000#7 shamt rs1 0b101#3 rd 0b0010011#7
  | .add rd rs1 rs2 => encodeR 0b0000000#7 rs2 rs1 0b000#3 rd 0b0110011#7
  | .sub rd rs1 rs2 => encodeR 0b0100000#7 rs2 rs1 0b000#3 rd 0b0110011#7
  | .sll rd rs1 rs2 => encodeR 0b0000000#7 rs2 rs1 0b001#3 rd 0b0110011#7
  | .slt rd rs1 rs2 => encodeR 0b0000000#7 rs2 rs1 0b010#3 rd 0b0110011#7
  | .sltu rd rs1 rs2 => encodeR 0b0000000#7 rs2 rs1 0b011#3 rd 0b0110011#7
  | .xor rd rs1 rs2 => encodeR 0b0000000#7 rs2 rs1 0b100#3 rd 0b0110011#7
  | .srl rd rs1 rs2 => encodeR 0b0000000#7 rs2 rs1 0b101#3 rd 0b0110011#7
  | .sra rd rs1 rs2 => encodeR 0b0100000#7 rs2 rs1 0b101#3 rd 0b0110011#7
  | .or rd rs1 rs2 => encodeR 0b0000000#7 rs2 rs1 0b110#3 rd 0b0110011#7
  | .and rd rs1 rs2 => encodeR 0b0000000#7 rs2 rs1 0b111#3 rd 0b0110011#7
  | .mul rd rs1 rs2 => encodeR 0b0000001#7 rs2 rs1 0b000#3 rd 0b0110011#7
  | .mulh rd rs1 rs2 => encodeR 0b0000001#7 rs2 rs1 0b001#3 rd 0b0110011#7
  | .mulhsu rd rs1 rs2 => encodeR 0b0000001#7 rs2 rs1 0b010#3 rd 0b0110011#7
  | .mulhu rd rs1 rs2 => encodeR 0b0000001#7 rs2 rs1 0b011#3 rd 0b0110011#7
  | .div rd rs1 rs2 => encodeR 0b0000001#7 rs2 rs1 0b100#3 rd 0b0110011#7
  | .divu rd rs1 rs2 => encodeR 0b0000001#7 rs2 rs1 0b101#3 rd 0b0110011#7
  | .rem rd rs1 rs2 => encodeR 0b0000001#7 rs2 rs1 0b110#3 rd 0b0110011#7
  | .remu rd rs1 rs2 => encodeR 0b0000001#7 rs2 rs1 0b111#3 rd 0b0110011#7
  | .csrrw rd rs1 csr => encodeI csr rs1 0b001#3 rd 0b1110011#7
  | .csrrs rd rs1 csr => encodeI csr rs1 0b010#3 rd 0b1110011#7
  | .ecall => 0b0000000#7 ++ 0b00000#5 ++ 0b00000#5 ++ 0b000#3 ++ 0b00000#5 ++ 0b1110011#7
  | .ebreak => 0b0000000#7 ++ 0b00001#5 ++ 0b00000#5 ++ 0b000#3 ++ 0b00000#5 ++ 0b1110011#7
  | .mret => 0b0011000#7 ++ 0b00010#5 ++ 0b00000#5 ++ 0b000#3 ++ 0b00000#5 ++ 0b1110011#7
  | .inv inst => inst

end Sys2Proof
end

