-- ==== Sys2Proof/Config.lean ====
section
/-! DEFINITION. The parameters of a machine instance (00_scope.md R5) and the values the spec leaves open
for ever (93_implementation_defined.md U3, U6). The parameters are fixed before the first step and no step
changes them (10_state.md R40, 70_reset_and_hazards.md R294); the host's interface gives `step` one argument,
so an instance carries its parameters in `State.cfg` (assumption log 2).

`PATTERN_TABLE` is held compiled (30_encoding.md R92). `XLEN` and `ILEN` are parameters whose one accepted value is 32, the
width at which every rule is written (log 3). -/

namespace Sys2Proof

/-- One registered device window: `(name, base, length, on_read, on_write)` (20_memory.md R52). The two
callbacks are optional; what a callback does inside its device is not in the spec, so a window records only
whether each is there. -/
structure Window where
  name : String
  base : Word
  length : Nat
  onRead : Bool
  onWrite : Bool
deriving DecidableEq, Repr

/-- The result of one special case of division as a function of the dividend, as plain data. The default table (45_muldiv.md
R219) has the first two kinds. The third gives the result for each listed dividend (the first entry counts) and one word
for every other; each function of the dividend is such a list, so `DIV_CORNERS` is any function, as R5 says (log 11). -/
inductive Corner where
  | value (v : Word)
  | dividend
  | table (entries : List (Word × Word)) (otherwise : Word)
deriving DecidableEq, Repr

/-- The parameter `DIV_CORNERS` (R5, R219): one entry for each cell of R219's table. -/
structure DivCorners where
  divZero : Corner
  divuZero : Corner
  remZero : Corner
  remuZero : Corner
  divOverflow : Corner
  remOverflow : Corner
deriving DecidableEq, Repr

/-- The default of `DIV_CORNERS`: the table of R219. -/
def DivCorners.standard : DivCorners where
  divZero := .value 0xffffffff#32
  divuZero := .value 0xffffffff#32
  remZero := .dividend
  remuZero := .dividend
  divOverflow := .value 0x80000000#32
  remOverflow := .value 0#32

/-- The parameters of R5's table. -/
structure Config where
  /-- `XLEN`: width in bits of a register, the pc and every CSR. -/
  xlen : Nat
  /-- `ILEN`: width in bits of every instruction. -/
  ilen : Nat
  /-- `NREG`: the number of general registers, `x[0]` to `x[NREG-1]` (log 18). -/
  nreg : Nat
  /-- `PATTERN_TABLE`, compiled. -/
  table : List Row
  /-- `MEM_BASE`: first address of the flat array. -/
  memBase : Word
  /-- `MEM_SIZE`: number of bytes of the flat array. -/
  memSize : Nat
  /-- `RESET_PC`: the pc after reset. -/
  resetPc : Word
  /-- `MMIO_WINDOWS`, in registration order. -/
  windows : List Window
  csrStatus : CsrAddr
  csrTvec : CsrAddr
  csrEpc : CsrAddr
  csrCause : CsrAddr
  causeEcall : Word
  causeBreakpoint : Word
  /-- `BREAK_TRAPS`: whether EBREAK enters the trap unit before it stops the run. -/
  breakTraps : Bool
  divCorners : DivCorners
deriving DecidableEq, Repr

/-- Every parameter at the default of R5. -/
def Config.standard : Config where
  xlen := 32
  ilen := 32
  nreg := 32
  table := patternTable
  memBase := 0x80000000#32
  memSize := 0x08000000
  resetPc := 0x80000000#32
  windows := []
  csrStatus := 0x300#12
  csrTvec := 0x305#12
  csrEpc := 0x341#12
  csrCause := 0x342#12
  causeEcall := 11#32
  causeBreakpoint := 3#32
  breakTraps := true
  divCorners := DivCorners.standard

/-- FREE VALUE. The byte that a cell of the flat array holds while nothing has been written to it, by address
(R41, R51, U3: "any value"). No body: no proof can know it, so a claim holds for every value (log 5). -/
opaque Config.unwrittenByte : Nat → Byte

/-- FREE VALUE. What a device's read callback returns, by the number of device reads made before it (R63, U6:
"the model takes each device read value as a draw"). No body (log 6). DESIGN CHOICE (log 16): the count is the one
argument, so the n-th device read returns the same value in every machine instance, and again after a re-initialisation. -/
opaque Config.deviceRead : Nat → Word

end Sys2Proof
end

