-- ==== Sys2Proof/Machine/State.lean ====
section
/-! DEFINITION. The state of the machine as plain data (10_state.md R20), the reasons a step can stop, and the
state after reset (R41). -/

namespace Sys2Proof.Machine

/-- The number of bytes of an access: the engine issues 1, 2 and 4 and no other (20_memory.md R59; log 13). -/
inductive Width where
  | byte
  | half
  | word
deriving DecidableEq, Repr

/-- The trap state machine's two states (10_state.md R36, 60_exceptions.md R256). Not privilege modes (R267). -/
inductive TrapState where
  | normal
  | trapped
deriving DecidableEq, Repr

/-- The run state (10_state.md R37). -/
inductive RunState where
  | running
  | stopped
  | aborted
deriving DecidableEq, Repr

/-- The three classes of fatal error (60_exceptions.md R258). -/
inductive FatalClass where
  | decodeError
  | memoryBound
  | csrError
deriving DecidableEq, Repr

/-- The fault record `(class, pc, info)` (10_state.md R38). `info` is the instruction word, the faulting address,
or the CSR address zero-extended to 32 bits, as the records of 96_test_vectors_by_family.md section 6 show it. -/
structure FaultRecord where
  cls : FatalClass
  pc : Word
  info : Word
deriving DecidableEq, Repr

/-- One device access as the event history keeps it (20_memory.md R63): the window, the address relative to it,
the number of bytes, and the value returned (its `8n` bits) or handed to the write callback (all of it, R57). -/
inductive DeviceEvent where
  | read (window : Window) (offset : Word) (width : Width) (value : Word)
  | write (window : Window) (offset : Word) (width : Width) (value : Word)
deriving DecidableEq, Repr

/-- The bytes of the flat array that a store or the host has written: `(address, byte)` pairs, addresses strictly
rising. An address not listed holds no written byte; what it reads as is `Memory.byte` in Ops.lean (R51). -/
abbrev Memory := List Host.Cell

/-- The state (10_state.md R20). `cfg`, `events`, `draws` and `started` are the model's own fields (log 2, 6, 12). -/
structure State where
  /-- The parameters of this machine instance (00_scope.md R5): read-only, no step changes them. -/
  cfg : Config
  /-- `x[0] .. x[31]`, the registers a 5-bit field can name (R21). -/
  x : Vector Word 32
  /-- `x[32] .. x[NREG-1]`, which no field can name; there are none with the default `NREG = 32` (R21; log 18). -/
  xHigh : List Word
  /-- The program counter (R25). -/
  pc : Word
  /-- The status CSR (R30). -/
  mstatus : Word
  /-- The trap-vector CSR (R31). -/
  mtvec : Word
  /-- The exception-PC CSR (R32). -/
  mepc : Word
  /-- The cause CSR (R33). -/
  mcause : Word
  /-- `trap_state` (R36). -/
  trapState : TrapState
  /-- `run_state` (R37). -/
  runState : RunState
  /-- The fault record, absent until a fatal error (R38). -/
  fault : Option FaultRecord
  /-- Physical memory (20_memory.md R51). -/
  mem : Memory
  /-- The device accesses so far, in program order (20_memory.md R63). -/
  events : List DeviceEvent
  /-- How many device reads have been made: the argument of the free value `Config.deviceRead` (log 6). -/
  draws : Nat
  /-- Whether a step has been taken since reset: what the host may do "before the first step only" depends on it
  (60_exceptions.md R269 (e); log 12). -/
  started : Bool
deriving DecidableEq, Repr

/-- Why the machine is stuck. -/
inductive Fault where
  /-- A step in `ABORTED`: "No step is taken in `ABORTED`; only reset leaves it" (60_exceptions.md R258, U15).
  Raised by `step`; safe. The fatal error itself is a next state (log 1). -/
  | aborted
deriving DecidableEq, Repr

/-- Why the model gives a step no meaning. -/
inductive Refusal where
  /-- An instruction whose meaning has not been written: raised by `exec`'s arms only; safe. No arm does. -/
  | notModelled (mnemonic : String)
  /-- A step in `STOPPED`: a step is taken only in `RUNNING` (40_engine_cycle.md R110), and the next event is the
  host's, `State.resume` (60_exceptions.md R269 (b)). Raised by `step`; safe (log 7). -/
  | stopped
  /-- A configuration the spec has the model refuse (93_implementation_defined.md U17, U18; 30_encoding.md R95). Raised by
  `step`; safe (log 9). -/
  | badConfig
  /-- The instruction names a register that a machine with `NREG` below 32 does not have; the spec gives no effect
  (30_encoding.md R90 speaks of `NREG = 32` only). Raised by `step`, before the action; safe (log 18). -/
  | noRegister
deriving DecidableEq, Repr

/-- What a meaning and a step answer. -/
abbrev Result := Host.Outcome State Fault Refusal

/-- The state after reset of a machine with parameters `c` (10_state.md R41). Where R41 says "unspecified" the
value is 0, a DESIGN CHOICE (log 4): `x[1]` to `x[NREG-1]`, `mstatus`, `mtvec`, `mepc`, `mcause`. -/
def State.resetOf (c : Config) : State where
  cfg := c
  x := Vector.replicate 32 0#32
  xHigh := List.replicate (c.nreg - 32) 0#32
  pc := c.resetPc
  mstatus := 0#32
  mtvec := 0#32
  mepc := 0#32
  mcause := 0#32
  trapState := .normal
  runState := .stopped
  fault := none
  mem := []
  events := []
  draws := 0
  started := false

/-- The machine right after reset, every parameter at its default (R5, R41). -/
def State.reset : State := State.resetOf Config.standard

end Sys2Proof.Machine
end

