-- ==== Sys2Proof/Machine/Ops.lean ====
section
/-! DEFINITION. The named operations over registers, CSRs and memory, the end of a step (commit, stop, fatal
error), and trap entry and return, each as one shared operation. -/

namespace Sys2Proof.Machine

/-! ## General registers and the pc (10_state.md R21 to R26) -/

/-- `x[r]` (00_scope.md R7). `x[0]` is read like any other: the commit keeps it 0 (R22, R120; log 8). -/
def State.reg (s : State) (r : RegId) : Word := s.x[r.toNat]'r.isLt

/-- `x[r] <- v`. A write to `x[0]` is made, and undone at commit (R7, R22 (a)). -/
def State.setReg (s : State) (r : RegId) (v : Word) : State := { s with x := s.x.set r.toNat v r.isLt }

/-- `snpc`, the statically next pc: `pc + 4` modulo `2^32` (40_engine_cycle.md R116). -/
def State.snpc (s : State) : Word := s.pc + 4#32

/-- A step is taken: the host's "before the first step" is over (60_exceptions.md R269 (e); log 12). -/
def State.begin (s : State) : State := { s with started := true }

/-! ## The end of a step (40_engine_cycle.md R111 lines 5 to 7, R117, R120, R121) -/

/-- Commit: `pc <- dnpc; x[0] <- 0` (R117, R120). -/
def State.commit (s : State) (dnpc : Word) : State :=
  { s with pc := dnpc, x := s.x.set 0 0#32 (by decide) }

/-- A requested `Stop()` is honoured after the commit: `run_state <- STOPPED` (60_exceptions.md R262). -/
def State.stop (s : State) : State := { s with runState := .stopped }

/-- The argument of `raise Fatal(class, info)` (60_exceptions.md R258). -/
structure Fatal where
  cls : FatalClass
  info : Word
deriving DecidableEq, Repr

/-- `raise Fatal(class, info)`: `fault <- (class, pc, info); run_state <- ABORTED`, and nothing else; the pc stays
at the faulting instruction (R121, R258). -/
def State.abort (s : State) (f : Fatal) : State :=
  { s with fault := some ⟨f.cls, s.pc, f.info⟩, runState := .aborted }

/-- An action that writes `x[rd]` and falls through: `x[rd] <- v`, then commit with `dnpc = pc + 4`. -/
def State.writeNext (s : State) (rd : RegId) (v : Word) : Result :=
  .next ((s.setReg rd v).commit s.snpc)

/-! ## Control and status registers (10_state.md R29 to R35) -/

/-- The four CSRs (R29, C4). -/
inductive Csr where
  | mstatus
  | mtvec
  | mepc
  | mcause
deriving DecidableEq, Repr

/-- The CSR at a 12-bit address; `none` where the address names none (R29, R34). -/
def csrAt (c : Config) (a : CsrAddr) : Option Csr :=
  if a = c.csrStatus then some .mstatus
  else if a = c.csrTvec then some .mtvec
  else if a = c.csrEpc then some .mepc
  else if a = c.csrCause then some .mcause
  else none

/-- `csr[a]`, read: all 32 bits, no side effect (R30 to R33, R35). -/
def State.csr (s : State) : Csr → Word
  | .mstatus => s.mstatus
  | .mtvec => s.mtvec
  | .mepc => s.mepc
  | .mcause => s.mcause

/-- `csr[a] <- v`: all 32 bits, every value legal, no other effect (R30 to R33, R35, R36). -/
def State.setCsr (s : State) (k : Csr) (v : Word) : State :=
  match k with
  | .mstatus => { s with mstatus := v }
  | .mtvec => { s with mtvec := v }
  | .mepc => { s with mepc := v }
  | .mcause => { s with mcause := v }

/-! ## Trap entry and trap return (60_exceptions.md R252 to R257) -/

/-- `Trap(cause)`: `mepc <- pc; mcause <- cause; trap_state <- TRAPPED`, and the answer is the content of `mtvec`,
unmasked (R252, R253). It does the same in either trap state (R257) and changes nothing else (R254). -/
def State.trap (s : State) (cause : Word) : Word × State :=
  (s.mtvec, { s with mepc := s.pc, mcause := cause, trapState := .trapped })

/-- `ReturnFromTrap()`: `trap_state <- NORMAL`, and the answer is the content of `mepc` (R255). -/
def State.returnFromTrap (s : State) : Word × State :=
  (s.mepc, { s with trapState := .normal })

/-! ## Memory as data -/

/-- The byte last written at an address, if any. -/
def Memory.find : Memory → Nat → Option Byte
  | [], _ => none
  | (b, v) :: m, a => if a = b then some v else Memory.find m a

/-- The byte at an address of the flat array: the last one written, or, if none ever was, the free value of that
address (20_memory.md R51; log 5). -/
def Memory.byte (m : Memory) (a : Nat) : Byte := (Memory.find m a).getD (Config.unwrittenByte a)

/-- `byte[a] <- v`, keeping the addresses strictly rising. -/
def Memory.put : Memory → Nat → Byte → Memory
  | [], a, v => [(a, v)]
  | (b, w) :: m, a, v =>
    if a < b then (a, v) :: (b, w) :: m
    else if a = b then (a, v) :: m
    else (b, w) :: Memory.put m a v

/-- The canonical form: addresses strictly rising, so equal memories are equal lists. An address not listed holds
no written byte, so no entry can equal what an unlisted address holds. -/
def Memory.wf : Memory → Bool
  | [] => true
  | [_] => true
  | (a, _) :: (b, v) :: m => decide (a < b) && Memory.wf ((b, v) :: m)

/-- The little-endian value of `n` bytes from `a`: `sum of byte[a + i] * 2^(8i)` (20_memory.md R55, R56). -/
def Memory.read (m : Memory) (a : Nat) : Nat → Word
  | 0 => 0#32
  | n + 1 => (Memory.byte m a).setWidth 32 ||| (Memory.read m (a + 1) n <<< 8)

/-- `byte[a + i] <- v[8i+7 : 8i]` for the `n` bytes from `a` (20_memory.md R57). -/
def Memory.write (m : Memory) (a : Nat) (v : Word) : Nat → Memory
  | 0 => m
  | n + 1 => Memory.write (Memory.put m a (v.setWidth 8)) (a + 1) (v >>> 8) n

/-! ## Address resolution (20_memory.md R51 to R54, R62) -/

/-- The number of bytes of an access (R59). -/
def Width.bytes : Width → Nat
  | .byte => 1
  | .half => 2
  | .word => 4

/-- The first address past the flat array, computed without wrap (R51). -/
def flatEnd (c : Config) : Nat := c.memBase.toNat + c.memSize

/-- `MEM_BASE <= a < MEM_BASE + MEM_SIZE` (R51). -/
def inFlat (c : Config) (a : Nat) : Bool := c.memBase.toNat ≤ a && a < flatEnd c

/-- `base <= a < base + length` (R52). -/
def Window.covers (w : Window) (a : Nat) : Bool := w.base.toNat ≤ a && a < w.base.toNat + w.length

/-- The first registered window that contains `a` (R53 (2)). -/
def firstWindow : List Window → Nat → Option Window
  | [], _ => none
  | w :: ws, a => if Window.covers w a then some w else firstWindow ws a

/-- Where an access goes. -/
inductive Region where
  | flat
  | device (window : Window) (offset : Word)
deriving DecidableEq, Repr

/-- `Resolve(addr, len)` (R53): the region of the first byte, provided the last byte is in it too (R62); `none` is
`Fatal(MemoryBound, addr)` (R54). All sums are computed without wrap. -/
def resolve (c : Config) (addr : Word) (n : Nat) : Option Region :=
  if inFlat c addr.toNat then
    if addr.toNat + n ≤ flatEnd c then some .flat else none
  else
    match firstWindow c.windows addr.toNat with
    | some w => if addr.toNat + n ≤ w.base.toNat + w.length then some (.device w (addr - w.base)) else none
    | none => none

/-! ## `MemRead` and `MemWrite` (20_memory.md R56, R57, R63) -/

/-- The low `8n` bits of a value, zero-extended. -/
def lowBytes (v : Word) : Width → Word
  | .byte => (v.setWidth 8).setWidth 32
  | .half => (v.setWidth 16).setWidth 32
  | .word => v

/-- `Fatal(MemoryBound, addr)` (60_exceptions.md R260). -/
def memoryBound (addr : Word) : Fatal := ⟨.memoryBound, addr⟩

/-- `MemRead(addr, n)`: the value, zero-extended, and the state after the access. A read of the flat array changes
nothing; a device read takes its value from the free value and is recorded; a window without a read callback is
out of bound (R56, R63, D23). -/
def State.memRead (s : State) (addr : Word) (n : Width) : Except Fatal (Word × State) :=
  match resolve s.cfg addr n.bytes with
  | some .flat => .ok (Memory.read s.mem addr.toNat n.bytes, s)
  | some (.device w offset) =>
    if w.onRead then
      .ok (lowBytes (Config.deviceRead s.draws) n,
        { s with
          draws := s.draws + 1
          events := s.events ++ [.read w offset n (lowBytes (Config.deviceRead s.draws) n)] })
    else .error (memoryBound addr)
  | none => .error (memoryBound addr)

/-- `MemWrite(addr, n, v)`: the flat array takes the low `n` bytes of `v`; a device's write callback is invoked with
`(addr - base, n, v)`, which is recorded, and has no effect on the machine's state (R57, R63, U6); a window without a write
callback is out of bound (D23). -/
def State.memWrite (s : State) (addr : Word) (n : Width) (v : Word) : Except Fatal State :=
  match resolve s.cfg addr n.bytes with
  | some .flat => .ok { s with mem := Memory.write s.mem addr.toNat v n.bytes }
  | some (.device w offset) =>
    if w.onWrite then .ok { s with events := s.events ++ [.write w offset n v] }
    else .error (memoryBound addr)
  | none => .error (memoryBound addr)

/-- The fetch: `MemRead(pc, 4)`, with no alignment check, through the same resolution as a load
(40_engine_cycle.md R112, 20_memory.md R61, D29). -/
def State.fetch (s : State) : Except Fatal (Word × State) := s.memRead s.pc .word

/-! ## Which configurations a step accepts (93_implementation_defined.md U17, U18) -/

/-- The table is accepted (30_encoding.md R95, R96, U17); `XLEN` and `ILEN` are 32, and there is a register `x[0]`, so
`NREG` is at least 1 (00_scope.md R5, 10_state.md R22; log 3, 18); `MEM_BASE + MEM_SIZE` and every window's end are at most `2^32`
(R5, R62, U18); and the four CSR addresses differ, so that each names one CSR (R29; log 9). -/
def configOk (c : Config) : Bool :=
  tableOk c.table &&
  decide (c.xlen = 32 ∧ c.ilen = 32 ∧ 1 ≤ c.nreg) &&
  decide (flatEnd c ≤ 2 ^ 32) &&
  c.windows.all (fun w => decide (w.base.toNat + w.length ≤ 2 ^ 32)) &&
  decide (c.csrStatus ≠ c.csrTvec ∧ c.csrStatus ≠ c.csrEpc ∧ c.csrStatus ≠ c.csrCause ∧
    c.csrTvec ≠ c.csrEpc ∧ c.csrTvec ≠ c.csrCause ∧ c.csrEpc ≠ c.csrCause)

end Sys2Proof.Machine
end

