-- ==== Sys2Proof/Machine/Flags.lean ====
section
/-! DEFINITION. There are no status flags, condition codes or predicate registers (10_state.md R28), so nothing
here computes one. What stands in their place is the comparison of two words, which the set-if-less-than
instructions write to a register and the branches use at once (00_scope.md R6, R7). -/

namespace Sys2Proof.Machine

/-- `a <s b`: both read as two's complement numbers, exactly (R6, R7; 42_integer_register.md R153). -/
def ltSigned (a b : Word) : Bool := decide (a.toInt < b.toInt)

/-- `a <u b`: both read as unsigned numbers (R6, R7). -/
def ltUnsigned (a b : Word) : Bool := decide (a.toNat < b.toNat)

/-- A condition as a register value: exactly 0 or 1 in all 32 bits (41_integer_immediate.md R131). -/
def boolWord (b : Bool) : Word := if b then 1#32 else 0#32

end Sys2Proof.Machine
end

