-- ==== Sys2Proof/Machine/Operands.lean ====
section
/-! DEFINITION. Operand forms: the immediates at 32 bits (30_encoding.md R84 to R89), the effective address
(44_load_store.md R198 (a)), the extension of loaded values (00_scope.md R7), and the shared shapes of the
meanings of a load, a store, a jump and a branch. -/

namespace Sys2Proof.Machine

/-- `sext_n` of a field: the immediates of formats I, S, B and J (R84, R85, R87, R88). -/
def sext {n : Nat} (imm : BitVec n) : Word := imm.signExtend 32

/-- `immU = inst[31:12] ++ 12'b0` (R89). -/
def upper (imm : BitVec 20) : Word := imm ++ 0#12

/-- `sext_n(v)`: the low `n` bits of a word, sign-extended to 32 bits (R7). -/
def sextLow (n : Nat) (v : Word) : Word := (v.setWidth n).signExtend 32

/-- `zext_n(v)`: the low `n` bits of a word, zero-extended to 32 bits (R7). -/
def zextLow (n : Nat) (v : Word) : Word := (v.setWidth n).setWidth 32

/-! ## Operand extraction (30_encoding.md R90) -/

/-- The destination register of an instruction: formats I, R, J and U have one; S, B and N have none (10_state.md R23). -/
def destination : Instr → Option RegId
  | .lui rd _ | .auipc rd _ | .jal rd _ | .jalr rd _ _ => some rd
  | .lb rd _ _ | .lh rd _ _ | .lw rd _ _ | .lbu rd _ _ | .lhu rd _ _ => some rd
  | .addi rd _ _ | .slti rd _ _ | .sltiu rd _ _ | .xori rd _ _ | .ori rd _ _ | .andi rd _ _ => some rd
  | .slli rd _ _ | .srli rd _ _ | .srai rd _ _ => some rd
  | .add rd _ _ | .sub rd _ _ | .sll rd _ _ | .slt rd _ _ | .sltu rd _ _ | .xor rd _ _ | .srl rd _ _ | .sra rd _ _ => some rd
  | .or rd _ _ | .and rd _ _ => some rd
  | .mul rd _ _ | .mulh rd _ _ | .mulhsu rd _ _ | .mulhu rd _ _ => some rd
  | .div rd _ _ | .divu rd _ _ | .rem rd _ _ | .remu rd _ _ => some rd
  | .csrrw rd _ _ | .csrrs rd _ _ => some rd
  | .beq .. | .bne .. | .blt .. | .bge .. | .bltu .. | .bgeu .. => none
  | .sb .. | .sh .. | .sw .. => none
  | .ecall | .ebreak | .mret | .inv _ => none

/-- The source registers of an instruction: `rs1` for formats I, S, R, B, `rs2` for S, R, B (R23, 30_encoding.md R90). -/
def sources : Instr → List RegId
  | .lui .. | .auipc .. | .jal .. => []
  | .jalr _ rs1 _ => [rs1]
  | .beq rs1 rs2 _ | .bne rs1 rs2 _ | .blt rs1 rs2 _ | .bge rs1 rs2 _ | .bltu rs1 rs2 _ | .bgeu rs1 rs2 _ => [rs1, rs2]
  | .lb _ rs1 _ | .lh _ rs1 _ | .lw _ rs1 _ | .lbu _ rs1 _ | .lhu _ rs1 _ => [rs1]
  | .sb rs1 rs2 _ | .sh rs1 rs2 _ | .sw rs1 rs2 _ => [rs1, rs2]
  | .addi _ rs1 _ | .slti _ rs1 _ | .sltiu _ rs1 _ | .xori _ rs1 _ | .ori _ rs1 _ | .andi _ rs1 _ => [rs1]
  | .slli _ rs1 _ | .srli _ rs1 _ | .srai _ rs1 _ => [rs1]
  | .add _ rs1 rs2 | .sub _ rs1 rs2 | .sll _ rs1 rs2 | .slt _ rs1 rs2 | .sltu _ rs1 rs2 | .xor _ rs1 rs2 => [rs1, rs2]
  | .srl _ rs1 rs2 | .sra _ rs1 rs2 | .or _ rs1 rs2 | .and _ rs1 rs2 => [rs1, rs2]
  | .mul _ rs1 rs2 | .mulh _ rs1 rs2 | .mulhsu _ rs1 rs2 | .mulhu _ rs1 rs2 => [rs1, rs2]
  | .div _ rs1 rs2 | .divu _ rs1 rs2 | .rem _ rs1 rs2 | .remu _ rs1 rs2 => [rs1, rs2]
  | .csrrw _ rs1 _ | .csrrs _ rs1 _ => [rs1]
  | .ecall | .ebreak | .mret | .inv _ => []

/-- Every register the instruction names exists: its index is below `NREG` (10_state.md R21; log 18). -/
def registersExist (c : Config) (i : Instr) : Bool :=
  (sources i).all (fun r => decide (r.toNat < c.nreg)) && (destination i).all (fun r => decide (r.toNat < c.nreg))

/-! ## The shared shapes of the meanings -/

/-- `ea = src1 + imm` modulo `2^32` (R198 (a)). -/
def State.ea (s : State) (rs1 : RegId) (imm : BitVec 12) : Word := s.reg rs1 + sext imm

/-- `x[rd] <- extend(MemRead(ea, n))` with `dnpc = pc + 4`, or the fatal error (R198 (c), (f), (g), (h)). -/
def State.load (s : State) (rd : RegId) (addr : Word) (n : Width) (extend : Word → Word) : Result :=
  match s.memRead addr n with
  | .ok (v, s') => s'.writeNext rd (extend v)
  | .error f => .next (s.abort f)

/-- `MemWrite(ea, n, src2)` with `dnpc = pc + 4`, or the fatal error (R198 (d), (f), (h)). -/
def State.store (s : State) (addr : Word) (n : Width) (v : Word) : Result :=
  match s.memWrite addr n v with
  | .ok s' => .next (s'.commit s.snpc)
  | .error f => .next (s.abort f)

/-- `x[rd] <- pc + 4; dnpc <- target` (43_control_transfer.md R178 (d)). -/
def State.jump (s : State) (rd : RegId) (target : Word) : Result :=
  .next ((s.setReg rd s.snpc).commit target)

/-- `if taken then dnpc <- pc + immB`, else `dnpc = pc + 4` (43_control_transfer.md, conditional branches). -/
def State.branch (s : State) (taken : Bool) (imm : BitVec 13) : Result :=
  .next (s.commit (if taken then s.pc + sext imm else s.snpc))

end Sys2Proof.Machine
end

