-- ==== Sys2Proof/Machine/ControlTransfer.lean ====
section
/-! DEFINITION. The control-transfer instructions (43_control_transfer.md R170 to R178). Targets are not checked for alignment or
for lying in memory; the next fetch decides (R178 (e), (g)). -/

namespace Sys2Proof.Machine

/-- R170 JAL: `x[rd] <- pc + 4; dnpc <- pc + immJ`, both modulo `2^32`. -/
def execJal (rd : RegId) (imm : BitVec 21) (s : State) : Result :=
  s.jump rd (s.pc + sext imm)

/-- R171 JALR: `dnpc <- (src1 + immI) AND 0xfffffffe; x[rd] <- pc + 4`, the target from the old `src1`. -/
def execJalr (rd rs1 : RegId) (imm : BitVec 12) (s : State) : Result :=
  s.jump rd ((s.reg rs1 + sext imm) &&& 0xfffffffe#32)

/-- R172 BEQ: `if` `src1 == src2` `then dnpc <- pc + immB`. -/
def execBeq (rs1 rs2 : RegId) (imm : BitVec 13) (s : State) : Result :=
  s.branch (s.reg rs1 == s.reg rs2) imm

/-- R173 BNE: `if` `src1 != src2` `then dnpc <- pc + immB`. -/
def execBne (rs1 rs2 : RegId) (imm : BitVec 13) (s : State) : Result :=
  s.branch (s.reg rs1 != s.reg rs2) imm

/-- R174 BLT: `if` `src1 <s src2` `then dnpc <- pc + immB`. -/
def execBlt (rs1 rs2 : RegId) (imm : BitVec 13) (s : State) : Result :=
  s.branch (ltSigned (s.reg rs1) (s.reg rs2)) imm

/-- R175 BGE: `if` `not (src1 <s src2)` `then dnpc <- pc + immB`. -/
def execBge (rs1 rs2 : RegId) (imm : BitVec 13) (s : State) : Result :=
  s.branch (!ltSigned (s.reg rs1) (s.reg rs2)) imm

/-- R176 BLTU: `if` `src1 <u src2` `then dnpc <- pc + immB`. -/
def execBltu (rs1 rs2 : RegId) (imm : BitVec 13) (s : State) : Result :=
  s.branch (ltUnsigned (s.reg rs1) (s.reg rs2)) imm

/-- R177 BGEU: `if` `not (src1 <u src2)` `then dnpc <- pc + immB`. -/
def execBgeu (rs1 rs2 : RegId) (imm : BitVec 13) (s : State) : Result :=
  s.branch (!ltUnsigned (s.reg rs1) (s.reg rs2)) imm

end Sys2Proof.Machine
end

