-- ==== Sys2Proof/Machine/IntegerImmediate.lean ====
section
/-! DEFINITION. The integer register-immediate instructions (41_integer_immediate.md R130 to R141). Each writes exactly
`x[rd]` and leaves `dnpc = pc + 4` (R141). -/

namespace Sys2Proof.Machine

/-- R130 ADDI: `x[rd] <- src1 + immI`, modulo `2^32`. -/
def execAddi (rd rs1 : RegId) (imm : BitVec 12) (s : State) : Result :=
  s.writeNext rd (s.reg rs1 + sext imm)

/-- R131 SLTI: `x[rd] <- (src1 <s immI) ? 1 : 0`. -/
def execSlti (rd rs1 : RegId) (imm : BitVec 12) (s : State) : Result :=
  s.writeNext rd (boolWord (ltSigned (s.reg rs1) (sext imm)))

/-- R132 SLTIU: `x[rd] <- (src1 <u immI) ? 1 : 0`, the immediate sign-extended first. -/
def execSltiu (rd rs1 : RegId) (imm : BitVec 12) (s : State) : Result :=
  s.writeNext rd (boolWord (ltUnsigned (s.reg rs1) (sext imm)))

/-- R133 XORI: `x[rd] <- src1 XOR immI`. -/
def execXori (rd rs1 : RegId) (imm : BitVec 12) (s : State) : Result :=
  s.writeNext rd (s.reg rs1 ^^^ sext imm)

/-- R134 ORI: `x[rd] <- src1 OR immI`. -/
def execOri (rd rs1 : RegId) (imm : BitVec 12) (s : State) : Result :=
  s.writeNext rd (s.reg rs1 ||| sext imm)

/-- R135 ANDI: `x[rd] <- src1 AND immI`. -/
def execAndi (rd rs1 : RegId) (imm : BitVec 12) (s : State) : Result :=
  s.writeNext rd (s.reg rs1 &&& sext imm)

/-- R136 SLLI: `x[rd] <- src1 << shamt`. -/
def execSlli (rd rs1 : RegId) (shamt : BitVec 5) (s : State) : Result :=
  s.writeNext rd (s.reg rs1 <<< shamt.toNat)

/-- R137 SRLI: `x[rd] <- src1 >>u shamt`. -/
def execSrli (rd rs1 : RegId) (shamt : BitVec 5) (s : State) : Result :=
  s.writeNext rd (s.reg rs1 >>> shamt.toNat)

/-- R138 SRAI: `x[rd] <- src1 >>s shamt`. -/
def execSrai (rd rs1 : RegId) (shamt : BitVec 5) (s : State) : Result :=
  s.writeNext rd ((s.reg rs1).sshiftRight shamt.toNat)

/-- R139 LUI: `x[rd] <- immU`. -/
def execLui (rd : RegId) (imm : BitVec 20) (s : State) : Result :=
  s.writeNext rd (upper imm)

/-- R140 AUIPC: `x[rd] <- pc + immU`, the pc of the AUIPC itself, modulo `2^32`. -/
def execAuipc (rd : RegId) (imm : BitVec 20) (s : State) : Result :=
  s.writeNext rd (s.pc + upper imm)

end Sys2Proof.Machine
end

