-- ==== Sys2Proof/Machine/IntegerRegister.lean ====
section
/-! DEFINITION. The integer register-register instructions (42_integer_register.md R150 to R160). Each writes exactly
`x[rd]` and leaves `dnpc = pc + 4` (R160). -/

namespace Sys2Proof.Machine

/-- `src2[4:0]`, the amount of a register-register shift; bits 31:5 are ignored (R160). -/
def shiftAmount (v : Word) : Nat := (v.extractLsb' 0 5).toNat

/-- R150 ADD: `x[rd] <- src1 + src2`, modulo `2^32`. -/
def execAdd (rd rs1 rs2 : RegId) (s : State) : Result :=
  s.writeNext rd (s.reg rs1 + s.reg rs2)

/-- R151 SUB: `x[rd] <- src1 - src2`, modulo `2^32`. -/
def execSub (rd rs1 rs2 : RegId) (s : State) : Result :=
  s.writeNext rd (s.reg rs1 - s.reg rs2)

/-- R152 SLL: `x[rd] <- src1 << src2[4:0]`. -/
def execSll (rd rs1 rs2 : RegId) (s : State) : Result :=
  s.writeNext rd (s.reg rs1 <<< shiftAmount (s.reg rs2))

/-- R153 SLT: `x[rd] <- (src1 <s src2) ? 1 : 0`. -/
def execSlt (rd rs1 rs2 : RegId) (s : State) : Result :=
  s.writeNext rd (boolWord (ltSigned (s.reg rs1) (s.reg rs2)))

/-- R154 SLTU: `x[rd] <- (src1 <u src2) ? 1 : 0`. -/
def execSltu (rd rs1 rs2 : RegId) (s : State) : Result :=
  s.writeNext rd (boolWord (ltUnsigned (s.reg rs1) (s.reg rs2)))

/-- R155 XOR: `x[rd] <- src1 XOR src2`. -/
def execXor (rd rs1 rs2 : RegId) (s : State) : Result :=
  s.writeNext rd (s.reg rs1 ^^^ s.reg rs2)

/-- R156 SRL: `x[rd] <- src1 >>u src2[4:0]`. -/
def execSrl (rd rs1 rs2 : RegId) (s : State) : Result :=
  s.writeNext rd (s.reg rs1 >>> shiftAmount (s.reg rs2))

/-- R157 SRA: `x[rd] <- src1 >>s src2[4:0]`. -/
def execSra (rd rs1 rs2 : RegId) (s : State) : Result :=
  s.writeNext rd ((s.reg rs1).sshiftRight (shiftAmount (s.reg rs2)))

/-- R158 OR: `x[rd] <- src1 OR src2`. -/
def execOr (rd rs1 rs2 : RegId) (s : State) : Result :=
  s.writeNext rd (s.reg rs1 ||| s.reg rs2)

/-- R159 AND: `x[rd] <- src1 AND src2`. -/
def execAnd (rd rs1 rs2 : RegId) (s : State) : Result :=
  s.writeNext rd (s.reg rs1 &&& s.reg rs2)

end Sys2Proof.Machine
end

