-- ==== Sys2Proof/Machine/LoadStore.lean ====
section
/-! DEFINITION. The load and store instructions (44_load_store.md R190 to R198): one access at the effective address, of any
alignment; outside every region, or across the end of one, the fatal error `MemoryBound`. -/

namespace Sys2Proof.Machine

/-- R190 LB: `ea <- src1 + immI`; `x[rd] <- sext_8(MemRead(ea, 1))`. -/
def execLb (rd rs1 : RegId) (imm : BitVec 12) (s : State) : Result :=
  s.load rd (s.ea rs1 imm) .byte (sextLow 8)

/-- R191 LH: `ea <- src1 + immI`; `x[rd] <- sext_16(MemRead(ea, 2))`. -/
def execLh (rd rs1 : RegId) (imm : BitVec 12) (s : State) : Result :=
  s.load rd (s.ea rs1 imm) .half (sextLow 16)

/-- R192 LW: `ea <- src1 + immI`; `x[rd] <- MemRead(ea, 4)`. -/
def execLw (rd rs1 : RegId) (imm : BitVec 12) (s : State) : Result :=
  s.load rd (s.ea rs1 imm) .word id

/-- R193 LBU: `ea <- src1 + immI`; `x[rd] <- zext_8(MemRead(ea, 1))`. -/
def execLbu (rd rs1 : RegId) (imm : BitVec 12) (s : State) : Result :=
  s.load rd (s.ea rs1 imm) .byte (zextLow 8)

/-- R194 LHU: `ea <- src1 + immI`; `x[rd] <- zext_16(MemRead(ea, 2))`. -/
def execLhu (rd rs1 : RegId) (imm : BitVec 12) (s : State) : Result :=
  s.load rd (s.ea rs1 imm) .half (zextLow 16)

/-- R195 SB: `ea <- src1 + immS; MemWrite(ea, 1, src2)`. -/
def execSb (rs1 rs2 : RegId) (imm : BitVec 12) (s : State) : Result :=
  s.store (s.ea rs1 imm) .byte (s.reg rs2)

/-- R196 SH: `ea <- src1 + immS; MemWrite(ea, 2, src2)`. -/
def execSh (rs1 rs2 : RegId) (imm : BitVec 12) (s : State) : Result :=
  s.store (s.ea rs1 imm) .half (s.reg rs2)

/-- R197 SW: `ea <- src1 + immS; MemWrite(ea, 4, src2)`. -/
def execSw (rs1 rs2 : RegId) (imm : BitVec 12) (s : State) : Result :=
  s.store (s.ea rs1 imm) .word (s.reg rs2)

end Sys2Proof.Machine
end

