-- ==== Sys2Proof/Machine/MulDiv.lean ====
section
/-! DEFINITION. The multiply, divide and remainder instructions (45_muldiv.md R210 to R219). Products are exact and then cut
(R218); a zero divisor and the signed overflow give the values of `DIV_CORNERS` and never trap (R218, R219). -/

namespace Sys2Proof.Machine

/-- Bits 63:32 of an exact product taken as a 64-bit two's complement number (R211 to R213, R218). -/
def highWord (product : Int) : Word := (BitVec.ofInt 64 product).extractLsb' 32 32

/-- Bits 31:0 of an exact product (R210, R218). -/
def lowWord (product : Int) : Word := (BitVec.ofInt 64 product).extractLsb' 0 32

/-- The signed overflow case: `-2^31` divided by `-1` (R219). -/
def divOverflows (a b : Word) : Bool := a == 0x80000000#32 && b == 0xffffffff#32

/-- An entry of `DIV_CORNERS` for a dividend (R219). -/
def cornerResult (c : Corner) (dividend : Word) : Word :=
  match c with
  | .value v => v
  | .dividend => dividend
  | .table entries otherwise => (entries.lookup dividend).getD otherwise

/-- DIV's result: the corners, else the quotient rounded toward zero (R214, R219). -/
def divSigned (d : DivCorners) (a b : Word) : Word :=
  if b = 0#32 then cornerResult d.divZero a
  else if divOverflows a b then cornerResult d.divOverflow a
  else BitVec.ofInt 32 (a.toInt.tdiv b.toInt)

/-- DIVU's result: the corner, else the quotient rounded down (R215, R219). -/
def divUnsigned (d : DivCorners) (a b : Word) : Word :=
  if b = 0#32 then cornerResult d.divuZero a else BitVec.ofNat 32 (a.toNat / b.toNat)

/-- REM's result: the corners, else `signed(src1) - signed(src2) * trunc(signed(src1) / signed(src2))` (R216, R219). -/
def remSigned (d : DivCorners) (a b : Word) : Word :=
  if b = 0#32 then cornerResult d.remZero a
  else if divOverflows a b then cornerResult d.remOverflow a
  else BitVec.ofInt 32 (a.toInt - b.toInt * a.toInt.tdiv b.toInt)

/-- REMU's result: the corner, else `unsigned(src1) mod unsigned(src2)` (R217, R219). -/
def remUnsigned (d : DivCorners) (a b : Word) : Word :=
  if b = 0#32 then cornerResult d.remuZero a else BitVec.ofNat 32 (a.toNat % b.toNat)

/-- R210 MUL: `x[rd] <- (src1 * src2)[31:0]`, the same for either reading of the operands. -/
def execMul (rd rs1 rs2 : RegId) (s : State) : Result :=
  s.writeNext rd (lowWord (((s.reg rs1).toNat : Int) * ((s.reg rs2).toNat : Int)))

/-- R211 MULH: `x[rd] <- (signed(src1) * signed(src2))[63:32]`. -/
def execMulh (rd rs1 rs2 : RegId) (s : State) : Result :=
  s.writeNext rd (highWord ((s.reg rs1).toInt * (s.reg rs2).toInt))

/-- R212 MULHSU: `x[rd] <- (signed(src1) * unsigned(src2))[63:32]`. -/
def execMulhsu (rd rs1 rs2 : RegId) (s : State) : Result :=
  s.writeNext rd (highWord ((s.reg rs1).toInt * ((s.reg rs2).toNat : Int)))

/-- R213 MULHU: `x[rd] <- (unsigned(src1) * unsigned(src2))[63:32]`. -/
def execMulhu (rd rs1 rs2 : RegId) (s : State) : Result :=
  s.writeNext rd (highWord (((s.reg rs1).toNat : Int) * ((s.reg rs2).toNat : Int)))

/-- R214 DIV: signed division, rounded toward zero. -/
def execDiv (rd rs1 rs2 : RegId) (s : State) : Result :=
  s.writeNext rd (divSigned s.cfg.divCorners (s.reg rs1) (s.reg rs2))

/-- R215 DIVU: unsigned division. -/
def execDivu (rd rs1 rs2 : RegId) (s : State) : Result :=
  s.writeNext rd (divUnsigned s.cfg.divCorners (s.reg rs1) (s.reg rs2))

/-- R216 REM: signed remainder, of the sign of the dividend. -/
def execRem (rd rs1 rs2 : RegId) (s : State) : Result :=
  s.writeNext rd (remSigned s.cfg.divCorners (s.reg rs1) (s.reg rs2))

/-- R217 REMU: unsigned remainder. -/
def execRemu (rd rs1 rs2 : RegId) (s : State) : Result :=
  s.writeNext rd (remUnsigned s.cfg.divCorners (s.reg rs1) (s.reg rs2))

end Sys2Proof.Machine
end

