-- ==== Sys2Proof/Machine/System.lean ====
section
/-! DEFINITION. The CSR, system-call, breakpoint, trap-return and invalid instructions (46_system.md R230 to R236). -/

namespace Sys2Proof.Machine

/-- The shared shape of the CSR instructions: the address is checked first; then the old value is read, the new one
written, and the old one goes to `x[rd]` (R230, R231, D26). An address that names no CSR is `Fatal(CsrError, addr)`
and nothing is written (10_state.md R34). -/
def State.csrUpdate (s : State) (rd : RegId) (a : CsrAddr) (new : Word → Word) : Result :=
  match csrAt s.cfg a with
  | some k => .next (((s.setCsr k (new (s.csr k))).setReg rd (s.csr k)).commit s.snpc)
  | none => .next (s.abort ⟨.csrError, a.setWidth 32⟩)

/-- R230 CSRRW: `t <- csr[csr_addr]; csr[csr_addr] <- src1; x[rd] <- t`. -/
def execCsrrw (rd rs1 : RegId) (csr : CsrAddr) (s : State) : Result :=
  s.csrUpdate rd csr (fun _ => s.reg rs1)

/-- R231 CSRRS: `t <- csr[csr_addr]; csr[csr_addr] <- t OR src1; x[rd] <- t`. -/
def execCsrrs (rd rs1 : RegId) (csr : CsrAddr) (s : State) : Result :=
  s.csrUpdate rd csr (fun t => t ||| s.reg rs1)

/-- R232 ECALL: `dnpc <- Trap(CAUSE_ECALL)`. -/
def execEcall (s : State) : Result :=
  .next ((s.trap s.cfg.causeEcall).2.commit (s.trap s.cfg.causeEcall).1)

/-- R233 EBREAK: `if BREAK_TRAPS then dnpc <- Trap(CAUSE_BREAKPOINT); Stop()`. -/
def execEbreak (s : State) : Result :=
  if s.cfg.breakTraps then
    .next ((s.trap s.cfg.causeBreakpoint).2.commit (s.trap s.cfg.causeBreakpoint).1).stop
  else .next (s.commit s.snpc).stop

/-- R234 MRET: `dnpc <- mepc; trap_state <- NORMAL`. -/
def execMret (s : State) : Result :=
  .next (s.returnFromTrap.2.commit s.returnFromTrap.1)

/-- R235 `inv`: `raise Fatal(DecodeError, inst)`; no trap (C1). -/
def execInv (inst : Word) (s : State) : Result :=
  .next (s.abort ⟨.decodeError, inst⟩)

end Sys2Proof.Machine
end

