-- ==== Sys2Proof/Machine/Step.lean ====
section
/-! DEFINITION. One step of the machine (40_engine_cycle.md R110, R111). -/

namespace Sys2Proof.Machine

/-- Runs the instruction a word decodes to in the machine's table; an instruction that names a register the machine does
not have is refused (log 18). -/
def State.execWord (s : State) (inst : Word) : Result :=
  if registersExist s.cfg (decodeIn s.cfg.table inst) then exec (decodeIn s.cfg.table inst) s else .refused .noRegister

/-- `Step()` (R111): taken only in `RUNNING`. Fetch at the pc, match and extract, run the row's meaning (`execWord`); a
fatal error of the fetch ends the step like any other (R112, R121). -/
def step (s : State) : Host.Outcome State Fault Refusal :=
  if configOk s.cfg then
    match s.runState with
    | .aborted => .fault .aborted
    | .stopped => .refused .stopped
    | .running =>
      match s.begin.fetch with
      | .ok (inst, s') => s'.execWord inst
      | .error f => .next (s.begin.abort f)
  else .refused .badConfig

/-- `s` with an instruction placed where `step` fetches its next one, standing for the host's loader and its start of
the run (70_reset_and_hazards.md R292, 40_engine_cycle.md R123; log 7). Where the pc is outside the flat array no
byte can be placed, and memory stays as it is; a machine in `ABORTED` stays there (60_exceptions.md R269 (b)). -/
def State.withFetchWord (s : State) (nbits w : Nat) : State :=
  { s with
    mem := if resolve s.cfg s.pc 4 = some .flat then Memory.write s.mem s.pc.toNat (tableWord nbits w) 4 else s.mem
    runState := if s.runState = .aborted then .aborted else .running }

end Sys2Proof.Machine
end

