-- ==== Sys2Proof/Machine/Port.lean ====
section
/-! DEFINITION. What the host may do between steps (60_exceptions.md R269, 70_reset_and_hazards.md R290 to R294), as
functions on the state. `step` never does any of it. -/

namespace Sys2Proof.Machine

/-- Start or resume the run: `run_state <- RUNNING`, "only from STOPPED; never from ABORTED" (40_engine_cycle.md R123,
R269 (b)). From `RUNNING` there is nothing to do. -/
def State.resume (s : State) : Option State :=
  match s.runState with
  | .aborted => none
  | .stopped => some { s with runState := .running }
  | .running => some s

/-- The loop of `Run(n)` (R123): up to `n` steps, ending early when `run_state` leaves `RUNNING`; when the budget runs
out, `run_state <- STOPPED`. -/
def runLoop : Nat → State → Result
  | 0, s => .next s.stop
  | n + 1, s =>
    match step s with
    | .next t => if t.runState = .running then runLoop n t else .next t
    | .fault f => .fault f
    | .refused r => .refused r

/-- `Run(n)` for a finite `n` (R123, R269 (a)). -/
def State.run (s : State) (n : Nat) : Result :=
  match s.resume with
  | some t => runLoop n t
  | none => .fault .aborted

/-- Why a run ended (R123, 60_exceptions.md R262): the breakpoint instruction, the step budget, or a fatal error. -/
inductive RunEnd where
  | breakpoint
  | budget
  | fatal
deriving DecidableEq, Repr

/-- The end of a step that left `RUNNING`: `STOPPED` is the breakpoint instruction's `Stop()` (R262), `ABORTED` a fatal
error (R258). -/
def State.ended (s : State) : RunEnd := if s.runState = .aborted then .fatal else .breakpoint

/-- Why the loop of `Run(n)` ends; `none` where no step can be taken. -/
def loopEnd : Nat → State → Option RunEnd
  | 0, _ => some .budget
  | n + 1, s =>
    match step s with
    | .next t => if t.runState = .running then loopEnd n t else some t.ended
    | .fault _ => none
    | .refused _ => none

/-- Why `Run(n)` ends (R123). -/
def State.runEnd (s : State) (n : Nat) : Option RunEnd := s.resume.bind (loopEnd n)

/-- The loop of `Run(n)` with `n` unbounded (R123): steps until one leaves `RUNNING`. It holds of no last state when the
run goes on for ever: "termination of a program is a property to prove, not an assumption". -/
inductive ContinueLoop : State → RunEnd → State → Prop where
  /-- The step leaves `RUNNING`, and the loop returns. -/
  | last {s t : State} (h : step s = .next t) (ht : t.runState ≠ .running) : ContinueLoop s t.ended t
  /-- The step stays in `RUNNING`, and the loop goes on. -/
  | more {s t u : State} {e : RunEnd} (h : step s = .next t) (ht : t.runState = .running) (hu : ContinueLoop t e u) :
      ContinueLoop s e u

/-- "Continue" (R123): `Run(n)` with `n` unbounded ends in `t` because of `e`. -/
def State.Continue (s : State) (e : RunEnd) (t : State) : Prop := ∃ u, s.resume = some u ∧ ContinueLoop u e t

/-- `mem_write`, between steps: the validated interface through which the host's loader writes memory (R269 (d), R292).
An invalid address is refused, by the same resolution as a store's; the machine's state is then unchanged. -/
def State.hostWrite (s : State) (addr : Word) (n : Width) (v : Word) : Except Fatal State := s.memWrite addr n v

/-- `mem_read`, between steps: the validated interface through which the host reads memory (R269 (d)). -/
def State.hostRead (s : State) (addr : Word) (n : Width) : Except Fatal (Word × State) := s.memRead addr n

/-- The host's configuration write of `mtvec`, between reset and the first step (R293 (a)); refused afterwards (R269 (e),
U19). -/
def State.setTrapVector (s : State) (v : Word) : Option State :=
  if s.started then none else some { s with mtvec := v }

/-- `register_mmio`: append-only, before the first step (20_memory.md R52, R294); refused afterwards (R269 (e)). -/
def State.registerWindow (s : State) (w : Window) : Option State :=
  if s.started then none else some { s with cfg := { s.cfg with windows := s.cfg.windows ++ [w] } }

/-- Reset of this machine instance, the only way out of `ABORTED` (R290); the configuration stays (10_state.md R41).
DESIGN CHOICE (log 17): the flat array lists no written byte again, so each byte reads the free value of its address, the
same one as before its first write. R41 leaves the contents unspecified. DESIGN CHOICE (log 16): the history is empty and the
count of device reads 0 again, so the device reads that follow return the same free values, in order, as those after the first
reset; the spec relates them to nothing (20_memory.md R63). -/
def State.restart (s : State) : State := State.resetOf s.cfg

end Sys2Proof.Machine
end

