-- ==== Sys2Proof/Safety.lean ====
section
/-! DEFINITION. The vocabulary of the claims: the machine's invariant, what the spec fixes of the state after reset,
and what a step leaves unchanged. -/

namespace Sys2Proof.Machine

/-- The number of device reads in a history. -/
def readCount (es : List DeviceEvent) : Nat :=
  es.countP fun e => match e with
    | .read _ _ _ _ => true
    | .write _ _ _ _ => false

/-- What holds of the machine between steps: `x[0]` is 0 (10_state.md R22), there are `NREG` registers (R21), memory is canonical and lists only bytes of
the flat array (20_memory.md R51), a fault record is present exactly in `ABORTED` (R37, R38), and the draw counter
counts the device reads of the history (R63). -/
structure State.Inv (s : State) : Prop where
  zero : s.reg 0#5 = 0#32
  high : s.xHigh.length = s.cfg.nreg - 32
  memWf : Memory.wf s.mem = true
  memFlat : ∀ c ∈ s.mem, inFlat s.cfg c.1 = true
  faultIff : s.fault ≠ none ↔ s.runState = .aborted
  draws : s.draws = readCount s.events

/-- Every state that R41 allows right after reset: the values it states, every value it calls unspecified left free.
That no step has been taken yet is the model's own mark (log 12). -/
structure State.FreshReset (c : Config) (s : State) : Prop where
  cfg : s.cfg = c
  zero : s.reg 0#5 = 0#32
  pc : s.pc = c.resetPc
  trapState : s.trapState = .normal
  runState : s.runState = .stopped
  fault : s.fault = none
  started : s.started = false

/-- Every byte of memory reads the same. -/
def SameMemory (s t : State) : Prop := ∀ a, Memory.byte t.mem a = Memory.byte s.mem a

/-- Every CSR reads the same. -/
def SameCsrs (s t : State) : Prop := ∀ k, t.csr k = s.csr k

/-- The configuration, the trap state, the run state, the fault record, the device history and the mark that a step has
been taken are the same. -/
structure SameControl (s t : State) : Prop where
  cfg : t.cfg = s.cfg
  trapState : t.trapState = s.trapState
  runState : t.runState = s.runState
  fault : t.fault = s.fault
  events : t.events = s.events
  draws : t.draws = s.draws
  started : t.started = s.started

/-- Every general register is the same, those that no field can name among them. -/
def SameRegs (s t : State) : Prop := (∀ r, t.reg r = s.reg r) ∧ t.xHigh = s.xHigh

/-- Every general register but `x[0]` and `x[rd]` is the same; `x[rd]` holds `v` unless `rd` is `x0`; `x[0]` is 0. -/
def RegWritten (s t : State) (rd : RegId) (v : Word) : Prop :=
  (∀ r, t.reg r = if r = 0#5 then 0#32 else if r = rd then v else s.reg r) ∧ t.xHigh = s.xHigh

/-- No general register but `x[0]` is changed; `x[0]` is 0. -/
def RegsKept (s t : State) : Prop := (∀ r, t.reg r = if r = 0#5 then 0#32 else s.reg r) ∧ t.xHigh = s.xHigh

/-- The effect of an instruction that writes exactly `x[rd]` and sets the next pc: everything else is the same. -/
structure WritesReg (s t : State) (rd : RegId) (v target : Word) : Prop where
  regs : RegWritten s t rd v
  pc : t.pc = target
  mem : SameMemory s t
  csrs : SameCsrs s t
  control : SameControl s t

/-- The effect of an instruction that only sets the next pc. -/
structure OnlyJumps (s t : State) (target : Word) : Prop where
  regs : RegsKept s t
  pc : t.pc = target
  mem : SameMemory s t
  csrs : SameCsrs s t
  control : SameControl s t

/-- The effect of a fatal error: the fault record is `(cls, pc, info)` and the run state `ABORTED`, and every other
piece of state is as it was (40_engine_cycle.md R121). -/
structure Aborted (s t : State) (cls : FatalClass) (info : Word) : Prop where
  fault : t.fault = some ⟨cls, s.pc, info⟩
  runState : t.runState = .aborted
  regs : SameRegs s t
  pc : t.pc = s.pc
  mem : SameMemory s t
  csrs : SameCsrs s t
  trapState : t.trapState = s.trapState
  cfg : t.cfg = s.cfg
  events : t.events = s.events
  draws : t.draws = s.draws

/-- All `n` bytes from `addr` lie in the flat array (20_memory.md R51, R62). -/
def FlatAccess (c : Config) (addr : Word) (n : Nat) : Prop :=
  c.memBase.toNat ≤ addr.toNat ∧ addr.toNat + n ≤ flatEnd c ∧ 0 < n

/-- `w` is the first registered window that covers the address (20_memory.md R53: "The scan is in registration order and
the first window that contains `addr` takes the access"). -/
def FirstCovering (c : Config) (a : Nat) (w : Window) : Prop :=
  ∃ before after, c.windows = before ++ w :: after ∧ Window.covers w a = true ∧
    ∀ v ∈ before, Window.covers v a = false

/-- An access that a device window takes: its first byte is outside the flat array, and all its bytes are in the first
covering window, which has the callback the access needs (R52, R53, R62, R63). -/
def DeviceAccess (c : Config) (addr : Word) (n : Nat) (callback : Window → Bool) (w : Window) : Prop :=
  inFlat c addr.toNat = false ∧ FirstCovering c addr.toNat w ∧
    addr.toNat + n ≤ w.base.toNat + w.length ∧ callback w = true

/-- An access that is `MemoryBound`: it straddles the end of the flat array; or it starts outside it, and no window
covers it, or it straddles the end of the first that does, or that window lacks the callback (R54, R62, R63). -/
def OutOfBound (c : Config) (addr : Word) (n : Nat) (callback : Window → Bool) : Prop :=
  (inFlat c addr.toNat = true ∧ flatEnd c < addr.toNat + n) ∨
  (inFlat c addr.toNat = false ∧
    ((∀ w ∈ c.windows, Window.covers w addr.toNat = false) ∨
     ∃ w, FirstCovering c addr.toNat w ∧ (w.base.toNat + w.length < addr.toNat + n ∨ callback w = false)))

/-- The raw value of an access to the flat array: the byte at the lowest address is the least significant (R55, R56). -/
def rawFlat (s : State) (addr : Word) : Width → Word
  | .byte => (Memory.byte s.mem addr.toNat).setWidth 32
  | .half => (Memory.byte s.mem (addr.toNat + 1) ++ Memory.byte s.mem addr.toNat).setWidth 32
  | .word => Memory.byte s.mem (addr.toNat + 3) ++ Memory.byte s.mem (addr.toNat + 2) ++
      Memory.byte s.mem (addr.toNat + 1) ++ Memory.byte s.mem addr.toNat

/-- What a load does in each of the three cases of its access (44_load_store.md R198 (c), (f), (g), (h)). -/
def LoadEffect (i : Instr) (s : State) (rd : RegId) (addr : Word) (n : Width) (extend : Word → Word) : Prop :=
  (FlatAccess s.cfg addr n.bytes →
    ∃ t, exec i s = .next t ∧ WritesReg s t rd (extend (rawFlat s addr n)) (s.pc + 4#32)) ∧
  (OutOfBound s.cfg addr n.bytes Window.onRead →
    ∃ t, exec i s = .next t ∧ Aborted s t .memoryBound addr) ∧
  (∀ w, DeviceAccess s.cfg addr n.bytes Window.onRead w →
    ∃ t, exec i s = .next t ∧ RegWritten s t rd (extend (lowBytes (Config.deviceRead s.draws) n)) ∧
      t.pc = s.pc + 4#32 ∧ SameMemory s t ∧ SameCsrs s t ∧ t.cfg = s.cfg ∧ t.trapState = s.trapState ∧
      t.runState = s.runState ∧ t.fault = s.fault ∧ t.draws = s.draws + 1 ∧
      t.events = s.events ++ [.read w (addr - w.base) n (lowBytes (Config.deviceRead s.draws) n)])

/-- What a store of `v` does in each of the three cases of its access (R198 (d), (f), (g), (h)). -/
def StoreEffect (i : Instr) (s : State) (addr : Word) (n : Width) (v : Word) : Prop :=
  (FlatAccess s.cfg addr n.bytes →
    ∃ t, exec i s = .next t ∧
      (∀ a, Memory.byte t.mem a =
        if addr.toNat ≤ a ∧ a < addr.toNat + n.bytes then v.extractLsb' (8 * (a - addr.toNat)) 8
        else Memory.byte s.mem a) ∧
      RegsKept s t ∧ t.pc = s.pc + 4#32 ∧ SameCsrs s t ∧ SameControl s t) ∧
  (OutOfBound s.cfg addr n.bytes Window.onWrite →
    ∃ t, exec i s = .next t ∧ Aborted s t .memoryBound addr) ∧
  (∀ w, DeviceAccess s.cfg addr n.bytes Window.onWrite w →
    ∃ t, exec i s = .next t ∧ RegsKept s t ∧ t.pc = s.pc + 4#32 ∧ SameMemory s t ∧ SameCsrs s t ∧
      t.cfg = s.cfg ∧ t.trapState = s.trapState ∧ t.runState = s.runState ∧ t.fault = s.fault ∧
      t.draws = s.draws ∧ t.events = s.events ++ [.write w (addr - w.base) n v])

/-- The address parameter of a CSR (10_state.md R29). -/
def csrNamed (c : Config) : Csr → CsrAddr
  | .mstatus => c.csrStatus
  | .mtvec => c.csrTvec
  | .mepc => c.csrEpc
  | .mcause => c.csrCause

/-- What a CSR instruction does that writes `new old` to the CSR and `old` to `x[rd]`, and what it does at an address that
names no CSR (46_system.md R230, R231; 10_state.md R34). -/
def CsrEffect (i : CsrAddr → Instr) (s : State) (rd : RegId) (new : Word → Word) : Prop :=
  (∀ k, ∃ t, exec (i (csrNamed s.cfg k)) s = .next t ∧ RegWritten s t rd (s.csr k) ∧
    (∀ j, t.csr j = if j = k then new (s.csr k) else s.csr j) ∧
    t.pc = s.pc + 4#32 ∧ SameMemory s t ∧ SameControl s t) ∧
  (∀ a, (∀ k, a ≠ csrNamed s.cfg k) →
    ∃ t, exec (i a) s = .next t ∧ Aborted s t .csrError (a.setWidth 32))

/-- The instruction accesses memory besides its fetch (20_memory.md R50: the five loads and the three stores). -/
def isLoad : Instr → Bool
  | .lb .. | .lh .. | .lw .. | .lbu .. | .lhu .. => true
  | _ => false

/-- The three stores (R50). -/
def isStore : Instr → Bool
  | .sb .. | .sh .. | .sw .. => true
  | _ => false

/-- The condition under which a conditional branch is taken (43_control_transfer.md R172 to R177), and its offset. -/
def branchOf (s : State) : Instr → Option (Prop × BitVec 13)
  | .beq rs1 rs2 imm => some (s.reg rs1 = s.reg rs2, imm)
  | .bne rs1 rs2 imm => some (s.reg rs1 ≠ s.reg rs2, imm)
  | .blt rs1 rs2 imm => some ((s.reg rs1).toInt < (s.reg rs2).toInt, imm)
  | .bge rs1 rs2 imm => some ((s.reg rs2).toInt ≤ (s.reg rs1).toInt, imm)
  | .bltu rs1 rs2 imm => some ((s.reg rs1).toNat < (s.reg rs2).toNat, imm)
  | .bgeu rs1 rs2 imm => some ((s.reg rs2).toNat ≤ (s.reg rs1).toNat, imm)
  | _ => none

/-- The instruction overwrites `dnpc` in state `s` (10_state.md R26). -/
def OverridesPc (s : State) (i : Instr) : Prop :=
  (∃ rd imm, i = .jal rd imm) ∨ (∃ rd rs1 imm, i = .jalr rd rs1 imm) ∨
  (∃ c imm, branchOf s i = some (c, imm) ∧ c) ∨
  i = .ecall ∨ (i = .ebreak ∧ s.cfg.breakTraps = true) ∨ i = .mret

end Sys2Proof.Machine
end

