-- ==== Sys2Proof/Certificates/Slice0/Obligations.lean ====
section
/-! DEFINITION. The statements for the provers. Each docstring names the rules of spec/ it formalises; a statement about
every state holds in states no run reaches too, or says the invariant it needs. -/

open Sys2Proof Sys2Proof.Machine

/-! ## Encoding and decoding (30_encoding.md) -/

/-- R81, R82, R90, R97: decoding the word of a well-formed instruction gives it back with every operand, for all 51 rows
and every operand value the encoding admits. -/
def Obligations.DecodeOfEncodeIsTheInstruction : Prop :=
  ∀ i : Instr, i.wf = true → decode (encode i) = i

/-- R95, R100: every 32-bit word decodes to a well-formed instruction, and encoding that gives the word back, so no bit of
a word is ignored and no two instructions share a word. -/
def Obligations.EncodeOfDecodeIsTheWord : Prop :=
  ∀ w : Word, (decode w).wf = true ∧ encode (decode w) = w

/-- R98: every word that matches none of rows 1 to 50 matches row 51 and is an illegal instruction, whose action is
the fatal decode error with the pc of the word; a word that matches one of rows 1 to 50 is not. That the fatal error
is a next state is the model's form (log 1). -/
def Obligations.UnmatchedWordsAreIllegal : Prop :=
  ∀ w : Word,
    ((∀ r ∈ definedTable, r.test w = false) → decode w = .inv w ∧ rowInv.test w = true ∧
      ∀ s, ∃ t, exec (decode w) s = .next t ∧ Aborted s t .decodeError w) ∧
    ((∃ r ∈ definedTable, r.test w = true) → ∀ v, decode w ≠ .inv v)

/-- R96 (and R94, R95, C3): no word matches two of rows 1 to 50 of the default table, so exactly one entry is selected: the
one of rows 1 to 50 that matches, or the catch-all when none does. And in every table the model accepts (logs 9, 19), every
word selects a row that matches it, and no other row but the last matches it. -/
def Obligations.ExactlyOneRowIsSelected : Prop :=
  definedTable.length = 50 ∧
  definedTable.Pairwise (fun p q => ∀ w : Word, ¬ (p.test w = true ∧ q.test w = true)) ∧
  (∀ w : Word,
    (∀ r ∈ definedTable, r.test w = true → matchIn patternTable w = some r) ∧
    ((∀ r ∈ definedTable, r.test w = false) → matchIn patternTable w = some rowInv)) ∧
  tableOk patternTable = true ∧
  ∀ t : List Row, tableOk t = true → ∀ w : Word,
    ∃ r ∈ t, matchIn t w = some r ∧ r.test w = true ∧ ∀ q ∈ t.dropLast, q.test w = true → q = r

/-- R96: the order of the first 50 rows cannot be observed. -/
def Obligations.RowOrderCannotBeObserved : Prop :=
  ∀ rows : List Row, rows.Perm definedTable → ∀ w : Word, matchIn (rows ++ [rowInv]) w = matchIn patternTable w

/-- R92, R93: for every 32-character pattern, the compiled test `((inst >> shift) & mask) == key` is the test `(inst &
full_mask) == full_key`, and both say that the word agrees with the pattern at every fixed bit; the pattern of 32
wildcards, with shift 32, included. R93 marks the equality of the two tests as the spec's own derivation. -/
def Obligations.CompiledTestMatchesThePattern : Prop :=
  ∀ (p : Pattern) (inst : Word), p.length = 32 →
    (matchTest (BitVec.ofNat 32 (compilePattern p).1) (BitVec.ofNat 32 (compilePattern p).2.1) (compilePattern p).2.2 inst =
      (inst &&& BitVec.ofNat 32 (patternMask p) == BitVec.ofNat 32 (patternKey p))) ∧
    ((inst &&& BitVec.ofNat 32 (patternMask p) = BitVec.ofNat 32 (patternKey p)) ↔
      ∀ b, b < 32 →
        (p[31 - b]? = some .one → inst.getLsbD b = true) ∧ (p[31 - b]? = some .zero → inst.getLsbD b = false))

/-- R84, R85, R87, R88, R89: every immediate bit by bit. -/
def Obligations.ImmediatesBitByBit : Prop :=
  ∀ (w : Word) (i : Nat), i < 32 →
    (sext (immIOf w)).getLsbD i = (if i < 11 then w.getLsbD (i + 20) else w.getLsbD 31) ∧
    (sext (immSOf w)).getLsbD i =
      (if i < 5 then w.getLsbD (i + 7) else if i < 11 then w.getLsbD (i + 20) else w.getLsbD 31) ∧
    (sext (immBOf w)).getLsbD i =
      (if i = 0 then false else if i < 5 then w.getLsbD (i + 7) else if i < 11 then w.getLsbD (i + 20)
       else if i = 11 then w.getLsbD 7 else w.getLsbD 31) ∧
    (sext (immJOf w)).getLsbD i =
      (if i = 0 then false else if i < 11 then w.getLsbD (i + 20) else if i = 11 then w.getLsbD 20
       else if i < 20 then w.getLsbD i else w.getLsbD 31) ∧
    (upper (immUOf w)).getLsbD i = (if i < 12 then false else w.getLsbD i)

/-- R97, R98: words written out from the spec's encodings, one per family and one illegal word, decode to the
instructions they stand for (95_test_vectors.md section 2.2). -/
def Obligations.SpecWordsDecode : Prop :=
  decode 0x123452b7#32 = .lui 5#5 0x12345#20 ∧
  decode 0xfe208ce3#32 = .beq 1#5 2#5 0x1ff8#13 ∧
  decode 0x001000ef#32 = .jal 1#5 0x800#21 ∧
  decode 0xfff20183#32 = .lb 3#5 4#5 0xfff#12 ∧
  decode 0xfe320fa3#32 = .sb 4#5 3#5 0xfff#12 ∧
  decode 0x41f45393#32 = .srai 7#5 8#5 31#5 ∧
  decode 0x40b504b3#32 = .sub 9#5 10#5 11#5 ∧
  decode 0x02b524b3#32 = .mulhsu 9#5 10#5 11#5 ∧
  decode 0x30569673#32 = .csrrw 12#5 13#5 0x305#12 ∧
  decode 0x30200073#32 = .mret ∧
  decode 0x0ff0000f#32 = .inv 0x0ff0000f#32

/-! ## The step (40_engine_cycle.md) -/

/-- R111, R112, R80: in `RUNNING`, with an accepted configuration and four bytes at the pc in the flat array, the step is
the meaning of the instruction those bytes decode to in the machine's pattern table, whatever the low bits of the pc; around
it the step only marks that a step has been taken (log 12). Which configurations are accepted is the model's choice
(logs 3, 9, 19); with `NREG` below 32, which the default is not, an instruction that names a register the machine does not
have is refused (log 18). A row with the empty action, which 92_eei_decisions.md D16 says to add for fences, advances the
pc by 4 and changes nothing else (log 3). -/
def Obligations.StepRunsTheDecodedInstruction : Prop :=
  (∀ (s : State) (i : Instr), configOk s.cfg = true → s.runState = .running → FlatAccess s.cfg s.pc 4 →
    decodeBytesIn s.cfg.table [Memory.byte s.mem s.pc.toNat, Memory.byte s.mem (s.pc.toNat + 1),
      Memory.byte s.mem (s.pc.toNat + 2), Memory.byte s.mem (s.pc.toNat + 3)] = .ok (i, []) →
    (registersExist s.cfg i = true → step s = exec i s.begin) ∧
    (registersExist s.cfg i = false → step s = .refused .noRegister) ∧
    (32 ≤ s.cfg.nreg → registersExist s.cfg i = true)) ∧
  (∀ (s : State) (r : Row), configOk s.cfg = true → s.runState = .running → FlatAccess s.cfg s.pc 4 →
    matchIn s.cfg.table (rawFlat s s.pc .word) = some r → r.action = .empty →
    ∃ t, step s = .next t ∧ OnlyJumps s.begin t (s.pc + 4#32))

/-- R112, R54, R62, R63, R260: a fetch outside the flat array and every window (R54), or that straddles the end of its region
(R62), or from a window with no read callback (R63, D23), ends the step in `Fatal(MemoryBound, pc)`. That the error is a next
state is the model's form (log 1). -/
def Obligations.FetchOutOfBoundAborts : Prop :=
  ∀ s : State, configOk s.cfg = true → s.runState = .running → OutOfBound s.cfg s.pc 4 Window.onRead →
    ∃ t, step s = .next t ∧ Aborted s t .memoryBound s.pc

/-- R112, R63, D29: a fetch from a device window is one recorded device read, and the step runs the word that was read
(`execWord`: the meaning of what it decodes to in the machine's table). The value is a free value (log 6): this holds for
every one. -/
def Obligations.FetchFromDeviceRunsTheValueRead : Prop :=
  ∀ (s : State) (w : Window), configOk s.cfg = true → s.runState = .running →
    DeviceAccess s.cfg s.pc 4 Window.onRead w →
    step s = State.execWord
      { s with
        started := true
        draws := s.draws + 1
        events := s.events ++ [.read w (s.pc - w.base) .word (Config.deviceRead s.draws)] }
      (Config.deviceRead s.draws)

/-- R110, R37, R258, R95, U17: a step is taken only in `RUNNING`, and only with an accepted configuration; a table whose last
entry is not all wildcards is refused. In the model a step in `ABORTED` answers a fault, and a step in `STOPPED` or with a
refused configuration a refusal (logs 1, 7, 9: the names are the model's). -/
def Obligations.StepIsTakenOnlyWhenRunning : Prop :=
  (∀ s t : State, step s = .next t → s.runState = .running) ∧
  (∀ s : State, configOk s.cfg = true → s.runState = .aborted → step s = .fault .aborted) ∧
  (∀ s : State, configOk s.cfg = true → s.runState = .stopped → step s = .refused .stopped) ∧
  (∀ s : State, configOk s.cfg = false → step s = .refused .badConfig) ∧
  (∀ s : State, (∀ r, s.cfg.table.getLast? = some r → r.mask ≠ 0#32) → step s = .refused .badConfig)

/-- R110: every step in `RUNNING` completes, with one of three outcomes: committed, committed and stopped, or
aborted; the fault record is written exactly in the third. Accepted configurations: log 9; the abort as a next
state: log 1. With a smaller `NREG` see StepRunsTheDecodedInstruction (log 18). -/
def Obligations.EveryRunningStepCompletes : Prop :=
  ∀ s : State, configOk s.cfg = true → 32 ≤ s.cfg.nreg → s.runState = .running →
    ∃ t, step s = .next t ∧
      ((t.runState = .running ∧ t.fault = s.fault) ∨ (t.runState = .stopped ∧ t.fault = s.fault) ∨
       (t.runState = .aborted ∧ ∃ cls info, t.fault = some ⟨cls, s.pc, info⟩))

/-- R95, R115: every instruction, in every state, ends in a next state: none is refused, none faults. Fatal errors are
next states in the model (log 1). -/
def Obligations.EveryInstructionAnswersANextState : Prop :=
  ∀ (i : Instr) (s : State), ∃ t, exec i s = .next t

/-- R120: every committed step leaves `x[0] = 0`, whatever it was before; a step that ends in a fatal error writes no
register. -/
def Obligations.CommittedStepZeroesRegisterZero : Prop :=
  ∀ s t : State, step s = .next t →
    (t.runState ≠ .aborted → t.reg 0#5 = 0#32) ∧ (t.runState = .aborted → SameRegs s t)

/-- R121: a step that ends in a fatal error changes no architectural state but `run_state` and `fault`. (The device history
and its counter are no architectural state: a fetch from a device has happened.) -/
def Obligations.FatalStepChangesNothingElse : Prop :=
  ∀ s t : State, step s = .next t → t.runState = .aborted →
    (∃ cls info, t.fault = some ⟨cls, s.pc, info⟩) ∧ t.pc = s.pc ∧ SameRegs s t ∧ SameCsrs s t ∧
      t.trapState = s.trapState ∧ SameMemory s t ∧ t.cfg = s.cfg

/-! ## Invariants -/

/-- R21, R22, R37, R38, R51, R63: every step keeps the machine's invariant, from every state that meets it. The canonical
form and the history's counter are the model's fields (logs 5, 6). -/
def Obligations.StepKeepsTheInvariant : Prop :=
  ∀ s t : State, s.Inv → step s = .next t → t.Inv

/-- R41, R291: the state after reset holds the values the spec states, and meets the invariant, for every configuration;
with R5's defaults the pc is 0x80000000; the host's start makes it `RUNNING` and changes nothing else.
The mark `started` in `FreshReset`, false, is the model's own (log 12). -/
def Obligations.ResetStateIsFreshAndMeetsTheInvariant : Prop :=
  (∀ c, (State.resetOf c).FreshReset c ∧ (State.resetOf c).Inv) ∧
  State.reset.pc = 0x80000000#32 ∧ State.reset.runState = .stopped ∧
  (∀ c s, State.FreshReset c s → s.resume = some { s with runState := .running })

/-- R40, R52, R269: what the host does between steps keeps the invariant. The host's actions are functions of the
model beside `step` (log 12). -/
def Obligations.HostActionsKeepTheInvariant : Prop :=
  ∀ s : State, s.Inv →
    (∀ t, s.resume = some t → t.Inv) ∧
    (∀ addr n v t, s.hostWrite addr n v = .ok t → t.Inv) ∧
    (∀ addr n v t, s.hostRead addr n = .ok (v, t) → t.Inv) ∧
    (∀ v t, s.setTrapVector v = some t → t.Inv) ∧ (∀ w t, s.registerWindow w = some t → t.Inv) ∧ s.restart.Inv

/-- R123 with R21, R22, R37, R38, R51, R63: a whole run of any length keeps the invariant, by induction on its steps
(StepKeepsTheInvariant). The canonical form and the counter in the invariant are the model's fields (logs 5, 6). -/
def Obligations.RunKeepsTheInvariant : Prop :=
  ∀ (n : Nat) (s t : State), s.Inv → s.run n = .next t → t.Inv

/-- R40, R294, R269 (e), U19: no step and no run changes the configuration; before the first step the host may append a
window and set `mtvec`, and once a step has been taken both are refused. That State carries the parameters, and the mark that
a step has been taken, is the model's choice (logs 2, 12). -/
def Obligations.ConfigurationIsImmutable : Prop :=
  (∀ s t : State, step s = .next t → t.cfg = s.cfg ∧ t.started = true) ∧
  (∀ (n : Nat) (s t : State), s.run n = .next t → t.cfg = s.cfg ∧ (s.started = true → t.started = true)) ∧
  (∀ s : State, s.started = true → (∀ w, s.registerWindow w = none) ∧ (∀ v, s.setTrapVector v = none)) ∧
  (∀ s : State, s.started = false →
    (∀ w, s.registerWindow w = some { s with cfg := { s.cfg with windows := s.cfg.windows ++ [w] } }) ∧
    (∀ v, s.setTrapVector v = some { s with mtvec := v }))

/-! ## Rules of the whole machine -/

/-- R30 to R33, R236 (e), R252: `mstatus` and `mtvec` change only by a CSR instruction that names them; `mepc` and
`mcause` only by one that names them or by trap entry. -/
def Obligations.CsrsChangeOnlyAsNamed : Prop :=
  ∀ (i : Instr) (s t : State) (k : Csr), exec i s = .next t → t.csr k ≠ s.csr k →
    (∃ rd rs1, i = .csrrw rd rs1 (csrNamed s.cfg k) ∨ i = .csrrs rd rs1 (csrNamed s.cfg k)) ∨
    ((k = .mepc ∨ k = .mcause) ∧ (i = .ecall ∨ (i = .ebreak ∧ s.cfg.breakTraps = true)))

/-- R256: the trap state machine, row by row: trap entry from either state, trap return from either state, everything else
(a CSR write and a fatal error included), and reset. -/
def Obligations.TrapStateMachine : Prop :=
  (∀ s : State, ∃ t, exec .ecall s = .next t ∧ t.trapState = .trapped ∧ t.mepc = s.pc ∧
    t.mcause = s.cfg.causeEcall ∧ t.pc = s.mtvec) ∧
  (∀ s : State, s.cfg.breakTraps = true → ∃ t, exec .ebreak s = .next t ∧ t.trapState = .trapped ∧ t.mepc = s.pc ∧
    t.mcause = s.cfg.causeBreakpoint ∧ t.pc = s.mtvec) ∧
  (∀ s : State, ∃ t, exec .mret s = .next t ∧ t.trapState = .normal ∧ t.pc = s.mepc) ∧
  (∀ (i : Instr) (s t : State), exec i s = .next t → i ≠ .ecall → i ≠ .mret →
    ¬ (i = .ebreak ∧ s.cfg.breakTraps = true) → t.trapState = s.trapState) ∧
  (∀ s t : State, step s = .next t → t.runState = .aborted → t.trapState = s.trapState) ∧
  (∀ s : State, s.restart.trapState = .normal)

/-- R50: only the three stores change memory, and only loads and stores reach a device. -/
def Obligations.OnlyLoadsAndStoresTouchMemory : Prop :=
  ∀ (i : Instr) (s t : State), exec i s = .next t →
    (isStore i = false → t.mem = s.mem) ∧
    (isStore i = false → isLoad i = false → t.events = s.events ∧ t.draws = s.draws)

/-- R23: an instruction writes no general register but its destination (and `x[0]`, at commit); formats S, B and N write
none, and no instruction writes a register that no field can name (log 18). -/
def Obligations.OnlyTheDestinationIsWritten : Prop :=
  ∀ (i : Instr) (s t : State), exec i s = .next t →
    (∀ r, r ≠ 0#5 → destination i ≠ some r → t.reg r = s.reg r) ∧ t.xHigh = s.xHigh

/-- R26: how the pc advances: a fatal error leaves it; every instruction that does not overwrite `dnpc` leaves it at
`pc + 4` modulo `2^32`. -/
def Obligations.PcAdvancesByFour : Prop :=
  ∀ (i : Instr) (s t : State), exec i s = .next t → s.runState = .running →
    (t.runState = .aborted → t.pc = s.pc) ∧
    (t.runState ≠ .aborted → ¬ OverridesPc s i → t.pc = s.pc + 4#32)

/-- R36: no result depends on `trap_state`: two machines that differ in nothing else take steps that differ in nothing
else. -/
def Obligations.TrapStateIsNeverRead : Prop :=
  ∀ (s t : State) (q : TrapState), step s = .next t →
    ∃ u, step { s with trapState := q } = .next u ∧ { u with trapState := t.trapState } = t

/-- R30: no instruction reads `mstatus` but a CSR instruction that names it: with another value in it, everything else of
the result is the same and the value stays. -/
def Obligations.StatusIsReadOnlyByName : Prop :=
  ∀ (i : Instr) (s t : State) (v : Word), exec i s = .next t →
    (∀ rd rs1, i ≠ .csrrw rd rs1 s.cfg.csrStatus ∧ i ≠ .csrrs rd rs1 s.cfg.csrStatus) →
    exec i { s with mstatus := v } = .next { t with mstatus := v }

/-- R90: an instruction reads no general register but its sources: another value in one it does not name changes nothing
but that register. -/
def Obligations.OnlyTheSourcesAreRead : Prop :=
  ∀ (i : Instr) (s t : State) (r : RegId) (v : Word), exec i s = .next t → r ∉ sources i →
    ∃ u, exec i (s.setReg r v) = .next u ∧ (∀ q, q ≠ r → u.reg q = t.reg q) ∧ u.xHigh = t.xHigh ∧ u.pc = t.pc ∧
      u.mem = t.mem ∧ SameCsrs t u ∧ SameControl t u

/-! ## Integer register-immediate (41_integer_immediate.md) -/

/-- R130, R131, R132, R141: ADDI, SLTI, SLTIU: encoding, result, and that nothing else changes. -/
def Obligations.AddAndCompareImmediate : Prop :=
  ∀ (rd rs1 : RegId) (imm : BitVec 12) (s : State),
    decode (imm ++ rs1 ++ 0b000#3 ++ rd ++ 0b0010011#7) = .addi rd rs1 imm ∧
    (∃ t, exec (.addi rd rs1 imm) s = .next t ∧
      WritesReg s t rd (BitVec.ofNat 32 ((s.reg rs1).toNat + (imm.signExtend 32).toNat)) (s.pc + 4#32)) ∧
    decode (imm ++ rs1 ++ 0b010#3 ++ rd ++ 0b0010011#7) = .slti rd rs1 imm ∧
    (∃ t, exec (.slti rd rs1 imm) s = .next t ∧
      WritesReg s t rd (if (s.reg rs1).toInt < imm.toInt then 1#32 else 0#32) (s.pc + 4#32)) ∧
    decode (imm ++ rs1 ++ 0b011#3 ++ rd ++ 0b0010011#7) = .sltiu rd rs1 imm ∧
    (∃ t, exec (.sltiu rd rs1 imm) s = .next t ∧
      WritesReg s t rd (if (s.reg rs1).toNat < (imm.signExtend 32).toNat then 1#32 else 0#32) (s.pc + 4#32))

/-- R133, R134, R135, R141: XORI, ORI, ANDI, bit by bit, the immediate sign-extended. -/
def Obligations.LogicImmediate : Prop :=
  ∀ (rd rs1 : RegId) (imm : BitVec 12) (s : State),
    decode (imm ++ rs1 ++ 0b100#3 ++ rd ++ 0b0010011#7) = .xori rd rs1 imm ∧
    (∃ t v, exec (.xori rd rs1 imm) s = .next t ∧ WritesReg s t rd v (s.pc + 4#32) ∧
      ∀ i, i < 32 → v.getLsbD i = ((s.reg rs1).getLsbD i ^^ imm.getLsbD (min i 11))) ∧
    decode (imm ++ rs1 ++ 0b110#3 ++ rd ++ 0b0010011#7) = .ori rd rs1 imm ∧
    (∃ t v, exec (.ori rd rs1 imm) s = .next t ∧ WritesReg s t rd v (s.pc + 4#32) ∧
      ∀ i, i < 32 → v.getLsbD i = ((s.reg rs1).getLsbD i || imm.getLsbD (min i 11))) ∧
    decode (imm ++ rs1 ++ 0b111#3 ++ rd ++ 0b0010011#7) = .andi rd rs1 imm ∧
    (∃ t v, exec (.andi rd rs1 imm) s = .next t ∧ WritesReg s t rd v (s.pc + 4#32) ∧
      ∀ i, i < 32 → v.getLsbD i = ((s.reg rs1).getLsbD i && imm.getLsbD (min i 11)))

/-- R136, R137, R138, R141: SLLI, SRLI, SRAI: SLLI multiplies by `2^shamt` modulo `2^32`, SRLI divides the unsigned value,
SRAI the signed one, rounding toward minus infinity. -/
def Obligations.ShiftImmediate : Prop :=
  ∀ (rd rs1 : RegId) (shamt : BitVec 5) (s : State),
    decode (0b0000000#7 ++ shamt ++ rs1 ++ 0b001#3 ++ rd ++ 0b0010011#7) = .slli rd rs1 shamt ∧
    (∃ t v, exec (.slli rd rs1 shamt) s = .next t ∧ WritesReg s t rd v (s.pc + 4#32) ∧
      v.toNat = (s.reg rs1).toNat * 2 ^ shamt.toNat % 2 ^ 32) ∧
    decode (0b0000000#7 ++ shamt ++ rs1 ++ 0b101#3 ++ rd ++ 0b0010011#7) = .srli rd rs1 shamt ∧
    (∃ t v, exec (.srli rd rs1 shamt) s = .next t ∧ WritesReg s t rd v (s.pc + 4#32) ∧
      v.toNat = (s.reg rs1).toNat / 2 ^ shamt.toNat) ∧
    decode (0b0100000#7 ++ shamt ++ rs1 ++ 0b101#3 ++ rd ++ 0b0010011#7) = .srai rd rs1 shamt ∧
    (∃ t v, exec (.srai rd rs1 shamt) s = .next t ∧ WritesReg s t rd v (s.pc + 4#32) ∧
      v.toInt = (s.reg rs1).toInt / 2 ^ shamt.toNat)

/-- R139, R140, R141: LUI, AUIPC: the upper immediate, alone or added to the instruction's own pc modulo `2^32`. -/
def Obligations.UpperImmediate : Prop :=
  ∀ (rd : RegId) (imm : BitVec 20) (s : State),
    decode (imm ++ rd ++ 0b0110111#7) = .lui rd imm ∧
    (∃ t v, exec (.lui rd imm) s = .next t ∧ WritesReg s t rd v (s.pc + 4#32) ∧ v.toNat = imm.toNat * 2 ^ 12) ∧
    decode (imm ++ rd ++ 0b0010111#7) = .auipc rd imm ∧
    (∃ t v, exec (.auipc rd imm) s = .next t ∧ WritesReg s t rd v (s.pc + 4#32) ∧
      v.toNat = (s.pc.toNat + imm.toNat * 2 ^ 12) % 2 ^ 32)

/-! ## Integer register-register (42_integer_register.md) -/

/-- R150, R151, R153, R154, R160: ADD, SUB, SLT, SLTU. -/
def Obligations.AddSubtractAndCompare : Prop :=
  ∀ (rd rs1 rs2 : RegId) (s : State),
    decode (0b0000000#7 ++ rs2 ++ rs1 ++ 0b000#3 ++ rd ++ 0b0110011#7) = .add rd rs1 rs2 ∧
    (∃ t v, exec (.add rd rs1 rs2) s = .next t ∧ WritesReg s t rd v (s.pc + 4#32) ∧
      v.toNat = ((s.reg rs1).toNat + (s.reg rs2).toNat) % 2 ^ 32) ∧
    decode (0b0100000#7 ++ rs2 ++ rs1 ++ 0b000#3 ++ rd ++ 0b0110011#7) = .sub rd rs1 rs2 ∧
    (∃ t v, exec (.sub rd rs1 rs2) s = .next t ∧ WritesReg s t rd v (s.pc + 4#32) ∧
      (v.toNat : Int) = ((s.reg rs1).toNat - (s.reg rs2).toNat : Int) % 2 ^ 32) ∧
    decode (0b0000000#7 ++ rs2 ++ rs1 ++ 0b010#3 ++ rd ++ 0b0110011#7) = .slt rd rs1 rs2 ∧
    (∃ t, exec (.slt rd rs1 rs2) s = .next t ∧
      WritesReg s t rd (if (s.reg rs1).toInt < (s.reg rs2).toInt then 1#32 else 0#32) (s.pc + 4#32)) ∧
    decode (0b0000000#7 ++ rs2 ++ rs1 ++ 0b011#3 ++ rd ++ 0b0110011#7) = .sltu rd rs1 rs2 ∧
    (∃ t, exec (.sltu rd rs1 rs2) s = .next t ∧
      WritesReg s t rd (if (s.reg rs1).toNat < (s.reg rs2).toNat then 1#32 else 0#32) (s.pc + 4#32))

/-- R155, R158, R159, R160: XOR, OR, AND, bit by bit. -/
def Obligations.LogicRegister : Prop :=
  ∀ (rd rs1 rs2 : RegId) (s : State),
    decode (0b0000000#7 ++ rs2 ++ rs1 ++ 0b100#3 ++ rd ++ 0b0110011#7) = .xor rd rs1 rs2 ∧
    (∃ t v, exec (.xor rd rs1 rs2) s = .next t ∧ WritesReg s t rd v (s.pc + 4#32) ∧
      ∀ i, i < 32 → v.getLsbD i = ((s.reg rs1).getLsbD i ^^ (s.reg rs2).getLsbD i)) ∧
    decode (0b0000000#7 ++ rs2 ++ rs1 ++ 0b110#3 ++ rd ++ 0b0110011#7) = .or rd rs1 rs2 ∧
    (∃ t v, exec (.or rd rs1 rs2) s = .next t ∧ WritesReg s t rd v (s.pc + 4#32) ∧
      ∀ i, i < 32 → v.getLsbD i = ((s.reg rs1).getLsbD i || (s.reg rs2).getLsbD i)) ∧
    decode (0b0000000#7 ++ rs2 ++ rs1 ++ 0b111#3 ++ rd ++ 0b0110011#7) = .and rd rs1 rs2 ∧
    (∃ t v, exec (.and rd rs1 rs2) s = .next t ∧ WritesReg s t rd v (s.pc + 4#32) ∧
      ∀ i, i < 32 → v.getLsbD i = ((s.reg rs1).getLsbD i && (s.reg rs2).getLsbD i))

/-- R152, R156, R157, R160: SLL, SRL, SRA: the amount is `src2` modulo 32. -/
def Obligations.ShiftRegister : Prop :=
  ∀ (rd rs1 rs2 : RegId) (s : State),
    decode (0b0000000#7 ++ rs2 ++ rs1 ++ 0b001#3 ++ rd ++ 0b0110011#7) = .sll rd rs1 rs2 ∧
    (∃ t v, exec (.sll rd rs1 rs2) s = .next t ∧ WritesReg s t rd v (s.pc + 4#32) ∧
      v.toNat = (s.reg rs1).toNat * 2 ^ ((s.reg rs2).toNat % 32) % 2 ^ 32) ∧
    decode (0b0000000#7 ++ rs2 ++ rs1 ++ 0b101#3 ++ rd ++ 0b0110011#7) = .srl rd rs1 rs2 ∧
    (∃ t v, exec (.srl rd rs1 rs2) s = .next t ∧ WritesReg s t rd v (s.pc + 4#32) ∧
      v.toNat = (s.reg rs1).toNat / 2 ^ ((s.reg rs2).toNat % 32)) ∧
    decode (0b0100000#7 ++ rs2 ++ rs1 ++ 0b101#3 ++ rd ++ 0b0110011#7) = .sra rd rs1 rs2 ∧
    (∃ t v, exec (.sra rd rs1 rs2) s = .next t ∧ WritesReg s t rd v (s.pc + 4#32) ∧
      v.toInt = (s.reg rs1).toInt / 2 ^ ((s.reg rs2).toNat % 32))

/-! ## Control transfer (43_control_transfer.md) -/

/-- R170, R171, R178: JAL and JALR: the link value is `pc + 4`, JAL's target relative to its own pc, JALR's from the old
value of `x[rs1]` with bit 0 of the sum cleared. -/
def Obligations.JumpAndLink : Prop :=
  (∀ (rd : RegId) (imm : BitVec 21), imm.getLsbD 0 = false →
    decode (imm.extractLsb' 20 1 ++ imm.extractLsb' 1 10 ++ imm.extractLsb' 11 1 ++ imm.extractLsb' 12 8 ++ rd ++
      0b1101111#7) = .jal rd imm) ∧
  (∀ (rd : RegId) (imm : BitVec 21) (s : State),
    ∃ t, exec (.jal rd imm) s = .next t ∧ WritesReg s t rd (s.pc + 4#32) (s.pc + imm.signExtend 32)) ∧
  (∀ (rd rs1 : RegId) (imm : BitVec 12) (s : State),
    decode (imm ++ rs1 ++ 0b000#3 ++ rd ++ 0b1100111#7) = .jalr rd rs1 imm ∧
    ∃ t target, exec (.jalr rd rs1 imm) s = .next t ∧ WritesReg s t rd (s.pc + 4#32) target ∧
      target.toNat = 2 * ((s.reg rs1 + imm.signExtend 32).toNat / 2))

/-- R172 to R178: the six branches: encoding, condition, target, and that they write no register and touch nothing but
the pc. -/
def Obligations.ConditionalBranches : Prop :=
  ∀ (rs1 rs2 : RegId) (imm : BitVec 13) (s : State),
    (imm.getLsbD 0 = false →
      ∀ (f3 : BitVec 3) (i : Instr),
        (f3, i) ∈ [(0b000#3, .beq rs1 rs2 imm), (0b001#3, .bne rs1 rs2 imm), (0b100#3, .blt rs1 rs2 imm),
          (0b101#3, .bge rs1 rs2 imm), (0b110#3, .bltu rs1 rs2 imm), (0b111#3, .bgeu rs1 rs2 imm)] →
        decode (imm.extractLsb' 12 1 ++ imm.extractLsb' 5 6 ++ rs2 ++ rs1 ++ f3 ++ imm.extractLsb' 1 4 ++
          imm.extractLsb' 11 1 ++ 0b1100011#7) = i) ∧
    (∃ t, exec (.beq rs1 rs2 imm) s = .next t ∧
      OnlyJumps s t (s.pc + if s.reg rs1 = s.reg rs2 then imm.signExtend 32 else 4#32)) ∧
    (∃ t, exec (.bne rs1 rs2 imm) s = .next t ∧
      OnlyJumps s t (s.pc + if s.reg rs1 ≠ s.reg rs2 then imm.signExtend 32 else 4#32)) ∧
    (∃ t, exec (.blt rs1 rs2 imm) s = .next t ∧
      OnlyJumps s t (s.pc + if (s.reg rs1).toInt < (s.reg rs2).toInt then imm.signExtend 32 else 4#32)) ∧
    (∃ t, exec (.bge rs1 rs2 imm) s = .next t ∧
      OnlyJumps s t (s.pc + if (s.reg rs2).toInt ≤ (s.reg rs1).toInt then imm.signExtend 32 else 4#32)) ∧
    (∃ t, exec (.bltu rs1 rs2 imm) s = .next t ∧
      OnlyJumps s t (s.pc + if (s.reg rs1).toNat < (s.reg rs2).toNat then imm.signExtend 32 else 4#32)) ∧
    (∃ t, exec (.bgeu rs1 rs2 imm) s = .next t ∧
      OnlyJumps s t (s.pc + if (s.reg rs2).toNat ≤ (s.reg rs1).toNat then imm.signExtend 32 else 4#32))

/-! ## Loads and stores (44_load_store.md, 20_memory.md) -/

/-- R190, R193, R198, R63: LB and LBU: encoding, and the effect in the flat array, out of bound and at a device. The
value read from a device is the free value of log 6 (R63: a draw). The out-of-bound error as a next state is log 1. -/
def Obligations.ByteLoads : Prop :=
  ∀ (rd rs1 : RegId) (imm : BitVec 12) (s : State),
    decode (imm ++ rs1 ++ 0b000#3 ++ rd ++ 0b0000011#7) = .lb rd rs1 imm ∧
    LoadEffect (.lb rd rs1 imm) s rd (s.reg rs1 + imm.signExtend 32) .byte (fun v => (v.setWidth 8).signExtend 32) ∧
    decode (imm ++ rs1 ++ 0b100#3 ++ rd ++ 0b0000011#7) = .lbu rd rs1 imm ∧
    LoadEffect (.lbu rd rs1 imm) s rd (s.reg rs1 + imm.signExtend 32) .byte (fun v => v)

/-- R191, R194, R198, R63: LH and LHU, at any address. The value read from a device is the free value of log 6. The
out-of-bound error as a next state is log 1. -/
def Obligations.HalfwordLoads : Prop :=
  ∀ (rd rs1 : RegId) (imm : BitVec 12) (s : State),
    decode (imm ++ rs1 ++ 0b001#3 ++ rd ++ 0b0000011#7) = .lh rd rs1 imm ∧
    LoadEffect (.lh rd rs1 imm) s rd (s.reg rs1 + imm.signExtend 32) .half (fun v => (v.setWidth 16).signExtend 32) ∧
    decode (imm ++ rs1 ++ 0b101#3 ++ rd ++ 0b0000011#7) = .lhu rd rs1 imm ∧
    LoadEffect (.lhu rd rs1 imm) s rd (s.reg rs1 + imm.signExtend 32) .half (fun v => v)

/-- R192, R198, R63: LW, at any address. The value read from a device is the free value of log 6. The out-of-bound error
as a next state is log 1. -/
def Obligations.WordLoad : Prop :=
  ∀ (rd rs1 : RegId) (imm : BitVec 12) (s : State),
    decode (imm ++ rs1 ++ 0b010#3 ++ rd ++ 0b0000011#7) = .lw rd rs1 imm ∧
    LoadEffect (.lw rd rs1 imm) s rd (s.reg rs1 + imm.signExtend 32) .word (fun v => v)

/-- R195, R196, R197, R198, R63: SB, SH, SW: encoding, the bytes stored at `src1 + imm`, every other byte kept, and the
effect out of bound and at a device. The device history is R63's (log 6). The out-of-bound error as a next state is
log 1. The record holds all of the value, as the callback gets it (R57). -/
def Obligations.StoresWriteTheirBytesOnly : Prop :=
  ∀ (rs1 rs2 : RegId) (imm : BitVec 12) (s : State),
    decode (imm.extractLsb' 5 7 ++ rs2 ++ rs1 ++ 0b000#3 ++ imm.extractLsb' 0 5 ++ 0b0100011#7) = .sb rs1 rs2 imm ∧
    StoreEffect (.sb rs1 rs2 imm) s (s.reg rs1 + imm.signExtend 32) .byte (s.reg rs2) ∧
    decode (imm.extractLsb' 5 7 ++ rs2 ++ rs1 ++ 0b001#3 ++ imm.extractLsb' 0 5 ++ 0b0100011#7) = .sh rs1 rs2 imm ∧
    StoreEffect (.sh rs1 rs2 imm) s (s.reg rs1 + imm.signExtend 32) .half (s.reg rs2) ∧
    decode (imm.extractLsb' 5 7 ++ rs2 ++ rs1 ++ 0b010#3 ++ imm.extractLsb' 0 5 ++ 0b0100011#7) = .sw rs1 rs2 imm ∧
    StoreEffect (.sw rs1 rs2 imm) s (s.reg rs1 + imm.signExtend 32) .word (s.reg rs2)

/-- R53, R54, R62, R63: every access is exactly one of: in the flat array, taken by one device window, out of bound. -/
def Obligations.AccessesArePartitioned : Prop :=
  ∀ (c : Config) (addr : Word) (n : Nat) (callback : Window → Bool), 0 < n →
    (FlatAccess c addr n ∨ (∃ w, DeviceAccess c addr n callback w) ∨ OutOfBound c addr n callback) ∧
    ¬ (FlatAccess c addr n ∧ ∃ w, DeviceAccess c addr n callback w) ∧
    ¬ (FlatAccess c addr n ∧ OutOfBound c addr n callback) ∧
    ¬ ((∃ w, DeviceAccess c addr n callback w) ∧ OutOfBound c addr n callback) ∧
    (∀ v w, DeviceAccess c addr n callback v → DeviceAccess c addr n callback w → v = w)

/-- R58: the round-trip law, for accesses of 1, 2 and 4 bytes in the flat array: reading back what was written gives
the low `8n` bits of the value, and the read changes nothing. The widths are those the engine issues (log 13). -/
def Obligations.MemoryRoundTrip : Prop :=
  ∀ (s : State) (addr : Word) (n : Width) (v : Word), FlatAccess s.cfg addr n.bytes →
    ∃ t, s.memWrite addr n v = .ok t ∧
      t.memRead addr n = .ok (BitVec.ofNat 32 (v.toNat % 2 ^ (8 * n.bytes)), t)

/-- R55: a narrow read sees the bytes a wider write wrote, the byte at the lowest address the least significant. The
premise on the flat array's end is R5's, checked as log 9 says. -/
def Obligations.NarrowReadSeesWideWrite : Prop :=
  ∀ (s : State) (addr : Word) (v : Word), FlatAccess s.cfg addr 4 → flatEnd s.cfg ≤ 2 ^ 32 →
    ∃ t, s.memWrite addr .word v = .ok t ∧
      (∀ i, i < 4 → t.memRead (addr + BitVec.ofNat 32 i) .byte = .ok (BitVec.ofNat 32 (v.toNat / 2 ^ (8 * i) % 2 ^ 8), t)) ∧
      (∀ i, i < 3 → t.memRead (addr + BitVec.ofNat 32 i) .half = .ok (BitVec.ofNat 32 (v.toNat / 2 ^ (8 * i) % 2 ^ 16), t))

/-- R69: a word stored at the address of the next instruction is what the very next step runs (`execWord`: the meaning of
what it decodes to in the machine's table). -/
def Obligations.StoreIsSeenByTheNextFetch : Prop :=
  ∀ (s : State) (rs1 rs2 : RegId) (imm : BitVec 12), configOk s.cfg = true → s.runState = .running →
    s.reg rs1 + imm.signExtend 32 = s.pc + 4#32 → FlatAccess s.cfg (s.pc + 4#32) 4 →
    ∃ t, exec (.sw rs1 rs2 imm) s = .next t ∧ step t = t.begin.execWord (s.reg rs2)

/-! ## Multiply and divide (45_muldiv.md) -/

/-- R210, R211, R212, R213, R218: MUL is the product modulo `2^32`, for either reading of the operands; MULH, MULHSU and
MULHU are the exact product divided by `2^32`, rounding down. -/
def Obligations.Multiplication : Prop :=
  ∀ (rd rs1 rs2 : RegId) (s : State),
    decode (0b0000001#7 ++ rs2 ++ rs1 ++ 0b000#3 ++ rd ++ 0b0110011#7) = .mul rd rs1 rs2 ∧
    (∃ t v, exec (.mul rd rs1 rs2) s = .next t ∧ WritesReg s t rd v (s.pc + 4#32) ∧
      v.toNat = (s.reg rs1).toNat * (s.reg rs2).toNat % 2 ^ 32 ∧
      (v.toNat : Int) = (s.reg rs1).toInt * (s.reg rs2).toInt % 2 ^ 32) ∧
    decode (0b0000001#7 ++ rs2 ++ rs1 ++ 0b001#3 ++ rd ++ 0b0110011#7) = .mulh rd rs1 rs2 ∧
    (∃ t v, exec (.mulh rd rs1 rs2) s = .next t ∧ WritesReg s t rd v (s.pc + 4#32) ∧
      v.toInt = (s.reg rs1).toInt * (s.reg rs2).toInt / 2 ^ 32) ∧
    decode (0b0000001#7 ++ rs2 ++ rs1 ++ 0b010#3 ++ rd ++ 0b0110011#7) = .mulhsu rd rs1 rs2 ∧
    (∃ t v, exec (.mulhsu rd rs1 rs2) s = .next t ∧ WritesReg s t rd v (s.pc + 4#32) ∧
      v.toInt = (s.reg rs1).toInt * (s.reg rs2).toNat / 2 ^ 32) ∧
    decode (0b0000001#7 ++ rs2 ++ rs1 ++ 0b011#3 ++ rd ++ 0b0110011#7) = .mulhu rd rs1 rs2 ∧
    (∃ t v, exec (.mulhu rd rs1 rs2) s = .next t ∧ WritesReg s t rd v (s.pc + 4#32) ∧
      v.toNat = (s.reg rs1).toNat * (s.reg rs2).toNat / 2 ^ 32)

/-- R214, R216, R218, R219: DIV and REM for every operand pair, with the corners of `DIV_CORNERS`, whose defaults are
R219's; neither traps nor stops. -/
def Obligations.SignedDivision : Prop :=
  ∀ (rd rs1 rs2 : RegId) (s : State),
    s.cfg.divCorners = DivCorners.standard →
    decode (0b0000001#7 ++ rs2 ++ rs1 ++ 0b100#3 ++ rd ++ 0b0110011#7) = .div rd rs1 rs2 ∧
    (∃ t v, exec (.div rd rs1 rs2) s = .next t ∧ WritesReg s t rd v (s.pc + 4#32) ∧
      (if (s.reg rs2).toInt = 0 then v = 0xffffffff#32
       else if (s.reg rs1).toInt = -2 ^ 31 ∧ (s.reg rs2).toInt = -1 then v = 0x80000000#32
       else v.toInt = (s.reg rs1).toInt.tdiv (s.reg rs2).toInt)) ∧
    decode (0b0000001#7 ++ rs2 ++ rs1 ++ 0b110#3 ++ rd ++ 0b0110011#7) = .rem rd rs1 rs2 ∧
    (∃ t v, exec (.rem rd rs1 rs2) s = .next t ∧ WritesReg s t rd v (s.pc + 4#32) ∧
      (if (s.reg rs2).toInt = 0 then v = s.reg rs1
       else if (s.reg rs1).toInt = -2 ^ 31 ∧ (s.reg rs2).toInt = -1 then v = 0#32
       else v.toInt = (s.reg rs1).toInt - (s.reg rs2).toInt * (s.reg rs1).toInt.tdiv (s.reg rs2).toInt))

/-- R215, R217, R218, R219: DIVU and REMU for every operand pair. -/
def Obligations.UnsignedDivision : Prop :=
  ∀ (rd rs1 rs2 : RegId) (s : State),
    s.cfg.divCorners = DivCorners.standard →
    decode (0b0000001#7 ++ rs2 ++ rs1 ++ 0b101#3 ++ rd ++ 0b0110011#7) = .divu rd rs1 rs2 ∧
    (∃ t v, exec (.divu rd rs1 rs2) s = .next t ∧ WritesReg s t rd v (s.pc + 4#32) ∧
      (if (s.reg rs2).toNat = 0 then v = 0xffffffff#32 else v.toNat = (s.reg rs1).toNat / (s.reg rs2).toNat)) ∧
    decode (0b0000001#7 ++ rs2 ++ rs1 ++ 0b111#3 ++ rd ++ 0b0110011#7) = .remu rd rs1 rs2 ∧
    (∃ t v, exec (.remu rd rs1 rs2) s = .next t ∧ WritesReg s t rd v (s.pc + 4#32) ∧
      (if (s.reg rs2).toNat = 0 then v = s.reg rs1 else v.toNat = (s.reg rs1).toNat % (s.reg rs2).toNat))

/-- R5, R219: with any `DIV_CORNERS` the four instructions complete, and give its entry for a zero divisor and for
the signed overflow. An entry is any function of the dividend, held as plain data (log 11). -/
def Obligations.DivisionCornersAreTheParameter : Prop :=
  ∀ (rd rs1 rs2 : RegId) (s : State),
    ((s.reg rs2 = 0#32 →
      (∃ t, exec (.div rd rs1 rs2) s = .next t ∧
        WritesReg s t rd (cornerResult s.cfg.divCorners.divZero (s.reg rs1)) (s.pc + 4#32)) ∧
      (∃ t, exec (.divu rd rs1 rs2) s = .next t ∧
        WritesReg s t rd (cornerResult s.cfg.divCorners.divuZero (s.reg rs1)) (s.pc + 4#32)) ∧
      (∃ t, exec (.rem rd rs1 rs2) s = .next t ∧
        WritesReg s t rd (cornerResult s.cfg.divCorners.remZero (s.reg rs1)) (s.pc + 4#32)) ∧
      (∃ t, exec (.remu rd rs1 rs2) s = .next t ∧
        WritesReg s t rd (cornerResult s.cfg.divCorners.remuZero (s.reg rs1)) (s.pc + 4#32))) ∧
    (s.reg rs1 = 0x80000000#32 → s.reg rs2 = 0xffffffff#32 →
      (∃ t, exec (.div rd rs1 rs2) s = .next t ∧
        WritesReg s t rd (cornerResult s.cfg.divCorners.divOverflow (s.reg rs1)) (s.pc + 4#32)) ∧
      (∃ t, exec (.rem rd rs1 rs2) s = .next t ∧
        WritesReg s t rd (cornerResult s.cfg.divCorners.remOverflow (s.reg rs1)) (s.pc + 4#32)) ∧
      (∃ t, exec (.divu rd rs1 rs2) s = .next t ∧ WritesReg s t rd 0#32 (s.pc + 4#32)) ∧
      (∃ t, exec (.remu rd rs1 rs2) s = .next t ∧ WritesReg s t rd 0x80000000#32 (s.pc + 4#32))))

/-- R219: the division laws, for what DIV and REM, DIVU and REMU leave in their destinations when the division is neither
by zero nor the signed overflow. -/
def Obligations.DivisionLaws : Prop :=
  ∀ (rq rr rs1 rs2 : RegId) (s : State), rq ≠ 0#5 → rr ≠ 0#5 → s.reg rs2 ≠ 0#32 →
    (¬ (s.reg rs1 = 0x80000000#32 ∧ s.reg rs2 = 0xffffffff#32) →
      ∃ t u, exec (.div rq rs1 rs2) s = .next t ∧ exec (.rem rr rs1 rs2) s = .next u ∧
        (s.reg rs1).toInt = (s.reg rs2).toInt * (t.reg rq).toInt + (u.reg rr).toInt ∧
        |(u.reg rr).toInt| < |(s.reg rs2).toInt| ∧
        (0 ≤ (s.reg rs1).toInt → 0 ≤ (u.reg rr).toInt) ∧ ((s.reg rs1).toInt ≤ 0 → (u.reg rr).toInt ≤ 0)) ∧
    (∃ t u, exec (.divu rq rs1 rs2) s = .next t ∧ exec (.remu rr rs1 rs2) s = .next u ∧
        (s.reg rs1).toNat = (s.reg rs2).toNat * (t.reg rq).toNat + (u.reg rr).toNat ∧
        (u.reg rr).toNat < (s.reg rs2).toNat)

/-! ## CSR access, traps, stops (46_system.md, 60_exceptions.md) -/

/-- R230, R231, R34, R35: CSRRW and CSRRS: encoding; at each of the four addresses the old value goes to `x[rd]` and
the new one to that CSR alone; at any other address the fatal error, for reads and for writes. Accepted
configurations (log 9) have four distinct CSR addresses; `info` is the address zero-extended (log 14). The fatal
error as a next state is log 1. -/
def Obligations.CsrReadAndModify : Prop :=
  ∀ (rd rs1 : RegId) (s : State), configOk s.cfg = true →
    (∀ a : CsrAddr, decode (a ++ rs1 ++ 0b001#3 ++ rd ++ 0b1110011#7) = .csrrw rd rs1 a) ∧
    CsrEffect (fun a => .csrrw rd rs1 a) s rd (fun _ => s.reg rs1) ∧
    (∀ a : CsrAddr, decode (a ++ rs1 ++ 0b010#3 ++ rd ++ 0b1110011#7) = .csrrs rd rs1 a) ∧
    CsrEffect (fun a => .csrrs rd rs1 a) s rd (fun old => old ||| s.reg rs1)

/-- R232, R252, R253, R254, R257, R272: ECALL always traps, from either trap state: the pc to `mepc`, the cause to `mcause`,
`TRAPPED`, the next pc the content of `mtvec` as held; nothing else changes and nothing is reported. -/
def Obligations.EcallEntersTheHandler : Prop :=
  decode 0x00000073#32 = .ecall ∧
  ∀ s : State, ∃ t, exec .ecall s = .next t ∧ t.mepc = s.pc ∧ t.mcause = s.cfg.causeEcall ∧ t.trapState = .trapped ∧
    t.pc = s.mtvec ∧ t.mtvec = s.mtvec ∧ t.mstatus = s.mstatus ∧ RegsKept s t ∧ SameMemory s t ∧
    t.runState = s.runState ∧ t.fault = s.fault ∧ t.cfg = s.cfg ∧ t.events = s.events ∧ t.draws = s.draws

/-- R233, R262: EBREAK stops the run when it commits, without a fault; with `BREAK_TRAPS` it first enters the handler, without
it the pc advances by 4 and the trap unit is not touched. -/
def Obligations.EbreakStopsTheRun : Prop :=
  decode 0x00100073#32 = .ebreak ∧
  ∀ s : State, ∃ t, exec .ebreak s = .next t ∧ t.runState = .stopped ∧ t.fault = s.fault ∧
    t.mtvec = s.mtvec ∧ t.mstatus = s.mstatus ∧ RegsKept s t ∧ SameMemory s t ∧ t.cfg = s.cfg ∧ t.events = s.events ∧
    t.draws = s.draws ∧
    (s.cfg.breakTraps = true →
      t.mepc = s.pc ∧ t.mcause = s.cfg.causeBreakpoint ∧ t.trapState = .trapped ∧ t.pc = s.mtvec) ∧
    (s.cfg.breakTraps = false →
      t.mepc = s.mepc ∧ t.mcause = s.mcause ∧ t.trapState = s.trapState ∧ t.pc = s.pc + 4#32)

/-- R234, R255: MRET jumps to `mepc` as held and sets `NORMAL`, from either trap state; it restores nothing else. -/
def Obligations.MretReturnsFromTheTrap : Prop :=
  decode 0x30200073#32 = .mret ∧
  ∀ s : State, ∃ t, exec .mret s = .next t ∧ t.pc = s.mepc ∧ t.trapState = .normal ∧ SameCsrs s t ∧ RegsKept s t ∧
    SameMemory s t ∧ t.runState = s.runState ∧ t.fault = s.fault ∧ t.cfg = s.cfg ∧ t.events = s.events ∧
    t.draws = s.draws

/-- R235, R258, R259: the action of `inv` is the fatal decode error: the record holds the pc and the word, the pc
stays, no trap is entered and nothing else changes. That it is a next state is the model's form (log 1). -/
def Obligations.InvalidInstructionAborts : Prop :=
  ∀ (w : Word) (s : State), ∃ t, exec (.inv w) s = .next t ∧ Aborted s t .decodeError w

/-- R266: the trap round trip: ECALL at `A`, MRET at the address `mtvec` holds; after two steps the pc is `A` again,
`mepc` is `A`, `mcause` the ECALL cause, `NORMAL`, and every register, `mstatus`, `mtvec` and memory as before. R266
marks this restatement as the spec's own derivation. -/
def Obligations.TrapRoundTrip : Prop :=
  ∀ s : State, s.Inv → configOk s.cfg = true → s.runState = .running →
    FlatAccess s.cfg s.pc 4 → decodeIn s.cfg.table (rawFlat s s.pc .word) = .ecall →
    FlatAccess s.cfg s.mtvec 4 → decodeIn s.cfg.table (rawFlat s s.mtvec .word) = .mret →
    ∃ t u, step s = .next t ∧ step t = .next u ∧
      u.pc = s.pc ∧ u.mepc = s.pc ∧ u.mcause = s.cfg.causeEcall ∧ u.trapState = .normal ∧
      SameRegs s u ∧ u.mstatus = s.mstatus ∧ u.mtvec = s.mtvec ∧ SameMemory s u ∧ u.runState = .running

/-! ## Runs (40_engine_cycle.md R123, 60_exceptions.md R269) -/

/-- R123, R269: a run cut in two is the same run: if the first `n` steps leave the machine `RUNNING`, then a run of
`n` steps is a stop there, and resuming for `m` steps ends as a run of `n + m` steps does. A run of a machine that
is already `RUNNING` changes nothing at its start (log 7); `Run(n)` is for a finite `n` here (log 15). -/
def Obligations.ResumedRunIsTheContinuousRun : Prop :=
  ∀ (n m : Nat) (s t : State), s.runState = .running → Host.Core.run Sys2Proof.core n s = .next t →
    t.runState = .running →
    s.run n = .next t.stop ∧ t.stop.run m = s.run (n + m)

/-- R37, R258, R290: nothing leaves `ABORTED` but reset: no step, no resume, no run. That a step and a run in
`ABORTED` answer the fault `aborted` is the model's form (log 1). -/
def Obligations.AbortedEndsOnlyByReset : Prop :=
  ∀ s : State, s.runState = .aborted →
    (∀ t, step s ≠ .next t) ∧ s.resume = none ∧ (∀ n, s.run n = .fault .aborted) ∧ s.restart.FreshReset s.cfg

/-- R123, R262, R302: no run ends `RUNNING`: it ends `STOPPED` (breakpoint or budget), or `ABORTED` with a fault record, and
the reason it ends with is a fatal error exactly when it is `ABORTED`. "Continue", the run with an unbounded budget, ends in a
state exactly when some finite run ends there before its budget does; and it ends, or every finite run uses up its budget.
The functions for a run are the model's (logs 7, 15). -/
def Obligations.RunsEndStoppedOrAborted : Prop :=
  (∀ (n : Nat) (s t : State), s.Inv → s.run n = .next t →
    (t.runState = .stopped ∧ t.fault = none) ∨ (t.runState = .aborted ∧ t.fault ≠ none)) ∧
  (∀ (n : Nat) (s t : State), s.run n = .next t →
    ∃ e, s.runEnd n = some e ∧ (e = .fatal ↔ t.runState = .aborted)) ∧
  (∀ (s t : State) (e : RunEnd),
    s.Continue e t ↔ e ≠ .budget ∧ ∃ n, s.runEnd n = some e ∧ s.run n = .next t) ∧
  (∀ s : State, configOk s.cfg = true → 32 ≤ s.cfg.nreg → s.runState ≠ .aborted →
    (∃ e t, s.Continue e t) ∨ ∀ n, s.runEnd n = some .budget)
end

