-- ==== Sys2Proof/Laws/Memory.lean ====
section
/-! SUPPORT. Laws of memory as data: what a byte reads after a write, and that every memory operation keeps the
canonical form and the range of the listed addresses. -/

namespace Sys2Proof.Machine

/-! ## One byte -/

/-- A written byte is found at its own address and changes no other. -/
theorem Memory.find_put (m : Memory) (a b : Nat) (v : Byte) :
    Memory.find (Memory.put m a v) b = if b = a then some v else Memory.find m b := by
  induction m with
  | nil => simp [Memory.put, Memory.find]
  | cons c m ih =>
    obtain ⟨d, w⟩ := c
    simp only [Memory.put]
    split
    · simp only [Memory.find]
    · split
      · subst_vars
        simp only [Memory.find]
        split <;> rfl
      · simp only [Memory.find, ih]
        split
        · subst_vars
          rw [if_neg (by omega)]
        · rfl

/-- A read of one byte after a write of one byte (20_memory.md R51). -/
theorem Memory.byte_put (m : Memory) (a b : Nat) (v : Byte) :
    Memory.byte (Memory.put m a v) b = if b = a then v else Memory.byte m b := by
  simp only [Memory.byte, Memory.find_put]
  split <;> rfl

/-- An address of the memory after a write of one byte is the written one or was there before. -/
theorem Memory.mem_put {m : Memory} {a : Nat} {v : Byte} {c : Host.Cell} (h : c ∈ Memory.put m a v) :
    c = (a, v) ∨ c ∈ m := by
  induction m with
  | nil => simpa [Memory.put] using h
  | cons d m ih =>
    obtain ⟨b, w⟩ := d
    simp only [Memory.put] at h
    split at h
    · simpa using h
    · split at h
      · simp only [List.mem_cons] at h ⊢
        exact h.imp_right .inr
      · simp only [List.mem_cons] at h ⊢
        rcases h with h | h
        · exact .inr (.inl h)
        · exact (ih h).imp_right .inr

/-! ## The canonical form -/

/-- The canonical form says that the addresses rise strictly. -/
theorem Memory.wf_iff (m : Memory) : Memory.wf m = true ↔ m.Pairwise (fun c d => c.1 < d.1) := by
  induction m with
  | nil => simp [Memory.wf]
  | cons c m ih =>
    cases m with
    | nil => simp [Memory.wf]
    | cons d m =>
      obtain ⟨a, u⟩ := c
      obtain ⟨b, w⟩ := d
      simp only [Memory.wf, Bool.and_eq_true, decide_eq_true_eq, ih, List.pairwise_cons (a := (a, u)), List.mem_cons]
      refine ⟨fun ⟨h, hp⟩ => ⟨?_, hp⟩, fun ⟨h, hp⟩ => ⟨h _ (.inl rfl), hp⟩⟩
      rintro e (rfl | he)
      · exact h
      · exact h.trans ((List.pairwise_cons.mp hp).1 e he)

/-- A write of one byte keeps the canonical form. -/
theorem Memory.wf_put {m : Memory} (h : Memory.wf m = true) (a : Nat) (v : Byte) :
    Memory.wf (Memory.put m a v) = true := by
  rw [Memory.wf_iff] at h ⊢
  induction m with
  | nil => simp [Memory.put]
  | cons c m ih =>
    obtain ⟨b, w⟩ := c
    obtain ⟨hlt, hp⟩ := List.pairwise_cons.mp h
    simp only [Memory.put]
    split
    · rename_i hab
      refine List.pairwise_cons.mpr ⟨?_, h⟩
      rintro e he
      rcases List.mem_cons.mp he with rfl | he
      · exact hab
      · exact hab.trans (hlt e he)
    · split
      · subst_vars
        exact List.pairwise_cons.mpr ⟨hlt, hp⟩
      · refine List.pairwise_cons.mpr ⟨fun e he => ?_, ih hp⟩
        rcases Memory.mem_put he with rfl | he
        · show b < a
          omega
        · exact hlt e he

/-- The memory after reset is canonical. -/
theorem Memory.wf_nil : Memory.wf [] = true := rfl

/-! ## Several bytes -/

/-- A write of `n` bytes keeps the canonical form. -/
theorem Memory.wf_write {m : Memory} (h : Memory.wf m = true) (a : Nat) (v : Word) (n : Nat) :
    Memory.wf (Memory.write m a v n) = true := by
  induction n generalizing m a v with
  | zero => exact h
  | succ n ih => exact ih (Memory.wf_put h a _) _ _

/-- An address listed after a write of `n` bytes is one of those bytes' or was listed before. -/
theorem Memory.mem_write {m : Memory} {a n : Nat} {v : Word} {c : Host.Cell} (h : c ∈ Memory.write m a v n) :
    (a ≤ c.1 ∧ c.1 < a + n) ∨ c ∈ m := by
  induction n generalizing m a v with
  | zero => exact .inr h
  | succ n ih =>
    rcases ih h with h | h
    · exact .inl (by omega)
    · rcases Memory.mem_put h with rfl | h
      · exact .inl ⟨Nat.le_refl _, by simp⟩
      · exact .inr h

/-- One byte after a write of `n` bytes: byte `i` of the value at address `a + i`, any other byte as before
(20_memory.md R57). -/
theorem Memory.byte_write (m : Memory) (a : Nat) (v : Word) (n b : Nat) :
    Memory.byte (Memory.write m a v n) b =
      if a ≤ b ∧ b < a + n then (v >>> (8 * (b - a))).setWidth 8 else Memory.byte m b := by
  induction n generalizing m a v with
  | zero => simp [Memory.write]
  | succ n ih =>
    simp only [Memory.write, ih, Memory.byte_put]
    by_cases h : a = b
    · subst h
      simp
    · by_cases h1 : a + 1 ≤ b ∧ b < a + 1 + n
      · rw [if_pos h1, if_pos (by omega), ← BitVec.shiftRight_add]
        congr 2
        omega
      · rw [if_neg h1, if_neg (by omega), if_neg (by omega)]

/-- A write outside a byte leaves it alone. -/
theorem Memory.byte_write_outside (m : Memory) (a : Nat) (v : Word) (n b : Nat) (h : b < a ∨ a + n ≤ b) :
    Memory.byte (Memory.write m a v n) b = Memory.byte m b := by
  rw [Memory.byte_write, if_neg (by omega)]

/-- A read sees only the bytes it reads. -/
theorem Memory.read_congr {m m' : Memory} {a n : Nat}
    (h : ∀ b, a ≤ b → b < a + n → Memory.byte m' b = Memory.byte m b) : Memory.read m' a n = Memory.read m a n := by
  induction n generalizing a with
  | zero => rfl
  | succ n ih =>
    simp only [Memory.read]
    rw [h a (Nat.le_refl _) (by omega), ih fun b h1 h2 => h b (by omega) (by omega)]

/-- Bit `i` of a little-endian read is bit `i % 8` of byte `i / 8` (20_memory.md R55, R56). -/
theorem Memory.getLsbD_read (m : Memory) (a n i : Nat) (hn : n ≤ 4) :
    (Memory.read m a n).getLsbD i = (decide (i < 8 * n) && (Memory.byte m (a + i / 8)).getLsbD (i % 8)) := by
  induction n generalizing a i with
  | zero => simp [Memory.read]
  | succ n ih =>
    simp only [Memory.read, BitVec.getLsbD_or, BitVec.getLsbD_setWidth, BitVec.getLsbD_shiftLeft]
    by_cases h : i < 8
    · have h1 : i / 8 = 0 := by omega
      have h2 : i % 8 = i := by omega
      simp [h, h1, h2, show i < 32 by omega, show i < 8 * (n + 1) by omega]
    · rw [ih _ _ (by omega)]
      have h1 : a + 1 + (i - 8) / 8 = a + i / 8 := by omega
      have h2 : (i - 8) % 8 = i % 8 := by omega
      rw [h1, h2, BitVec.getLsbD_of_ge (Memory.byte m a) i (by omega)]
      by_cases h3 : i < 8 * (n + 1)
      · simp [h3, h, show i < 32 by omega, show i - 8 < 8 * n by omega]
      · simp [h3, show ¬ i - 8 < 8 * n by omega]

/-- The round trip on the flat array: a read of the bytes just written gives the low `8n` bits (20_memory.md R58). -/
theorem Memory.getLsbD_read_write (m : Memory) (a n i : Nat) (v : Word) (hn : n ≤ 4) :
    (Memory.read (Memory.write m a v n) a n).getLsbD i = (decide (i < 8 * n) && v.getLsbD i) := by
  rw [Memory.getLsbD_read _ _ _ _ hn]
  by_cases h : i < 8 * n
  · rw [Memory.byte_write, if_pos (by omega)]
    simp only [BitVec.getLsbD_setWidth, BitVec.getLsbD_ushiftRight, Nat.add_sub_cancel_left]
    rw [show 8 * (i / 8) + i % 8 = i by omega]
    simp [show i % 8 < 8 by omega]
  · simp [h]

end Sys2Proof.Machine
end

