-- ==== Sys2Proof/Laws/State.lean ====
section
/-! SUPPORT. One lemma per field per update of the state, so that no later proof unfolds a record update; and what the
register and CSR reads see after each update. -/

namespace Sys2Proof.Machine

variable (s : State)

@[simp] theorem State.setReg_cfg (r : RegId) (v : Word) : (s.setReg r v).cfg = s.cfg := rfl
@[simp] theorem State.setReg_xHigh (r : RegId) (v : Word) : (s.setReg r v).xHigh = s.xHigh := rfl
@[simp] theorem State.setReg_pc (r : RegId) (v : Word) : (s.setReg r v).pc = s.pc := rfl
@[simp] theorem State.setReg_mstatus (r : RegId) (v : Word) : (s.setReg r v).mstatus = s.mstatus := rfl
@[simp] theorem State.setReg_mtvec (r : RegId) (v : Word) : (s.setReg r v).mtvec = s.mtvec := rfl
@[simp] theorem State.setReg_mepc (r : RegId) (v : Word) : (s.setReg r v).mepc = s.mepc := rfl
@[simp] theorem State.setReg_mcause (r : RegId) (v : Word) : (s.setReg r v).mcause = s.mcause := rfl
@[simp] theorem State.setReg_trapState (r : RegId) (v : Word) : (s.setReg r v).trapState = s.trapState := rfl
@[simp] theorem State.setReg_runState (r : RegId) (v : Word) : (s.setReg r v).runState = s.runState := rfl
@[simp] theorem State.setReg_fault (r : RegId) (v : Word) : (s.setReg r v).fault = s.fault := rfl
@[simp] theorem State.setReg_mem (r : RegId) (v : Word) : (s.setReg r v).mem = s.mem := rfl
@[simp] theorem State.setReg_events (r : RegId) (v : Word) : (s.setReg r v).events = s.events := rfl
@[simp] theorem State.setReg_draws (r : RegId) (v : Word) : (s.setReg r v).draws = s.draws := rfl
@[simp] theorem State.setReg_started (r : RegId) (v : Word) : (s.setReg r v).started = s.started := rfl

@[simp] theorem State.commit_cfg (target : Word) : (s.commit target).cfg = s.cfg := rfl
@[simp] theorem State.commit_xHigh (target : Word) : (s.commit target).xHigh = s.xHigh := rfl
@[simp] theorem State.commit_pc (target : Word) : (s.commit target).pc = target := rfl
@[simp] theorem State.commit_mstatus (target : Word) : (s.commit target).mstatus = s.mstatus := rfl
@[simp] theorem State.commit_mtvec (target : Word) : (s.commit target).mtvec = s.mtvec := rfl
@[simp] theorem State.commit_mepc (target : Word) : (s.commit target).mepc = s.mepc := rfl
@[simp] theorem State.commit_mcause (target : Word) : (s.commit target).mcause = s.mcause := rfl
@[simp] theorem State.commit_trapState (target : Word) : (s.commit target).trapState = s.trapState := rfl
@[simp] theorem State.commit_runState (target : Word) : (s.commit target).runState = s.runState := rfl
@[simp] theorem State.commit_fault (target : Word) : (s.commit target).fault = s.fault := rfl
@[simp] theorem State.commit_mem (target : Word) : (s.commit target).mem = s.mem := rfl
@[simp] theorem State.commit_events (target : Word) : (s.commit target).events = s.events := rfl
@[simp] theorem State.commit_draws (target : Word) : (s.commit target).draws = s.draws := rfl
@[simp] theorem State.commit_started (target : Word) : (s.commit target).started = s.started := rfl

@[simp] theorem State.stop_cfg : s.stop.cfg = s.cfg := rfl
@[simp] theorem State.stop_xHigh : s.stop.xHigh = s.xHigh := rfl
@[simp] theorem State.stop_x : s.stop.x = s.x := rfl
@[simp] theorem State.stop_pc : s.stop.pc = s.pc := rfl
@[simp] theorem State.stop_mstatus : s.stop.mstatus = s.mstatus := rfl
@[simp] theorem State.stop_mtvec : s.stop.mtvec = s.mtvec := rfl
@[simp] theorem State.stop_mepc : s.stop.mepc = s.mepc := rfl
@[simp] theorem State.stop_mcause : s.stop.mcause = s.mcause := rfl
@[simp] theorem State.stop_trapState : s.stop.trapState = s.trapState := rfl
@[simp] theorem State.stop_runState : s.stop.runState = .stopped := rfl
@[simp] theorem State.stop_fault : s.stop.fault = s.fault := rfl
@[simp] theorem State.stop_mem : s.stop.mem = s.mem := rfl
@[simp] theorem State.stop_events : s.stop.events = s.events := rfl
@[simp] theorem State.stop_draws : s.stop.draws = s.draws := rfl
@[simp] theorem State.stop_started : s.stop.started = s.started := rfl

@[simp] theorem State.abort_cfg (f : Fatal) : (s.abort f).cfg = s.cfg := rfl
@[simp] theorem State.abort_xHigh (f : Fatal) : (s.abort f).xHigh = s.xHigh := rfl
@[simp] theorem State.abort_x (f : Fatal) : (s.abort f).x = s.x := rfl
@[simp] theorem State.abort_pc (f : Fatal) : (s.abort f).pc = s.pc := rfl
@[simp] theorem State.abort_mstatus (f : Fatal) : (s.abort f).mstatus = s.mstatus := rfl
@[simp] theorem State.abort_mtvec (f : Fatal) : (s.abort f).mtvec = s.mtvec := rfl
@[simp] theorem State.abort_mepc (f : Fatal) : (s.abort f).mepc = s.mepc := rfl
@[simp] theorem State.abort_mcause (f : Fatal) : (s.abort f).mcause = s.mcause := rfl
@[simp] theorem State.abort_trapState (f : Fatal) : (s.abort f).trapState = s.trapState := rfl
@[simp] theorem State.abort_runState (f : Fatal) : (s.abort f).runState = .aborted := rfl
@[simp] theorem State.abort_fault (f : Fatal) : (s.abort f).fault = some ⟨f.cls, s.pc, f.info⟩ := rfl
@[simp] theorem State.abort_mem (f : Fatal) : (s.abort f).mem = s.mem := rfl
@[simp] theorem State.abort_events (f : Fatal) : (s.abort f).events = s.events := rfl
@[simp] theorem State.abort_draws (f : Fatal) : (s.abort f).draws = s.draws := rfl
@[simp] theorem State.abort_started (f : Fatal) : (s.abort f).started = s.started := rfl

@[simp] theorem State.trap_cfg (c : Word) : (s.trap c).2.cfg = s.cfg := rfl
@[simp] theorem State.trap_xHigh (c : Word) : (s.trap c).2.xHigh = s.xHigh := rfl
@[simp] theorem State.trap_x (c : Word) : (s.trap c).2.x = s.x := rfl
@[simp] theorem State.trap_pc (c : Word) : (s.trap c).2.pc = s.pc := rfl
@[simp] theorem State.trap_mstatus (c : Word) : (s.trap c).2.mstatus = s.mstatus := rfl
@[simp] theorem State.trap_mtvec (c : Word) : (s.trap c).2.mtvec = s.mtvec := rfl
@[simp] theorem State.trap_mepc (c : Word) : (s.trap c).2.mepc = s.pc := rfl
@[simp] theorem State.trap_mcause (c : Word) : (s.trap c).2.mcause = c := rfl
@[simp] theorem State.trap_trapState (c : Word) : (s.trap c).2.trapState = .trapped := rfl
@[simp] theorem State.trap_runState (c : Word) : (s.trap c).2.runState = s.runState := rfl
@[simp] theorem State.trap_fault (c : Word) : (s.trap c).2.fault = s.fault := rfl
@[simp] theorem State.trap_mem (c : Word) : (s.trap c).2.mem = s.mem := rfl
@[simp] theorem State.trap_events (c : Word) : (s.trap c).2.events = s.events := rfl
@[simp] theorem State.trap_draws (c : Word) : (s.trap c).2.draws = s.draws := rfl
@[simp] theorem State.trap_started (c : Word) : (s.trap c).2.started = s.started := rfl

@[simp] theorem State.returnFromTrap_cfg : s.returnFromTrap.2.cfg = s.cfg := rfl
@[simp] theorem State.returnFromTrap_xHigh : s.returnFromTrap.2.xHigh = s.xHigh := rfl
@[simp] theorem State.returnFromTrap_x : s.returnFromTrap.2.x = s.x := rfl
@[simp] theorem State.returnFromTrap_pc : s.returnFromTrap.2.pc = s.pc := rfl
@[simp] theorem State.returnFromTrap_mstatus : s.returnFromTrap.2.mstatus = s.mstatus := rfl
@[simp] theorem State.returnFromTrap_mtvec : s.returnFromTrap.2.mtvec = s.mtvec := rfl
@[simp] theorem State.returnFromTrap_mepc : s.returnFromTrap.2.mepc = s.mepc := rfl
@[simp] theorem State.returnFromTrap_mcause : s.returnFromTrap.2.mcause = s.mcause := rfl
@[simp] theorem State.returnFromTrap_trapState : s.returnFromTrap.2.trapState = .normal := rfl
@[simp] theorem State.returnFromTrap_runState : s.returnFromTrap.2.runState = s.runState := rfl
@[simp] theorem State.returnFromTrap_fault : s.returnFromTrap.2.fault = s.fault := rfl
@[simp] theorem State.returnFromTrap_mem : s.returnFromTrap.2.mem = s.mem := rfl
@[simp] theorem State.returnFromTrap_events : s.returnFromTrap.2.events = s.events := rfl
@[simp] theorem State.returnFromTrap_draws : s.returnFromTrap.2.draws = s.draws := rfl
@[simp] theorem State.returnFromTrap_started : s.returnFromTrap.2.started = s.started := rfl

@[simp] theorem State.setCsr_cfg (k : Csr) (v : Word) : (s.setCsr k v).cfg = s.cfg := by cases k <;> rfl
@[simp] theorem State.setCsr_xHigh (k : Csr) (v : Word) : (s.setCsr k v).xHigh = s.xHigh := by cases k <;> rfl
@[simp] theorem State.setCsr_x (k : Csr) (v : Word) : (s.setCsr k v).x = s.x := by cases k <;> rfl
@[simp] theorem State.setCsr_pc (k : Csr) (v : Word) : (s.setCsr k v).pc = s.pc := by cases k <;> rfl
@[simp] theorem State.setCsr_trapState (k : Csr) (v : Word) : (s.setCsr k v).trapState = s.trapState := by cases k <;> rfl
@[simp] theorem State.setCsr_runState (k : Csr) (v : Word) : (s.setCsr k v).runState = s.runState := by cases k <;> rfl
@[simp] theorem State.setCsr_fault (k : Csr) (v : Word) : (s.setCsr k v).fault = s.fault := by cases k <;> rfl
@[simp] theorem State.setCsr_mem (k : Csr) (v : Word) : (s.setCsr k v).mem = s.mem := by cases k <;> rfl
@[simp] theorem State.setCsr_events (k : Csr) (v : Word) : (s.setCsr k v).events = s.events := by cases k <;> rfl
@[simp] theorem State.setCsr_draws (k : Csr) (v : Word) : (s.setCsr k v).draws = s.draws := by cases k <;> rfl
@[simp] theorem State.setCsr_started (k : Csr) (v : Word) : (s.setCsr k v).started = s.started := by cases k <;> rfl

@[simp] theorem State.begin_cfg : s.begin.cfg = s.cfg := rfl
@[simp] theorem State.begin_xHigh : s.begin.xHigh = s.xHigh := rfl
@[simp] theorem State.begin_x : s.begin.x = s.x := rfl
@[simp] theorem State.begin_pc : s.begin.pc = s.pc := rfl
@[simp] theorem State.begin_mstatus : s.begin.mstatus = s.mstatus := rfl
@[simp] theorem State.begin_mtvec : s.begin.mtvec = s.mtvec := rfl
@[simp] theorem State.begin_mepc : s.begin.mepc = s.mepc := rfl
@[simp] theorem State.begin_mcause : s.begin.mcause = s.mcause := rfl
@[simp] theorem State.begin_trapState : s.begin.trapState = s.trapState := rfl
@[simp] theorem State.begin_runState : s.begin.runState = s.runState := rfl
@[simp] theorem State.begin_fault : s.begin.fault = s.fault := rfl
@[simp] theorem State.begin_mem : s.begin.mem = s.mem := rfl
@[simp] theorem State.begin_events : s.begin.events = s.events := rfl
@[simp] theorem State.begin_draws : s.begin.draws = s.draws := rfl
@[simp] theorem State.begin_started : s.begin.started = true := rfl

@[simp] theorem State.trap_target (c : Word) : (s.trap c).1 = s.mtvec := rfl
@[simp] theorem State.returnFromTrap_target : s.returnFromTrap.1 = s.mepc := rfl

/-! ## Register reads after an update -/

@[simp] theorem State.reg_begin (q : RegId) : s.begin.reg q = s.reg q := rfl
@[simp] theorem State.reg_stop (q : RegId) : s.stop.reg q = s.reg q := rfl
@[simp] theorem State.reg_abort (q : RegId) (f : Fatal) : (s.abort f).reg q = s.reg q := rfl
@[simp] theorem State.reg_trap (q : RegId) (c : Word) : (s.trap c).2.reg q = s.reg q := rfl
@[simp] theorem State.reg_returnFromTrap (q : RegId) : s.returnFromTrap.2.reg q = s.reg q := rfl
@[simp] theorem State.reg_setCsr (q : RegId) (k : Csr) (v : Word) : (s.setCsr k v).reg q = s.reg q := by
  cases k <;> rfl

/-- A write to `x[r]` is seen by a read of `x[r]` and by no other. -/
theorem State.reg_setReg (q r : RegId) (v : Word) : (s.setReg r v).reg q = if q = r then v else s.reg q := by
  simp only [State.reg, State.setReg, Vector.getElem_set, BitVec.toNat_inj, eq_comm]

/-- After a commit `x[0]` is 0 and every other register is as the action left it (40_engine_cycle.md R120). -/
theorem State.reg_commit (q : RegId) (target : Word) :
    (s.commit target).reg q = if q = 0#5 then 0#32 else s.reg q := by
  have h : (0 = q.toNat) ↔ q = 0#5 := by rw [BitVec.toNat_eq]; simp [eq_comm]
  simp only [State.reg, State.commit, Vector.getElem_set, h]

/-- A state whose registers, as a vector, are those of `s` reads as `s` does. -/
theorem State.reg_congr {s t : State} (h : t.x = s.x) (q : RegId) : t.reg q = s.reg q := by
  simp only [State.reg, h]

/-! ## CSR reads after an update -/

@[simp] theorem State.csr_begin (k : Csr) : s.begin.csr k = s.csr k := by cases k <;> rfl
@[simp] theorem State.csr_setReg (k : Csr) (r : RegId) (v : Word) : (s.setReg r v).csr k = s.csr k := by cases k <;> rfl
@[simp] theorem State.csr_commit (k : Csr) (target : Word) : (s.commit target).csr k = s.csr k := by cases k <;> rfl
@[simp] theorem State.csr_stop (k : Csr) : s.stop.csr k = s.csr k := by cases k <;> rfl
@[simp] theorem State.csr_abort (k : Csr) (f : Fatal) : (s.abort f).csr k = s.csr k := by cases k <;> rfl
@[simp] theorem State.csr_returnFromTrap (k : Csr) : s.returnFromTrap.2.csr k = s.csr k := by cases k <;> rfl

/-- A CSR write is seen by a read of that CSR and by no other. -/
theorem State.csr_setCsr (j k : Csr) (v : Word) : (s.setCsr k v).csr j = if j = k then v else s.csr j := by
  cases j <;> cases k <;> rfl

/-- Trap entry writes `mepc` and `mcause` and no other CSR (60_exceptions.md R252, R254). -/
theorem State.csr_trap (k : Csr) (c : Word) :
    (s.trap c).2.csr k = match k with
      | .mepc => s.pc
      | .mcause => c
      | .mstatus => s.mstatus
      | .mtvec => s.mtvec := by
  cases k <;> rfl

/-! ## The end of a step -/

/-- What `writeNext` answers: `x[rd] <- v`, then commit with `pc + 4`. -/
theorem State.writeNext_eq (rd : RegId) (v : Word) :
    s.writeNext rd v = .next ((s.setReg rd v).commit s.snpc) := rfl

/-- The registers after a write to `x[rd]` and a commit (10_state.md R22). -/
theorem State.reg_setReg_commit (q rd : RegId) (v target : Word) :
    ((s.setReg rd v).commit target).reg q = if q = 0#5 then 0#32 else if q = rd then v else s.reg q := by
  rw [State.reg_commit, State.reg_setReg]

end Sys2Proof.Machine
end

