-- ==== Sys2Proof/Laws/Ops.lean ====
section
/-! SUPPORT. For each shared operation, one lemma that says once everything it can do. -/

namespace Sys2Proof.Machine

/-! ## Address resolution -/

/-- An access all of whose bytes lie in the flat array goes there, and only such an access does (20_memory.md R53, R62). -/
theorem resolve_flat (c : Config) (addr : Word) (n : Nat) :
    resolve c addr n = some .flat ↔ inFlat c addr.toNat = true ∧ addr.toNat + n ≤ flatEnd c := by
  unfold resolve
  split
  · split <;> simp_all
  · split
    · split <;> simp_all
    · simp_all

/-- An access goes to a device exactly when its first byte is outside the flat array, the window is the first one that
holds that byte, and the last byte is in the window too (R53, R62). -/
theorem resolve_device (c : Config) (addr : Word) (n : Nat) (w : Window) (offset : Word) :
    resolve c addr n = some (.device w offset) ↔
      inFlat c addr.toNat = false ∧ firstWindow c.windows addr.toNat = some w ∧
        addr.toNat + n ≤ w.base.toNat + w.length ∧ offset = addr - w.base := by
  unfold resolve
  split
  · split <;> simp_all
  · rename_i hf
    split
    · rename_i u hu
      split
      · rename_i hle
        simp only [Option.some.injEq, Region.device.injEq, hu]
        constructor
        · rintro ⟨rfl, rfl⟩
          exact ⟨by simpa using hf, rfl, hle, rfl⟩
        · rintro ⟨-, rfl, -, rfl⟩
          exact ⟨rfl, rfl⟩
      · rename_i hle
        simp only [reduceCtorEq, hu, Option.some.injEq, false_iff]
        rintro ⟨-, rfl, h, -⟩
        exact hle h
    · rename_i hu
      simp [hu]

/-- The first window of a list that holds an address is one of the list and holds it. -/
theorem firstWindow_some {ws : List Window} {a : Nat} {w : Window} (h : firstWindow ws a = some w) :
    w ∈ ws ∧ Window.covers w a = true := by
  induction ws with
  | nil => cases h
  | cons v ws ih =>
    simp only [firstWindow] at h
    split at h
    · cases h
      exact ⟨List.mem_cons_self, by assumption⟩
    · exact ⟨List.mem_cons_of_mem _ (ih h).1, (ih h).2⟩

/-! ## `MemRead` and `MemWrite` -/

/-- Everything `MemRead` can do (R56, R63): read the flat array and change nothing; read a device, with one draw and one
event; or end in `MemoryBound`. -/
theorem State.memRead_cases (s : State) (addr : Word) (n : Width) :
    (resolve s.cfg addr n.bytes = some .flat ∧
      s.memRead addr n = .ok (Memory.read s.mem addr.toNat n.bytes, s)) ∨
    (∃ w offset, resolve s.cfg addr n.bytes = some (.device w offset) ∧ w.onRead = true ∧
      s.memRead addr n = .ok (lowBytes (Config.deviceRead s.draws) n,
        { s with
          draws := s.draws + 1
          events := s.events ++ [.read w offset n (lowBytes (Config.deviceRead s.draws) n)] })) ∨
    s.memRead addr n = .error (memoryBound addr) := by
  unfold State.memRead
  split
  · exact .inl ⟨by assumption, rfl⟩
  · split
    · exact .inr (.inl ⟨_, _, by assumption, by assumption, rfl⟩)
    · exact .inr (.inr rfl)
  · exact .inr (.inr rfl)

/-- A read of the flat array. -/
theorem State.memRead_flat {s : State} {addr : Word} {n : Width} (h : resolve s.cfg addr n.bytes = some .flat) :
    s.memRead addr n = .ok (Memory.read s.mem addr.toNat n.bytes, s) := by
  unfold State.memRead
  rw [h]

/-- A read outside every region, or across the end of one. -/
theorem State.memRead_none {s : State} {addr : Word} {n : Width} (h : resolve s.cfg addr n.bytes = none) :
    s.memRead addr n = .error (memoryBound addr) := by
  unfold State.memRead
  rw [h]

/-- Everything `MemWrite` can do (R57, R63). -/
theorem State.memWrite_cases (s : State) (addr : Word) (n : Width) (v : Word) :
    (resolve s.cfg addr n.bytes = some .flat ∧
      s.memWrite addr n v = .ok { s with mem := Memory.write s.mem addr.toNat v n.bytes }) ∨
    (∃ w offset, resolve s.cfg addr n.bytes = some (.device w offset) ∧ w.onWrite = true ∧
      s.memWrite addr n v = .ok { s with events := s.events ++ [.write w offset n v] }) ∨
    s.memWrite addr n v = .error (memoryBound addr) := by
  unfold State.memWrite
  split
  · exact .inl ⟨by assumption, rfl⟩
  · split
    · exact .inr (.inl ⟨_, _, by assumption, by assumption, rfl⟩)
    · exact .inr (.inr rfl)
  · exact .inr (.inr rfl)

/-- A write to the flat array. -/
theorem State.memWrite_flat {s : State} {addr : Word} {n : Width} (v : Word)
    (h : resolve s.cfg addr n.bytes = some .flat) :
    s.memWrite addr n v = .ok { s with mem := Memory.write s.mem addr.toNat v n.bytes } := by
  unfold State.memWrite
  rw [h]

/-- A write outside every region, or across the end of one. -/
theorem State.memWrite_none {s : State} {addr : Word} {n : Width} (v : Word)
    (h : resolve s.cfg addr n.bytes = none) : s.memWrite addr n v = .error (memoryBound addr) := by
  unfold State.memWrite
  rw [h]

/-- A write keeps the canonical form of memory. -/
theorem State.memWrite_wf {s t : State} {addr : Word} {n : Width} {v : Word} (h : s.memWrite addr n v = .ok t)
    (hm : Memory.wf s.mem = true) : Memory.wf t.mem = true := by
  rcases s.memWrite_cases addr n v with ⟨-, e⟩ | ⟨w, o, -, -, e⟩ | e <;> rw [e] at h <;> cases h
  · exact Memory.wf_write hm _ _ _
  · exact hm

/-- A read leaves memory as it is. -/
theorem State.memRead_mem {s t : State} {addr : Word} {n : Width} {v : Word} (h : s.memRead addr n = .ok (v, t)) :
    t.mem = s.mem := by
  rcases s.memRead_cases addr n with ⟨-, e⟩ | ⟨w, o, -, -, e⟩ | e <;> rw [e] at h <;> cases h <;> rfl

/-! ## The shared shapes of the meanings -/

/-- A load either gets a value and writes it, or aborts (44_load_store.md R198 (c), (f)). -/
theorem State.load_cases (s : State) (rd : RegId) (addr : Word) (n : Width) (extend : Word → Word) :
    (∃ v t, s.memRead addr n = .ok (v, t) ∧ s.load rd addr n extend = .next ((t.setReg rd (extend v)).commit t.snpc)) ∨
    (∃ f, s.memRead addr n = .error f ∧ s.load rd addr n extend = .next (s.abort f)) := by
  unfold State.load
  split
  · exact .inl ⟨_, _, by assumption, rfl⟩
  · exact .inr ⟨_, by assumption, rfl⟩

/-- A store either writes, or aborts (R198 (d), (f)). -/
theorem State.store_cases (s : State) (addr : Word) (n : Width) (v : Word) :
    (∃ t, s.memWrite addr n v = .ok t ∧ s.store addr n v = .next (t.commit s.snpc)) ∨
    (∃ f, s.memWrite addr n v = .error f ∧ s.store addr n v = .next (s.abort f)) := by
  unfold State.store
  split
  · exact .inl ⟨_, by assumption, rfl⟩
  · exact .inr ⟨_, by assumption, rfl⟩

/-- A CSR instruction either updates a CSR and writes the old value to `x[rd]`, or aborts (46_system.md R230, R231). -/
theorem State.csrUpdate_cases (s : State) (rd : RegId) (a : CsrAddr) (new : Word → Word) :
    (∃ k, csrAt s.cfg a = some k ∧
      s.csrUpdate rd a new = .next (((s.setCsr k (new (s.csr k))).setReg rd (s.csr k)).commit s.snpc)) ∨
    (csrAt s.cfg a = none ∧ s.csrUpdate rd a new = .next (s.abort ⟨.csrError, a.setWidth 32⟩)) := by
  unfold State.csrUpdate
  split
  · exact .inl ⟨_, by assumption, rfl⟩
  · exact .inr ⟨by assumption, rfl⟩

/-! ## The step -/

/-- Everything `execWord` can do (log 18): run the instruction of the word in the machine's table, or refuse it for a
register the machine does not have. -/
theorem State.execWord_cases (s : State) (inst : Word) :
    (registersExist s.cfg (decodeIn s.cfg.table inst) = true ∧ s.execWord inst = exec (decodeIn s.cfg.table inst) s) ∨
    (registersExist s.cfg (decodeIn s.cfg.table inst) = false ∧ s.execWord inst = .refused .noRegister) := by
  unfold State.execWord
  split
  · exact .inl ⟨by assumption, rfl⟩
  · rename_i h
    exact .inr ⟨Bool.eq_false_of_not_eq_true h, rfl⟩

/-- With `NREG` at 32, or above, every register field names a register (10_state.md R21). -/
theorem registersExist_of_nreg {c : Config} (h : 32 ≤ c.nreg) (i : Instr) : registersExist c i = true := by
  have hr : ∀ r : RegId, decide (r.toNat < c.nreg) = true := fun r => decide_eq_true (Nat.lt_of_lt_of_le r.isLt h)
  simp [registersExist, hr]

/-- A machine with 32 registers or more runs the instruction of every word. -/
theorem State.execWord_of_nreg {s : State} (h : 32 ≤ s.cfg.nreg) (inst : Word) :
    s.execWord inst = exec (decodeIn s.cfg.table inst) s := by
  rw [State.execWord, if_pos (registersExist_of_nreg h _)]

/-- Everything a step can do when it answers a next state: the machine was running, and it ran the instruction it
fetched or ended in the fetch's fatal error (40_engine_cycle.md R110, R111). -/
theorem step_next {s t : State} (h : step s = .next t) :
    configOk s.cfg = true ∧ s.runState = .running ∧
      ((∃ inst u, s.begin.fetch = .ok (inst, u) ∧ exec (decodeIn u.cfg.table inst) u = .next t) ∨
       (∃ f, s.begin.fetch = .error f ∧ t = s.begin.abort f)) := by
  unfold step at h
  split at h
  · rename_i hc
    split at h
    · cases h
    · cases h
    · rename_i hr
      refine ⟨hc, hr, ?_⟩
      split at h
      · rename_i inst u hf
        refine .inl ⟨inst, u, hf, ?_⟩
        rcases u.execWord_cases inst with ⟨-, e⟩ | ⟨-, e⟩ <;> rw [e] at h
        · exact h
        · cases h
      · cases h
        exact .inr ⟨_, by assumption, rfl⟩
  · cases h

end Sys2Proof.Machine
end

