-- ==== Sys2Proof/Laws/Access.lean ====
section
/-! SUPPORT. The three cases of an access in the claims' own words (Safety.lean) against what address resolution answers
(20_memory.md R53, R54, R62), and the words a read of the flat array gives. -/

namespace Sys2Proof.Machine

/-- A non-empty access has all its bytes in the flat array exactly when it resolves there. -/
theorem flatAccess_iff {c : Config} {addr : Word} {n : Nat} (hn : 0 < n) :
    FlatAccess c addr n ↔ resolve c addr n = some .flat := by
  rw [resolve_flat]
  simp only [FlatAccess, inFlat, Bool.and_eq_true, decide_eq_true_eq]
  omega

/-- The scan of the windows answers the first one that covers the address (R53). -/
theorem firstWindow_eq_some {ws : List Window} {a : Nat} {w : Window} :
    firstWindow ws a = some w ↔
      ∃ before after, ws = before ++ w :: after ∧ Window.covers w a = true ∧
        ∀ v ∈ before, Window.covers v a = false := by
  induction ws with
  | nil => simp [firstWindow]
  | cons v ws ih =>
    simp only [firstWindow]
    split
    · rename_i hv
      constructor
      · rintro h
        cases h
        exact ⟨[], ws, rfl, hv, by simp⟩
      · rintro ⟨before, after, h, -, hb⟩
        cases before with
        | nil => simp only [List.nil_append, List.cons.injEq] at h; rw [h.1]
        | cons u before =>
          simp only [List.cons_append, List.cons.injEq] at h
          have := hb u (by simp)
          rw [← h.1, hv] at this
          cases this
    · rename_i hv
      rw [ih]
      constructor
      · rintro ⟨before, after, rfl, h1, h2⟩
        refine ⟨v :: before, after, rfl, h1, ?_⟩
        simp only [List.mem_cons, forall_eq_or_imp]
        exact ⟨by simpa using hv, h2⟩
      · rintro ⟨before, after, h, h1, h2⟩
        cases before with
        | nil =>
          simp only [List.nil_append, List.cons.injEq] at h
          rw [h.1] at hv
          exact absurd h1 hv
        | cons u before =>
          simp only [List.cons_append, List.cons.injEq] at h
          exact ⟨before, after, h.2, h1, fun x hx => h2 x (List.mem_cons_of_mem _ hx)⟩

/-- The scan answers nothing exactly when no window covers the address (R54). -/
theorem firstWindow_eq_none {ws : List Window} {a : Nat} :
    firstWindow ws a = none ↔ ∀ w ∈ ws, Window.covers w a = false := by
  induction ws with
  | nil => simp [firstWindow]
  | cons v ws ih =>
    simp only [firstWindow]
    split <;> simp_all

/-- A device access is one that resolves to the device and has its callback (R53, R63). -/
theorem deviceAccess_iff {c : Config} {addr : Word} {n : Nat} {callback : Window → Bool} {w : Window} :
    DeviceAccess c addr n callback w ↔
      resolve c addr n = some (.device w (addr - w.base)) ∧ callback w = true := by
  rw [resolve_device, firstWindow_eq_some]
  simp only [DeviceAccess, FirstCovering, and_true]
  tauto

/-- An access is out of bound exactly when it resolves nowhere, or to a window without the callback (R54, R62, R63). -/
theorem outOfBound_iff {c : Config} {addr : Word} {n : Nat} {callback : Window → Bool} :
    OutOfBound c addr n callback ↔
      resolve c addr n = none ∨ ∃ w offset, resolve c addr n = some (.device w offset) ∧ callback w = false := by
  constructor
  · rintro (⟨h1, h2⟩ | ⟨h1, h2 | ⟨w, h2, h3⟩⟩)
    · exact .inl (by simp only [resolve, h1, if_true, if_neg (Nat.not_le.mpr h2)])
    · exact .inl (by simp [resolve, h1, firstWindow_eq_none.mpr h2])
    · have hw := firstWindow_eq_some.mpr h2
      by_cases h4 : addr.toNat + n ≤ w.base.toNat + w.length
      · refine .inr ⟨w, addr - w.base, by simp [resolve, h1, hw, h4], ?_⟩
        exact h3.resolve_left (by omega)
      · exact .inl (by simp [resolve, h1, hw, h4])
  · rintro (h | ⟨w, offset, h, hc⟩)
    · unfold resolve at h
      split at h
      · split at h
        · cases h
        · exact .inl ⟨by assumption, by omega⟩
      · rename_i h1
        refine .inr ⟨by simpa using h1, ?_⟩
        split at h
        · rename_i w hw
          split at h
          · cases h
          · exact .inr ⟨w, firstWindow_eq_some.mp hw, .inl (by omega)⟩
        · exact .inl (firstWindow_eq_none.mp (by assumption))
    · rw [resolve_device] at h
      exact .inr ⟨h.1, .inr ⟨w, firstWindow_eq_some.mp h.2.1, .inr hc⟩⟩

/-- A read out of bound is `MemoryBound`, whichever of its reasons holds. -/
theorem State.memRead_outOfBound {s : State} {addr : Word} {n : Width}
    (h : OutOfBound s.cfg addr n.bytes Window.onRead) : s.memRead addr n = .error (memoryBound addr) := by
  unfold State.memRead
  rcases outOfBound_iff.mp h with h | ⟨w, offset, h, hw⟩ <;> rw [h]
  simp [hw]

/-- A write out of bound is `MemoryBound`, whichever of its reasons holds. -/
theorem State.memWrite_outOfBound {s : State} {addr : Word} {n : Width} (v : Word)
    (h : OutOfBound s.cfg addr n.bytes Window.onWrite) : s.memWrite addr n v = .error (memoryBound addr) := by
  unfold State.memWrite
  rcases outOfBound_iff.mp h with h | ⟨w, offset, h, hw⟩ <;> rw [h]
  simp [hw]

/-- A read a device takes: one draw, one event (R63). -/
theorem State.memRead_device {s : State} {addr : Word} {n : Width} {w : Window}
    (h : DeviceAccess s.cfg addr n.bytes Window.onRead w) :
    s.memRead addr n = .ok (lowBytes (Config.deviceRead s.draws) n,
      { s with
        draws := s.draws + 1
        events := s.events ++ [.read w (addr - w.base) n (lowBytes (Config.deviceRead s.draws) n)] }) := by
  obtain ⟨h1, h2⟩ := deviceAccess_iff.mp h
  unfold State.memRead
  rw [h1]
  simp [h2]

/-- A write a device takes: one event (R63). -/
theorem State.memWrite_device {s : State} {addr : Word} {n : Width} {w : Window} (v : Word)
    (h : DeviceAccess s.cfg addr n.bytes Window.onWrite w) :
    s.memWrite addr n v = .ok { s with events := s.events ++ [.write w (addr - w.base) n v] } := by
  obtain ⟨h1, h2⟩ := deviceAccess_iff.mp h
  unfold State.memWrite
  rw [h1]
  simp [h2]

/-- Four bytes read one after the other, the first the least significant. -/
theorem Memory.read_four (m : Memory) (a : Nat) :
    Memory.read m a 4 =
      Memory.byte m (a + 3) ++ Memory.byte m (a + 2) ++ Memory.byte m (a + 1) ++ Memory.byte m a := by
  simp only [Memory.read, Nat.add_assoc]
  generalize Memory.byte m a = p
  generalize Memory.byte m (a + 1) = q
  generalize Memory.byte m (a + (1 + 1)) = r
  generalize Memory.byte m (a + (1 + (1 + 1))) = u
  apply BitVec.eq_of_getLsbD_eq
  intro i hi
  simp only [BitVec.getLsbD_append, BitVec.getLsbD_or, BitVec.getLsbD_shiftLeft, BitVec.getLsbD_setWidth]
  interval_cases i <;> simp

/-- Two bytes read one after the other. -/
theorem Memory.read_two (m : Memory) (a : Nat) :
    Memory.read m a 2 = (Memory.byte m (a + 1) ++ Memory.byte m a).setWidth 32 := by
  simp only [Memory.read]
  generalize Memory.byte m a = p
  generalize Memory.byte m (a + 1) = q
  apply BitVec.eq_of_getLsbD_eq
  intro i hi
  simp only [BitVec.getLsbD_append, BitVec.getLsbD_or, BitVec.getLsbD_shiftLeft, BitVec.getLsbD_setWidth]
  interval_cases i <;> simp

/-- One byte read. -/
theorem Memory.read_one (m : Memory) (a : Nat) : Memory.read m a 1 = (Memory.byte m a).setWidth 32 := by
  simp [Memory.read]

/-- A read of the flat array gives the bytes in the claims' order: the byte at the lowest address is the least
significant (R55, R56). -/
theorem Memory.read_eq_rawFlat (s : State) (addr : Word) (n : Width) :
    Memory.read s.mem addr.toNat n.bytes = rawFlat s addr n := by
  cases n
  · exact Memory.read_one _ _
  · exact Memory.read_two _ _
  · exact Memory.read_four _ _

/-! ## The fetch -/

/-- A fetch from the flat array reads the four bytes at the pc and changes nothing (40_engine_cycle.md R112). -/
theorem State.fetch_flat {s : State} (h : FlatAccess s.cfg s.pc 4) : s.fetch = .ok (rawFlat s s.pc .word, s) := by
  rw [State.fetch, State.memRead_flat ((flatAccess_iff (by decide)).mp h), ← Memory.read_eq_rawFlat]

/-- A step whose fetch is from the flat array runs the word it reads. -/
theorem step_flat {s : State} (hc : configOk s.cfg = true) (hr : s.runState = .running) (h : FlatAccess s.cfg s.pc 4) :
    step s = s.begin.execWord (rawFlat s s.pc .word) := by
  have hf : s.begin.fetch = .ok (rawFlat s s.pc .word, s.begin) := State.fetch_flat (s := s.begin) h
  unfold step
  rw [if_pos hc, hr, hf]

end Sys2Proof.Machine
end

