-- ==== Sys2Proof/Laws/Decode.lean ====
section
/-! SUPPORT. Laws of the fields of an encoded word and of the matching test: every later proof about decoding and
encoding cites these and does not unfold a layout. -/

namespace Sys2Proof

/-! ## The bits a row fixes -/

@[simp] theorem and_0000007f_encodeR (f7 : BitVec 7) (rs2 rs1 : RegId) (f3 : BitVec 3) (rd : RegId) (op : BitVec 7) :
    encodeR f7 rs2 rs1 f3 rd op &&& 0x0000007f#32 = 0#25 ++ op := by
  apply BitVec.eq_of_getLsbD_eq
  intro i hi
  simp only [encodeR, BitVec.getLsbD_and, BitVec.getLsbD_append]
  interval_cases i <;> simp

@[simp] theorem and_0000007f_encodeI (imm : BitVec 12) (rs1 : RegId) (f3 : BitVec 3) (rd : RegId) (op : BitVec 7) :
    encodeI imm rs1 f3 rd op &&& 0x0000007f#32 = 0#25 ++ op := by
  apply BitVec.eq_of_getLsbD_eq
  intro i hi
  simp only [encodeI, BitVec.getLsbD_and, BitVec.getLsbD_append]
  interval_cases i <;> simp

@[simp] theorem and_0000007f_encodeS (imm : BitVec 12) (rs2 rs1 : RegId) (f3 : BitVec 3) (op : BitVec 7) :
    encodeS imm rs2 rs1 f3 op &&& 0x0000007f#32 = 0#25 ++ op := by
  apply BitVec.eq_of_getLsbD_eq
  intro i hi
  simp only [encodeS, BitVec.getLsbD_and, BitVec.getLsbD_append, BitVec.getLsbD_extractLsb']
  interval_cases i <;> simp

@[simp] theorem and_0000007f_encodeB (imm : BitVec 13) (rs2 rs1 : RegId) (f3 : BitVec 3) (op : BitVec 7) :
    encodeB imm rs2 rs1 f3 op &&& 0x0000007f#32 = 0#25 ++ op := by
  apply BitVec.eq_of_getLsbD_eq
  intro i hi
  simp only [encodeB, BitVec.getLsbD_and, BitVec.getLsbD_append, BitVec.getLsbD_extractLsb']
  interval_cases i <;> simp

@[simp] theorem and_0000007f_encodeJ (imm : BitVec 21) (rd : RegId) (op : BitVec 7) :
    encodeJ imm rd op &&& 0x0000007f#32 = 0#25 ++ op := by
  apply BitVec.eq_of_getLsbD_eq
  intro i hi
  simp only [encodeJ, BitVec.getLsbD_and, BitVec.getLsbD_append, BitVec.getLsbD_extractLsb']
  interval_cases i <;> simp

@[simp] theorem and_0000007f_encodeU (imm : BitVec 20) (rd : RegId) (op : BitVec 7) :
    encodeU imm rd op &&& 0x0000007f#32 = 0#25 ++ op := by
  apply BitVec.eq_of_getLsbD_eq
  intro i hi
  simp only [encodeU, BitVec.getLsbD_and, BitVec.getLsbD_append]
  interval_cases i <;> simp

@[simp] theorem and_0000707f_encodeR (f7 : BitVec 7) (rs2 rs1 : RegId) (f3 : BitVec 3) (rd : RegId) (op : BitVec 7) :
    encodeR f7 rs2 rs1 f3 rd op &&& 0x0000707f#32 = 0#17 ++ f3 ++ 0#5 ++ op := by
  apply BitVec.eq_of_getLsbD_eq
  intro i hi
  simp only [encodeR, BitVec.getLsbD_and, BitVec.getLsbD_append]
  interval_cases i <;> simp

@[simp] theorem and_0000707f_encodeI (imm : BitVec 12) (rs1 : RegId) (f3 : BitVec 3) (rd : RegId) (op : BitVec 7) :
    encodeI imm rs1 f3 rd op &&& 0x0000707f#32 = 0#17 ++ f3 ++ 0#5 ++ op := by
  apply BitVec.eq_of_getLsbD_eq
  intro i hi
  simp only [encodeI, BitVec.getLsbD_and, BitVec.getLsbD_append]
  interval_cases i <;> simp

@[simp] theorem and_0000707f_encodeS (imm : BitVec 12) (rs2 rs1 : RegId) (f3 : BitVec 3) (op : BitVec 7) :
    encodeS imm rs2 rs1 f3 op &&& 0x0000707f#32 = 0#17 ++ f3 ++ 0#5 ++ op := by
  apply BitVec.eq_of_getLsbD_eq
  intro i hi
  simp only [encodeS, BitVec.getLsbD_and, BitVec.getLsbD_append, BitVec.getLsbD_extractLsb']
  interval_cases i <;> simp

@[simp] theorem and_0000707f_encodeB (imm : BitVec 13) (rs2 rs1 : RegId) (f3 : BitVec 3) (op : BitVec 7) :
    encodeB imm rs2 rs1 f3 op &&& 0x0000707f#32 = 0#17 ++ f3 ++ 0#5 ++ op := by
  apply BitVec.eq_of_getLsbD_eq
  intro i hi
  simp only [encodeB, BitVec.getLsbD_and, BitVec.getLsbD_append, BitVec.getLsbD_extractLsb']
  interval_cases i <;> simp

@[simp] theorem and_fe00707f_encodeR (f7 : BitVec 7) (rs2 rs1 : RegId) (f3 : BitVec 3) (rd : RegId) (op : BitVec 7) :
    encodeR f7 rs2 rs1 f3 rd op &&& 0xfe00707f#32 = f7 ++ 0#10 ++ f3 ++ 0#5 ++ op := by
  apply BitVec.eq_of_getLsbD_eq
  intro i hi
  simp only [encodeR, BitVec.getLsbD_and, BitVec.getLsbD_append]
  interval_cases i <;> simp

/-! ## Fields of an encoded word -/

@[simp] theorem rdOf_encodeR (f7 : BitVec 7) (rs2 rs1 : RegId) (f3 : BitVec 3) (rd : RegId) (op : BitVec 7) :
    rdOf (encodeR f7 rs2 rs1 f3 rd op) = rd := by
  apply BitVec.eq_of_getLsbD_eq
  intro i hi
  simp only [rdOf, encodeR, BitVec.getLsbD_extractLsb', BitVec.getLsbD_append]
  interval_cases i <;> simp

@[simp] theorem rdOf_encodeI (imm : BitVec 12) (rs1 : RegId) (f3 : BitVec 3) (rd : RegId) (op : BitVec 7) :
    rdOf (encodeI imm rs1 f3 rd op) = rd := by
  apply BitVec.eq_of_getLsbD_eq
  intro i hi
  simp only [rdOf, encodeI, BitVec.getLsbD_extractLsb', BitVec.getLsbD_append]
  interval_cases i <;> simp

@[simp] theorem rdOf_encodeJ (imm : BitVec 21) (rd : RegId) (op : BitVec 7) :
    rdOf (encodeJ imm rd op) = rd := by
  apply BitVec.eq_of_getLsbD_eq
  intro i hi
  simp only [rdOf, encodeJ, BitVec.getLsbD_extractLsb', BitVec.getLsbD_append]
  interval_cases i <;> simp

@[simp] theorem rdOf_encodeU (imm : BitVec 20) (rd : RegId) (op : BitVec 7) :
    rdOf (encodeU imm rd op) = rd := by
  apply BitVec.eq_of_getLsbD_eq
  intro i hi
  simp only [rdOf, encodeU, BitVec.getLsbD_extractLsb', BitVec.getLsbD_append]
  interval_cases i <;> simp

@[simp] theorem rs1Of_encodeR (f7 : BitVec 7) (rs2 rs1 : RegId) (f3 : BitVec 3) (rd : RegId) (op : BitVec 7) :
    rs1Of (encodeR f7 rs2 rs1 f3 rd op) = rs1 := by
  apply BitVec.eq_of_getLsbD_eq
  intro i hi
  simp only [rs1Of, encodeR, BitVec.getLsbD_extractLsb', BitVec.getLsbD_append]
  interval_cases i <;> simp

@[simp] theorem rs1Of_encodeI (imm : BitVec 12) (rs1 : RegId) (f3 : BitVec 3) (rd : RegId) (op : BitVec 7) :
    rs1Of (encodeI imm rs1 f3 rd op) = rs1 := by
  apply BitVec.eq_of_getLsbD_eq
  intro i hi
  simp only [rs1Of, encodeI, BitVec.getLsbD_extractLsb', BitVec.getLsbD_append]
  interval_cases i <;> simp

@[simp] theorem rs1Of_encodeS (imm : BitVec 12) (rs2 rs1 : RegId) (f3 : BitVec 3) (op : BitVec 7) :
    rs1Of (encodeS imm rs2 rs1 f3 op) = rs1 := by
  apply BitVec.eq_of_getLsbD_eq
  intro i hi
  simp only [rs1Of, encodeS, BitVec.getLsbD_extractLsb', BitVec.getLsbD_append]
  interval_cases i <;> simp

@[simp] theorem rs1Of_encodeB (imm : BitVec 13) (rs2 rs1 : RegId) (f3 : BitVec 3) (op : BitVec 7) :
    rs1Of (encodeB imm rs2 rs1 f3 op) = rs1 := by
  apply BitVec.eq_of_getLsbD_eq
  intro i hi
  simp only [rs1Of, encodeB, BitVec.getLsbD_extractLsb', BitVec.getLsbD_append]
  interval_cases i <;> simp

@[simp] theorem rs2Of_encodeR (f7 : BitVec 7) (rs2 rs1 : RegId) (f3 : BitVec 3) (rd : RegId) (op : BitVec 7) :
    rs2Of (encodeR f7 rs2 rs1 f3 rd op) = rs2 := by
  apply BitVec.eq_of_getLsbD_eq
  intro i hi
  simp only [rs2Of, encodeR, BitVec.getLsbD_extractLsb', BitVec.getLsbD_append]
  interval_cases i <;> simp

@[simp] theorem rs2Of_encodeS (imm : BitVec 12) (rs2 rs1 : RegId) (f3 : BitVec 3) (op : BitVec 7) :
    rs2Of (encodeS imm rs2 rs1 f3 op) = rs2 := by
  apply BitVec.eq_of_getLsbD_eq
  intro i hi
  simp only [rs2Of, encodeS, BitVec.getLsbD_extractLsb', BitVec.getLsbD_append]
  interval_cases i <;> simp

@[simp] theorem rs2Of_encodeB (imm : BitVec 13) (rs2 rs1 : RegId) (f3 : BitVec 3) (op : BitVec 7) :
    rs2Of (encodeB imm rs2 rs1 f3 op) = rs2 := by
  apply BitVec.eq_of_getLsbD_eq
  intro i hi
  simp only [rs2Of, encodeB, BitVec.getLsbD_extractLsb', BitVec.getLsbD_append]
  interval_cases i <;> simp

@[simp] theorem shamtOf_encodeR (f7 : BitVec 7) (rs2 rs1 : RegId) (f3 : BitVec 3) (rd : RegId) (op : BitVec 7) :
    shamtOf (encodeR f7 rs2 rs1 f3 rd op) = rs2 := by
  apply BitVec.eq_of_getLsbD_eq
  intro i hi
  simp only [shamtOf, encodeR, BitVec.getLsbD_extractLsb', BitVec.getLsbD_append]
  interval_cases i <;> simp

@[simp] theorem csrOf_encodeI (imm : BitVec 12) (rs1 : RegId) (f3 : BitVec 3) (rd : RegId) (op : BitVec 7) :
    csrOf (encodeI imm rs1 f3 rd op) = imm := by
  apply BitVec.eq_of_getLsbD_eq
  intro i hi
  simp only [csrOf, encodeI, BitVec.getLsbD_extractLsb', BitVec.getLsbD_append]
  interval_cases i <;> simp

@[simp] theorem immIOf_encodeI (imm : BitVec 12) (rs1 : RegId) (f3 : BitVec 3) (rd : RegId) (op : BitVec 7) :
    immIOf (encodeI imm rs1 f3 rd op) = imm := by
  apply BitVec.eq_of_getLsbD_eq
  intro i hi
  simp only [immIOf, encodeI, BitVec.getLsbD_extractLsb', BitVec.getLsbD_append]
  interval_cases i <;> simp

@[simp] theorem immSOf_encodeS (imm : BitVec 12) (rs2 rs1 : RegId) (f3 : BitVec 3) (op : BitVec 7) :
    immSOf (encodeS imm rs2 rs1 f3 op) = imm := by
  apply BitVec.eq_of_getLsbD_eq
  intro i hi
  simp only [immSOf, encodeS, BitVec.getLsbD_extractLsb', BitVec.getLsbD_append]
  interval_cases i <;> simp

@[simp] theorem immUOf_encodeU (imm : BitVec 20) (rd : RegId) (op : BitVec 7) :
    immUOf (encodeU imm rd op) = imm := by
  apply BitVec.eq_of_getLsbD_eq
  intro i hi
  simp only [immUOf, encodeU, BitVec.getLsbD_extractLsb', BitVec.getLsbD_append]
  interval_cases i <;> simp

@[simp] theorem immBOf_encodeB (imm : BitVec 13) (rs2 rs1 : RegId) (f3 : BitVec 3) (op : BitVec 7) (h : evenOffset imm = true) :
    immBOf (encodeB imm rs2 rs1 f3 op) = imm := by
  apply BitVec.eq_of_getLsbD_eq
  intro i hi
  simp only [immBOf, encodeB, BitVec.getLsbD_extractLsb', BitVec.getLsbD_append]
  interval_cases i <;> simp
  simpa [evenOffset] using h

@[simp] theorem immJOf_encodeJ (imm : BitVec 21) (rd : RegId) (op : BitVec 7) (h : evenOffset imm = true) :
    immJOf (encodeJ imm rd op) = imm := by
  apply BitVec.eq_of_getLsbD_eq
  intro i hi
  simp only [immJOf, encodeJ, BitVec.getLsbD_extractLsb', BitVec.getLsbD_append]
  interval_cases i <;> simp
  simpa [evenOffset] using h

/-! ## The matching test -/

/-- A row with shift 0 tests the word under its mask (R93, second form). -/
@[simp] theorem matchTest_zero (key mask w : Word) : matchTest key mask 0 w = (w &&& mask == key) := by
  simp [matchTest]

/-- A test fails when the tested word disagrees with the row's key under a smaller mask `n`. -/
theorem and_beq_eq_false {w m k : Word} (n c : Word) (hc : w &&& n = c) (hm : m &&& n = n) (hk : k &&& n ≠ c) :
    (w &&& m == k) = false := by
  apply beq_false_of_ne
  rintro rfl
  rw [BitVec.and_assoc, hm] at hk
  exact hk hc

/-- Format R: a row whose `funct3` or opcode differs does not match. -/
theorem encodeR_and_beq {f7 rs2 rs1 f3 rd op} {m k : Word} (hm : m &&& 0x707f#32 = 0x707f#32)
    (hk : k &&& 0x707f#32 ≠ 0#17 ++ f3 ++ 0#5 ++ op) : (encodeR f7 rs2 rs1 f3 rd op &&& m == k) = false :=
  and_beq_eq_false 0x707f#32 _ (and_0000707f_encodeR ..) hm hk

/-- Format I: a row whose `funct3` or opcode differs does not match. -/
theorem encodeI_and_beq {imm rs1 f3 rd op} {m k : Word} (hm : m &&& 0x707f#32 = 0x707f#32)
    (hk : k &&& 0x707f#32 ≠ 0#17 ++ f3 ++ 0#5 ++ op) : (encodeI imm rs1 f3 rd op &&& m == k) = false :=
  and_beq_eq_false 0x707f#32 _ (and_0000707f_encodeI ..) hm hk

/-- Format S: a row whose `funct3` or opcode differs does not match. -/
theorem encodeS_and_beq {imm rs2 rs1 f3 op} {m k : Word} (hm : m &&& 0x707f#32 = 0x707f#32)
    (hk : k &&& 0x707f#32 ≠ 0#17 ++ f3 ++ 0#5 ++ op) : (encodeS imm rs2 rs1 f3 op &&& m == k) = false :=
  and_beq_eq_false 0x707f#32 _ (and_0000707f_encodeS ..) hm hk

/-- Format B: a row whose `funct3` or opcode differs does not match. -/
theorem encodeB_and_beq {imm rs2 rs1 f3 op} {m k : Word} (hm : m &&& 0x707f#32 = 0x707f#32)
    (hk : k &&& 0x707f#32 ≠ 0#17 ++ f3 ++ 0#5 ++ op) : (encodeB imm rs2 rs1 f3 op &&& m == k) = false :=
  and_beq_eq_false 0x707f#32 _ (and_0000707f_encodeB ..) hm hk

/-- Format R: a row whose opcode differs does not match. -/
theorem encodeR_and_beq_opcode {f7 rs2 rs1 f3 rd op} {m k : Word} (hm : m &&& 0x7f#32 = 0x7f#32)
    (hk : k &&& 0x7f#32 ≠ 0#25 ++ op) : (encodeR f7 rs2 rs1 f3 rd op &&& m == k) = false :=
  and_beq_eq_false 0x7f#32 _ (and_0000007f_encodeR ..) hm hk

/-- Format I: a row whose opcode differs does not match. -/
theorem encodeI_and_beq_opcode {imm rs1 f3 rd op} {m k : Word} (hm : m &&& 0x7f#32 = 0x7f#32)
    (hk : k &&& 0x7f#32 ≠ 0#25 ++ op) : (encodeI imm rs1 f3 rd op &&& m == k) = false :=
  and_beq_eq_false 0x7f#32 _ (and_0000007f_encodeI ..) hm hk

/-- Format S: a row whose opcode differs does not match. -/
theorem encodeS_and_beq_opcode {imm rs2 rs1 f3 op} {m k : Word} (hm : m &&& 0x7f#32 = 0x7f#32)
    (hk : k &&& 0x7f#32 ≠ 0#25 ++ op) : (encodeS imm rs2 rs1 f3 op &&& m == k) = false :=
  and_beq_eq_false 0x7f#32 _ (and_0000007f_encodeS ..) hm hk

/-- Format B: a row whose opcode differs does not match. -/
theorem encodeB_and_beq_opcode {imm rs2 rs1 f3 op} {m k : Word} (hm : m &&& 0x7f#32 = 0x7f#32)
    (hk : k &&& 0x7f#32 ≠ 0#25 ++ op) : (encodeB imm rs2 rs1 f3 op &&& m == k) = false :=
  and_beq_eq_false 0x7f#32 _ (and_0000007f_encodeB ..) hm hk

/-- Format J: a row whose opcode differs does not match. -/
theorem encodeJ_and_beq_opcode {imm rd op} {m k : Word} (hm : m &&& 0x7f#32 = 0x7f#32)
    (hk : k &&& 0x7f#32 ≠ 0#25 ++ op) : (encodeJ imm rd op &&& m == k) = false :=
  and_beq_eq_false 0x7f#32 _ (and_0000007f_encodeJ ..) hm hk

/-- Format U: a row whose opcode differs does not match. -/
theorem encodeU_and_beq_opcode {imm rd op} {m k : Word} (hm : m &&& 0x7f#32 = 0x7f#32)
    (hk : k &&& 0x7f#32 ≠ 0#25 ++ op) : (encodeU imm rd op &&& m == k) = false :=
  and_beq_eq_false 0x7f#32 _ (and_0000007f_encodeU ..) hm hk

/-- The catch-all's test succeeds on every word (R93, R95). -/
@[simp] theorem matchTest_catchAll (w : Word) : matchTest 0#32 0#32 32 w = true := by
  simp [matchTest]

@[simp] theorem matchIn_nil (w : Word) : matchIn [] w = none := rfl

@[simp] theorem matchIn_cons (r : Row) (rs : List Row) (w : Word) :
    matchIn (r :: rs) w = if r.test w then some r else matchIn rs w := rfl

/-- A match in a joined table is the match in its first part, or else in the second (R94). -/
theorem matchIn_append (xs ys : List Row) (w : Word) :
    matchIn (xs ++ ys) w = (matchIn xs w).or (matchIn ys w) := by
  induction xs with
  | nil => simp
  | cons r rs ih =>
    simp only [List.cons_append, matchIn_cons, ih]
    split <;> simp

/-- The row a match selects passes its own test and stands in the table. -/
theorem matchIn_some {rs : List Row} {w : Word} {r : Row} (h : matchIn rs w = some r) :
    r ∈ rs ∧ r.test w = true := by
  induction rs with
  | nil => cases h
  | cons q qs ih =>
    rw [matchIn_cons] at h
    split at h
    · cases h
      exact ⟨List.mem_cons_self, by assumption⟩
    · exact ⟨List.mem_cons_of_mem _ (ih h).1, (ih h).2⟩

/-- No row is selected exactly when no row of the table passes its test. -/
theorem matchIn_none {rs : List Row} {w : Word} :
    matchIn rs w = none ↔ ∀ r ∈ rs, r.test w = false := by
  induction rs with
  | nil => simp
  | cons q qs ih =>
    rw [matchIn_cons]
    cases h : q.test w <;> simp [h, ih]

end Sys2Proof
end

