-- ==== Sys2Proof/Laws/Exec.lean ====
section
/-! SUPPORT. What an instruction can do, said once: the effects of the shared ends of a step in the claims' own words, and
one inversion lemma over all 51 constructors, which later proofs cite and do not unfold `exec`. -/

namespace Sys2Proof.Machine

/-! ## The shared ends of a step -/

/-- `x[rd] <- v`, then commit at `target`. -/
theorem State.writesReg_commit (s : State) (rd : RegId) (v target : Word) :
    WritesReg s ((s.setReg rd v).commit target) rd v target where
  regs := ⟨fun r => s.reg_setReg_commit r rd v target, rfl⟩
  pc := rfl
  mem _ := rfl
  csrs k := by simp
  control := ⟨rfl, rfl, rfl, rfl, rfl, rfl, rfl⟩

/-- Commit at `target` alone. -/
theorem State.onlyJumps_commit (s : State) (target : Word) : OnlyJumps s (s.commit target) target where
  regs := ⟨fun r => s.reg_commit r target, rfl⟩
  pc := rfl
  mem _ := rfl
  csrs k := by simp
  control := ⟨rfl, rfl, rfl, rfl, rfl, rfl, rfl⟩

/-- A fatal error (40_engine_cycle.md R121). -/
theorem State.aborted_abort (s : State) (f : Fatal) : Aborted s (s.abort f) f.cls f.info where
  fault := rfl
  runState := rfl
  regs := ⟨fun _ => rfl, rfl⟩
  pc := rfl
  mem _ := rfl
  csrs k := by simp
  trapState := rfl
  cfg := rfl
  events := rfl
  draws := rfl

/-- The empty action advances the pc, and `x[0]` is 0 at its commit; it does nothing else (92_eei_decisions.md D16). -/
theorem exec_empty (w : Word) (s : State) : exec (Action.build w .empty) s = .next (s.commit s.snpc) := by
  simp [Action.build, exec, execAddi, State.writeNext, State.setReg, State.commit, State.snpc]

/-- The empty action names no register a machine could lack. -/
theorem registersExist_empty {c : Config} (h : 1 ≤ c.nreg) (w : Word) :
    registersExist c (Action.build w .empty) = true := by
  simpa [registersExist, Action.build, sources, destination] using Nat.lt_of_lt_of_le Nat.zero_lt_one h

/-! ## Every instruction -/

/-- The ways an instruction can end in a next state. -/
inductive Ending (i : Instr) (s : State) : State → Prop where
  /-- A fatal error. -/
  | aborted (f : Fatal) : Ending i s (s.abort f)
  /-- A load that got its value. -/
  | loaded (u : State) (rd : RegId) (addr v w : Word) (n : Width) (hi : isLoad i = true) (hd : destination i = some rd)
      (hr : s.memRead addr n = .ok (w, u)) : Ending i s ((u.setReg rd v).commit u.snpc)
  /-- A store that was made. -/
  | stored (u : State) (addr v : Word) (n : Width) (hi : isStore i = true) (hw : s.memWrite addr n v = .ok u) :
      Ending i s (u.commit s.snpc)
  /-- An instruction that writes one register and goes on at `pc + 4`. -/
  | wrote (rd : RegId) (v : Word) (hd : destination i = some rd) : Ending i s ((s.setReg rd v).commit s.snpc)
  /-- JAL or JALR. -/
  | linked (rd : RegId) (target : Word) (hd : destination i = some rd)
      (hi : (∃ imm, i = .jal rd imm) ∨ ∃ rs1 imm, i = .jalr rd rs1 imm) : Ending i s ((s.setReg rd s.snpc).commit target)
  /-- A branch that is not taken. -/
  | fell : Ending i s (s.commit s.snpc)
  /-- A taken branch. -/
  | branched (target : Word) (hb : ∃ c imm, branchOf s i = some (c, imm) ∧ c) : Ending i s (s.commit target)
  /-- A CSR instruction at an address that names a CSR. -/
  | csr (rd : RegId) (a : CsrAddr) (k : Csr) (v : Word) (hd : destination i = some rd) (hk : csrAt s.cfg a = some k)
      (hi : (∃ rs1, i = .csrrw rd rs1 a) ∨ ∃ rs1, i = .csrrs rd rs1 a) :
      Ending i s (((s.setCsr k v).setReg rd (s.csr k)).commit s.snpc)
  /-- ECALL. -/
  | called (hi : i = .ecall) : Ending i s ((s.trap s.cfg.causeEcall).2.commit s.mtvec)
  /-- EBREAK with `BREAK_TRAPS`. -/
  | broke (hi : i = .ebreak) (hb : s.cfg.breakTraps = true) :
      Ending i s ((s.trap s.cfg.causeBreakpoint).2.commit s.mtvec).stop
  /-- EBREAK without it. -/
  | stopped (hi : i = .ebreak) (hb : s.cfg.breakTraps = false) : Ending i s (s.commit s.snpc).stop
  /-- MRET. -/
  | returned (hi : i = .mret) : Ending i s (s.returnFromTrap.2.commit s.mepc)

/-- A load's endings. -/
theorem Ending.of_load {i : Instr} {s t : State} {rd : RegId} {addr : Word} {n : Width} {extend : Word → Word}
    (hi : isLoad i = true) (hd : destination i = some rd) (h : s.load rd addr n extend = .next t) : Ending i s t := by
  rcases s.load_cases rd addr n extend with ⟨v, u, hu, e⟩ | ⟨f, -, e⟩ <;> rw [e] at h <;> cases h
  · exact .loaded u rd addr _ v n hi hd hu
  · exact .aborted f

/-- A store's endings. -/
theorem Ending.of_store {i : Instr} {s t : State} {addr v : Word} {n : Width} (hi : isStore i = true)
    (h : s.store addr n v = .next t) : Ending i s t := by
  rcases s.store_cases addr n v with ⟨u, hu, e⟩ | ⟨f, -, e⟩ <;> rw [e] at h <;> cases h
  · exact .stored u addr v n hi hu
  · exact .aborted f

/-- A branch's endings. -/
theorem Ending.of_branch {i : Instr} {s t : State} {taken : Bool} {imm : BitVec 13} {c : Prop}
    (hb : branchOf s i = some (c, imm)) (hc : taken = true → c) (h : s.branch taken imm = .next t) : Ending i s t := by
  simp only [State.branch] at h
  cases h
  cases taken
  · exact .fell
  · exact .branched _ ⟨c, imm, hb, hc rfl⟩

/-- Every next state of an instruction is one of the endings. -/
theorem Ending.of_exec {i : Instr} {s t : State} (h : exec i s = .next t) : Ending i s t := by
  cases i
  case lb | lh | lw | lbu | lhu => exact .of_load rfl rfl h
  case sb | sh | sw => exact .of_store rfl h
  case beq | bne | blt | bge | bltu | bgeu =>
    exact .of_branch rfl (by simp [ltSigned, ltUnsigned]) h
  case jal rd imm => cases h; exact .linked rd _ rfl (.inl ⟨imm, rfl⟩)
  case jalr rd rs1 imm => cases h; exact .linked rd _ rfl (.inr ⟨rs1, imm, rfl⟩)
  case csrrw rd rs1 a =>
    rcases s.csrUpdate_cases rd a (fun _ => s.reg rs1) with ⟨k, hk, e⟩ | ⟨-, e⟩ <;>
      rw [exec, execCsrrw, e] at h <;> cases h
    · exact .csr rd a k _ rfl hk (.inl ⟨rs1, rfl⟩)
    · exact .aborted _
  case csrrs rd rs1 a =>
    rcases s.csrUpdate_cases rd a (fun old => old ||| s.reg rs1) with ⟨k, hk, e⟩ | ⟨-, e⟩ <;>
      rw [exec, execCsrrs, e] at h <;> cases h
    · exact .csr rd a k _ rfl hk (.inr ⟨rs1, rfl⟩)
    · exact .aborted _
  case ecall => cases h; exact .called rfl
  case ebreak =>
    rw [exec, execEbreak] at h
    split at h <;> rename_i hb <;> cases h
    · exact .broke rfl hb
    · exact .stopped rfl (by simpa using hb)
  case mret => cases h; exact .returned rfl
  case inv => cases h; exact .aborted _
  all_goals
    cases h
    exact .wrote _ _ rfl

/-- The address of a CSR is the one its parameter names (10_state.md R29). -/
theorem csrAt_eq_some {c : Config} {a : CsrAddr} {k : Csr} (h : csrAt c a = some k) : a = csrNamed c k := by
  unfold csrAt at h
  split at h
  · cases h; assumption
  split at h
  · cases h; assumption
  split at h
  · cases h; assumption
  split at h
  · cases h; assumption
  · cases h

/-- An accepted configuration names each CSR by its parameter (R29, log 9). -/
theorem csrAt_csrNamed {c : Config} (h : configOk c = true) (k : Csr) : csrAt c (csrNamed c k) = some k := by
  simp only [configOk, Bool.and_eq_true, decide_eq_true_eq] at h
  obtain ⟨-, h1, h2, h3, h4, h5, h6⟩ := h
  cases k <;> simp [csrAt, csrNamed, h1.symm, h2.symm, h3.symm, h4.symm, h5.symm, h6.symm]

/-- An address that no parameter names is no CSR (R34). -/
theorem csrAt_eq_none {c : Config} {a : CsrAddr} (h : ∀ k, a ≠ csrNamed c k) : csrAt c a = none := by
  cases hk : csrAt c a with
  | none => rfl
  | some k => exact absurd (csrAt_eq_some hk) (h k)

end Sys2Proof.Machine
end

