-- ==== Sys2Proof/Laws/PerInstr.lean ====
section
/-! SUPPORT. The family EncodeRow: the word of a well-formed instruction of rows 1 to 50 carries the fixed bits of one of
those rows, and the word of a well-formed `inv` carries none's (30_encoding.md R95, R97). -/

namespace Sys2Proof.Laws

-- One proof at a time: 51 at once need more threads than the sandbox has room for.
set_option Elab.async false

/-- The instruction is the catch-all. -/
def isCatchAll : Instr → Bool
  | .inv _ => true
  | _ => false

/-- The word of `i` matches a `(match, mask)` of rows 1 to 50 exactly when `i` is not the catch-all. -/
def EncodeRow.Statement (i : Instr) : Prop := i.wf = true → isDefinedWord (encode i) = !isCatchAll i

theorem EncodeRow.lui (rd : RegId) (imm : BitVec 20) : EncodeRow.Statement (.lui rd imm) := fun _ => by
  simp [isDefinedWord, definedRows, encode, isCatchAll]

theorem EncodeRow.auipc (rd : RegId) (imm : BitVec 20) : EncodeRow.Statement (.auipc rd imm) := fun _ => by
  simp [isDefinedWord, definedRows, encode, isCatchAll]

theorem EncodeRow.jal (rd : RegId) (imm : BitVec 21) : EncodeRow.Statement (.jal rd imm) := fun _ => by
  simp [isDefinedWord, definedRows, encode, isCatchAll]

theorem EncodeRow.jalr (rd rs1 : RegId) (imm : BitVec 12) : EncodeRow.Statement (.jalr rd rs1 imm) := fun _ => by
  simp [isDefinedWord, definedRows, encode, isCatchAll]

theorem EncodeRow.beq (rs1 rs2 : RegId) (imm : BitVec 13) : EncodeRow.Statement (.beq rs1 rs2 imm) := fun _ => by
  simp [isDefinedWord, definedRows, encode, isCatchAll]

theorem EncodeRow.bne (rs1 rs2 : RegId) (imm : BitVec 13) : EncodeRow.Statement (.bne rs1 rs2 imm) := fun _ => by
  simp [isDefinedWord, definedRows, encode, isCatchAll]

theorem EncodeRow.blt (rs1 rs2 : RegId) (imm : BitVec 13) : EncodeRow.Statement (.blt rs1 rs2 imm) := fun _ => by
  simp [isDefinedWord, definedRows, encode, isCatchAll]

theorem EncodeRow.bge (rs1 rs2 : RegId) (imm : BitVec 13) : EncodeRow.Statement (.bge rs1 rs2 imm) := fun _ => by
  simp [isDefinedWord, definedRows, encode, isCatchAll]

theorem EncodeRow.bltu (rs1 rs2 : RegId) (imm : BitVec 13) : EncodeRow.Statement (.bltu rs1 rs2 imm) := fun _ => by
  simp [isDefinedWord, definedRows, encode, isCatchAll]

theorem EncodeRow.bgeu (rs1 rs2 : RegId) (imm : BitVec 13) : EncodeRow.Statement (.bgeu rs1 rs2 imm) := fun _ => by
  simp [isDefinedWord, definedRows, encode, isCatchAll]

theorem EncodeRow.lb (rd rs1 : RegId) (imm : BitVec 12) : EncodeRow.Statement (.lb rd rs1 imm) := fun _ => by
  simp [isDefinedWord, definedRows, encode, isCatchAll]

theorem EncodeRow.lh (rd rs1 : RegId) (imm : BitVec 12) : EncodeRow.Statement (.lh rd rs1 imm) := fun _ => by
  simp [isDefinedWord, definedRows, encode, isCatchAll]

theorem EncodeRow.lw (rd rs1 : RegId) (imm : BitVec 12) : EncodeRow.Statement (.lw rd rs1 imm) := fun _ => by
  simp [isDefinedWord, definedRows, encode, isCatchAll]

theorem EncodeRow.lbu (rd rs1 : RegId) (imm : BitVec 12) : EncodeRow.Statement (.lbu rd rs1 imm) := fun _ => by
  simp [isDefinedWord, definedRows, encode, isCatchAll]

theorem EncodeRow.lhu (rd rs1 : RegId) (imm : BitVec 12) : EncodeRow.Statement (.lhu rd rs1 imm) := fun _ => by
  simp [isDefinedWord, definedRows, encode, isCatchAll]

theorem EncodeRow.sb (rs1 rs2 : RegId) (imm : BitVec 12) : EncodeRow.Statement (.sb rs1 rs2 imm) := fun _ => by
  simp [isDefinedWord, definedRows, encode, isCatchAll]

theorem EncodeRow.sh (rs1 rs2 : RegId) (imm : BitVec 12) : EncodeRow.Statement (.sh rs1 rs2 imm) := fun _ => by
  simp [isDefinedWord, definedRows, encode, isCatchAll]

theorem EncodeRow.sw (rs1 rs2 : RegId) (imm : BitVec 12) : EncodeRow.Statement (.sw rs1 rs2 imm) := fun _ => by
  simp [isDefinedWord, definedRows, encode, isCatchAll]

theorem EncodeRow.addi (rd rs1 : RegId) (imm : BitVec 12) : EncodeRow.Statement (.addi rd rs1 imm) := fun _ => by
  simp [isDefinedWord, definedRows, encode, isCatchAll]

theorem EncodeRow.slti (rd rs1 : RegId) (imm : BitVec 12) : EncodeRow.Statement (.slti rd rs1 imm) := fun _ => by
  simp [isDefinedWord, definedRows, encode, isCatchAll]

theorem EncodeRow.sltiu (rd rs1 : RegId) (imm : BitVec 12) : EncodeRow.Statement (.sltiu rd rs1 imm) := fun _ => by
  simp [isDefinedWord, definedRows, encode, isCatchAll]

theorem EncodeRow.xori (rd rs1 : RegId) (imm : BitVec 12) : EncodeRow.Statement (.xori rd rs1 imm) := fun _ => by
  simp [isDefinedWord, definedRows, encode, isCatchAll]

theorem EncodeRow.ori (rd rs1 : RegId) (imm : BitVec 12) : EncodeRow.Statement (.ori rd rs1 imm) := fun _ => by
  simp [isDefinedWord, definedRows, encode, isCatchAll]

theorem EncodeRow.andi (rd rs1 : RegId) (imm : BitVec 12) : EncodeRow.Statement (.andi rd rs1 imm) := fun _ => by
  simp [isDefinedWord, definedRows, encode, isCatchAll]

theorem EncodeRow.slli (rd rs1 : RegId) (shamt : BitVec 5) : EncodeRow.Statement (.slli rd rs1 shamt) := fun _ => by
  simp [isDefinedWord, definedRows, encode, isCatchAll]

theorem EncodeRow.srli (rd rs1 : RegId) (shamt : BitVec 5) : EncodeRow.Statement (.srli rd rs1 shamt) := fun _ => by
  simp [isDefinedWord, definedRows, encode, isCatchAll]

theorem EncodeRow.srai (rd rs1 : RegId) (shamt : BitVec 5) : EncodeRow.Statement (.srai rd rs1 shamt) := fun _ => by
  simp [isDefinedWord, definedRows, encode, isCatchAll]

theorem EncodeRow.add (rd rs1 rs2 : RegId) : EncodeRow.Statement (.add rd rs1 rs2) := fun _ => by
  simp [isDefinedWord, definedRows, encode, isCatchAll]

theorem EncodeRow.sub (rd rs1 rs2 : RegId) : EncodeRow.Statement (.sub rd rs1 rs2) := fun _ => by
  simp [isDefinedWord, definedRows, encode, isCatchAll]

theorem EncodeRow.sll (rd rs1 rs2 : RegId) : EncodeRow.Statement (.sll rd rs1 rs2) := fun _ => by
  simp [isDefinedWord, definedRows, encode, isCatchAll]

theorem EncodeRow.slt (rd rs1 rs2 : RegId) : EncodeRow.Statement (.slt rd rs1 rs2) := fun _ => by
  simp [isDefinedWord, definedRows, encode, isCatchAll]

theorem EncodeRow.sltu (rd rs1 rs2 : RegId) : EncodeRow.Statement (.sltu rd rs1 rs2) := fun _ => by
  simp [isDefinedWord, definedRows, encode, isCatchAll]

theorem EncodeRow.xor (rd rs1 rs2 : RegId) : EncodeRow.Statement (.xor rd rs1 rs2) := fun _ => by
  simp [isDefinedWord, definedRows, encode, isCatchAll]

theorem EncodeRow.srl (rd rs1 rs2 : RegId) : EncodeRow.Statement (.srl rd rs1 rs2) := fun _ => by
  simp [isDefinedWord, definedRows, encode, isCatchAll]

theorem EncodeRow.sra (rd rs1 rs2 : RegId) : EncodeRow.Statement (.sra rd rs1 rs2) := fun _ => by
  simp [isDefinedWord, definedRows, encode, isCatchAll]

theorem EncodeRow.or (rd rs1 rs2 : RegId) : EncodeRow.Statement (.or rd rs1 rs2) := fun _ => by
  simp [isDefinedWord, definedRows, encode, isCatchAll]

theorem EncodeRow.and (rd rs1 rs2 : RegId) : EncodeRow.Statement (.and rd rs1 rs2) := fun _ => by
  simp [isDefinedWord, definedRows, encode, isCatchAll]

theorem EncodeRow.mul (rd rs1 rs2 : RegId) : EncodeRow.Statement (.mul rd rs1 rs2) := fun _ => by
  simp [isDefinedWord, definedRows, encode, isCatchAll]

theorem EncodeRow.mulh (rd rs1 rs2 : RegId) : EncodeRow.Statement (.mulh rd rs1 rs2) := fun _ => by
  simp [isDefinedWord, definedRows, encode, isCatchAll]

theorem EncodeRow.mulhsu (rd rs1 rs2 : RegId) : EncodeRow.Statement (.mulhsu rd rs1 rs2) := fun _ => by
  simp [isDefinedWord, definedRows, encode, isCatchAll]

theorem EncodeRow.mulhu (rd rs1 rs2 : RegId) : EncodeRow.Statement (.mulhu rd rs1 rs2) := fun _ => by
  simp [isDefinedWord, definedRows, encode, isCatchAll]

theorem EncodeRow.div (rd rs1 rs2 : RegId) : EncodeRow.Statement (.div rd rs1 rs2) := fun _ => by
  simp [isDefinedWord, definedRows, encode, isCatchAll]

theorem EncodeRow.divu (rd rs1 rs2 : RegId) : EncodeRow.Statement (.divu rd rs1 rs2) := fun _ => by
  simp [isDefinedWord, definedRows, encode, isCatchAll]

theorem EncodeRow.rem (rd rs1 rs2 : RegId) : EncodeRow.Statement (.rem rd rs1 rs2) := fun _ => by
  simp [isDefinedWord, definedRows, encode, isCatchAll]

theorem EncodeRow.remu (rd rs1 rs2 : RegId) : EncodeRow.Statement (.remu rd rs1 rs2) := fun _ => by
  simp [isDefinedWord, definedRows, encode, isCatchAll]

theorem EncodeRow.csrrw (rd rs1 : RegId) (csr : CsrAddr) : EncodeRow.Statement (.csrrw rd rs1 csr) := fun _ => by
  simp [isDefinedWord, definedRows, encode, isCatchAll]

theorem EncodeRow.csrrs (rd rs1 : RegId) (csr : CsrAddr) : EncodeRow.Statement (.csrrs rd rs1 csr) := fun _ => by
  simp [isDefinedWord, definedRows, encode, isCatchAll]

theorem EncodeRow.ecall : EncodeRow.Statement .ecall := fun _ => by
  decide

theorem EncodeRow.ebreak : EncodeRow.Statement .ebreak := fun _ => by
  decide

theorem EncodeRow.mret : EncodeRow.Statement .mret := fun _ => by
  decide

theorem EncodeRow.inv (inst : Word) : EncodeRow.Statement (.inv inst) := fun h => by
  simpa [isCatchAll, encode, Instr.wf] using h

end Sys2Proof.Laws
end

