-- ==== Sys2Proof/Laws/Table.lean ====
section
/-! SUPPORT. The parameters that are tables: which pattern tables are accepted and what a match in one selects (30_encoding.md
R94 to R97), and that `DIV_CORNERS` can be any function (00_scope.md R5). -/

namespace Sys2Proof

/-! ## What a pattern compiles to (R92) -/

theorem patternKey_snoc (p : Pattern) (b : PatBit) :
    patternKey (p ++ [b]) = 2 * patternKey p + if b = .one then 1 else 0 := by
  simp [patternKey, List.foldl_append]

theorem patternMask_snoc (p : Pattern) (b : PatBit) :
    patternMask (p ++ [b]) = 2 * patternMask p + if b = .any then 0 else 1 := by
  simp [patternMask, List.foldl_append]

/-- Bit `i` of `full_key`: the pattern fixes it at 1. -/
theorem patternKey_testBit (p : Pattern) (i : Nat) :
    (patternKey p).testBit i = decide (i < p.length ∧ p[p.length - 1 - i]? = some .one) := by
  induction p using List.reverseRecOn generalizing i with
  | nil => simp [patternKey]
  | append_singleton p b ih =>
    rw [patternKey_snoc]
    cases i with
    | zero => simp only [Nat.testBit_zero]; cases b <;> simp
    | succ i =>
      rw [Nat.testBit_succ, show (2 * patternKey p + if b = .one then 1 else 0) / 2 = patternKey p by split <;> omega, ih]
      simp only [List.length_append, List.length_singleton]
      by_cases h : i < p.length
      · rw [List.getElem?_append_left (by omega), show p.length + 1 - 1 - (i + 1) = p.length - 1 - i by omega]
        simp [h]
      · simp [h]

/-- Bit `i` of `full_mask`: the pattern fixes it. -/
theorem patternMask_testBit (p : Pattern) (i : Nat) :
    (patternMask p).testBit i = decide (i < p.length ∧ p[p.length - 1 - i]? ≠ some .any) := by
  induction p using List.reverseRecOn generalizing i with
  | nil => simp [patternMask]
  | append_singleton p b ih =>
    rw [patternMask_snoc]
    cases i with
    | zero => simp only [Nat.testBit_zero]; cases b <;> simp
    | succ i =>
      rw [Nat.testBit_succ, show (2 * patternMask p + if b = .any then 0 else 1) / 2 = patternMask p by split <;> omega, ih]
      simp only [List.length_append, List.length_singleton]
      by_cases h : i < p.length
      · rw [List.getElem?_append_left (by omega), show p.length + 1 - 1 - (i + 1) = p.length - 1 - i by omega]
        simp [h]
      · simp [h]

theorem takeWhile_stops {α : Type} (f : α → Bool) (l : List α) (a : α) (h : l[(l.takeWhile f).length]? = some a) :
    f a = false := by
  induction l with
  | nil => simp at h
  | cons b l ih =>
    cases hb : f b with
    | false => simp [hb] at h; rw [← h, hb]
    | true => simp [hb] at h; exact ih h

/-- The bit at `shift` is fixed, if there is one. -/
theorem patternMask_testBit_shift (p : Pattern) (h : patternShift p < p.length) :
    (patternMask p).testBit (patternShift p) = true := by
  rw [patternMask_testBit, decide_eq_true_eq]
  refine ⟨h, fun he => ?_⟩
  have := takeWhile_stops (· == PatBit.any) p.reverse .any (by
    rw [List.getElem?_reverse (by simpa [patternShift] using h)]
    exact he)
  cases this

theorem patternShift_le (p : Pattern) : patternShift p ≤ p.length := by
  simpa [patternShift] using (List.takeWhile_prefix (p := (· == PatBit.any)) (l := p.reverse)).length_le

/-- A fixed bit of the key is a fixed bit of the mask. -/
theorem patternMask_of_patternKey {p : Pattern} {i : Nat} (h : (patternKey p).testBit i = true) :
    (patternMask p).testBit i = true := by
  rw [patternKey_testBit, decide_eq_true_eq] at h
  rw [patternMask_testBit, decide_eq_true_eq]
  exact ⟨h.1, by rw [h.2]; simp⟩

/-- What `Row.wf` says. -/
theorem Row.wf_iff (r : Row) : r.wf = true ↔
    r.action.accepts r.tag = true ∧ r.key &&& r.mask = r.key ∧
      (r.mask = 0#32 ∧ r.shift = 32 ∨
        r.mask.getLsbD 0 = true ∧ r.shift < 32 ∧ r.mask <<< r.shift >>> r.shift = r.mask) := by
  simp only [Row.wf, Bool.and_eq_true, Bool.or_eq_true, beq_iff_eq, decide_eq_true_eq, and_assoc]

/-- What an entry compiles to is a well-formed row, if its tag goes with its action. -/
theorem PatternRow.compile_wf {e : PatternRow} {r : Row} (h : e.compile = some r) (ht : e.action.accepts e.tag = true) :
    r.wf = true := by
  unfold PatternRow.compile at h
  split at h
  swap; · cases h
  rename_i p _
  split at h
  swap; · cases h
  rename_i hl
  cases h
  have hs := patternShift_le p
  have hm : ∀ j, 32 ≤ j → (patternMask p).testBit j = false := fun j hj => by
    rw [patternMask_testBit, decide_eq_false_iff_not, hl]; omega
  rw [Row.wf_iff]
  refine ⟨ht, ?_, ?_⟩ <;> simp only [compilePattern]
  · apply BitVec.eq_of_getLsbD_eq
    intro i hi
    simp only [BitVec.getLsbD_and, BitVec.getLsbD_ofNat, Nat.testBit_shiftRight, hi, decide_true, Bool.true_and]
    cases hk : (patternKey p).testBit (patternShift p + i) with
    | false => rfl
    | true => simp [patternMask_of_patternKey hk]
  · have hb : ∀ i, i < 32 →
        (BitVec.ofNat 32 (patternMask p >>> patternShift p)).getLsbD i = (patternMask p).testBit (patternShift p + i) := by
      intro i hi
      simp only [BitVec.getLsbD_ofNat, Nat.testBit_shiftRight, hi, decide_true, Bool.true_and]
    by_cases h32 : patternShift p < 32
    · have h0 := hb 0 (by decide)
      rw [Nat.add_zero, patternMask_testBit_shift p (by omega)] at h0
      have hk : BitVec.ofNat 32 (patternMask p >>> patternShift p) <<< patternShift p >>> patternShift p =
          BitVec.ofNat 32 (patternMask p >>> patternShift p) := by
        apply BitVec.eq_of_getLsbD_eq
        intro i hi
        rw [BitVec.getLsbD_ushiftRight, BitVec.getLsbD_shiftLeft, hb i hi]
        by_cases h1 : patternShift p + i < 32
        · simp [h1, hb i hi]
        · simp [h1, hm (patternShift p + i) (by omega)]
      exact .inr ⟨h0, h32, hk⟩
    · have hz : BitVec.ofNat 32 (patternMask p >>> patternShift p) = 0#32 := by
        apply BitVec.eq_of_getLsbD_eq
        intro i hi
        rw [hb i hi, hm (patternShift p + i) (by omega), BitVec.getLsbD_zero]
      exact .inl ⟨hz, by omega⟩

/-! ## The default pattern table -/

/-- R97's patterns compile to its columns `match` and `mask`. -/
theorem compileTable_standardPatterns : compileTable standardPatterns = some patternTable := by decide +kernel

theorem tableWf_patternTable : tableWf patternTable = true := by decide +kernel

/-- The acceptance test is `tableWf`, for every table. -/
theorem tableOk_eq (t : List Row) : tableOk t = tableWf t := by
  unfold tableOk
  by_cases h : t = patternTable
  · subst h
    simp [tableWf_patternTable]
  · simp [h]

/-- The default table is accepted. -/
@[simp] theorem tableOk_patternTable : tableOk patternTable = true := by rw [tableOk_eq, tableWf_patternTable]

/-! ## What a match in an accepted table selects -/

/-- Rows that exclude each other match no common word (R96). -/
theorem Row.not_test_of_excludes {p q : Row} (h : p.excludes q = true) (w : Word) :
    ¬ (p.test w = true ∧ q.test w = true) := by
  rintro ⟨hp, hq⟩
  simp only [Row.test, matchTest, beq_iff_eq] at hp hq
  simp only [Row.excludes, bne_iff_ne, ne_eq] at h
  apply h
  rw [← hp, ← hq]
  apply BitVec.eq_of_getLsbD_eq
  intro i hi
  simp only [BitVec.getLsbD_and, BitVec.getLsbD_xor, BitVec.getLsbD_shiftLeft, BitVec.getLsbD_ushiftRight,
    BitVec.getLsbD_zero, hi, decide_true, Bool.true_and]
  by_cases h1 : i < p.shift
  · simp [h1]
  by_cases h2 : i < q.shift
  · simp [h2]
  rw [Nat.add_sub_cancel' (by omega), Nat.add_sub_cancel' (by omega)]
  rw [decide_eq_false h1, decide_eq_false h2]
  cases w.getLsbD i <;> cases p.mask.getLsbD (i - p.shift) <;> cases q.mask.getLsbD (i - q.shift) <;> rfl

/-- The last row of an accepted table is the all-wildcard "invalid instruction" (R95). -/
theorem tableWf_last {t : List Row} (h : tableWf t = true) :
    ∃ r, t.getLast? = some r ∧ r.wf = true ∧ r.mask = 0#32 ∧ r.action = .inv := by
  induction t with
  | nil => cases h
  | cons r rs ih =>
    cases rs with
    | nil =>
      simp only [tableWf, Bool.and_eq_true, beq_iff_eq] at h
      exact ⟨r, rfl, h.1.1, h.1.2, h.2⟩
    | cons q qs =>
      simp only [tableWf, Bool.and_eq_true] at h
      rw [List.getLast?_cons_cons]
      exact ih h.2

/-- Every two of the other rows exclude each other (R96, U17). -/
theorem tableWf_pairwise {t : List Row} (h : tableWf t = true) :
    t.dropLast.Pairwise (fun p q => p.excludes q = true) := by
  induction t with
  | nil => cases h
  | cons r rs ih =>
    cases rs with
    | nil => simp
    | cons q qs =>
      simp only [tableWf, Bool.and_eq_true] at h
      rw [List.dropLast_cons_cons]
      exact List.pairwise_cons.mpr ⟨List.all_eq_true.mp h.1.2, ih h.2⟩

/-- The catch-all's test succeeds on every word. -/
theorem Row.test_of_mask_zero {r : Row} (hw : r.wf = true) (hm : r.mask = 0#32) (w : Word) : r.test w = true := by
  simp only [Row.wf, Bool.and_eq_true, beq_iff_eq, hm] at hw
  have hk : r.key = 0#32 := by simpa using hw.1.2.symm
  simp [Row.test, matchTest, hm, hk]

end Sys2Proof

namespace Sys2Proof.Machine

/-- `DIV_CORNERS` is any function (00_scope.md R5): each function of the dividend is the result of some entry. -/
theorem exists_corner (f : Word → Word) : ∃ c, ∀ a, cornerResult c a = f a := by
  refine ⟨.table ((List.ofFn (fun i : Fin (2 ^ 32) => BitVec.ofFin i)).map (fun a => (a, f a))) 0#32, fun a => ?_⟩
  have key : ∀ l : List Word, a ∈ l → (l.map (fun b => (b, f b))).lookup a = some (f a) := by
    intro l
    induction l with
    | nil => intro h; cases h
    | cons b l ih =>
      intro h
      by_cases hb : a = b
      · subst hb; simp
      · have hl : a ∈ l := by simpa [hb] using h
        simp [List.lookup_cons, beq_false_of_ne hb, ih hl]
  simp only [cornerResult]
  rw [key _ (List.mem_ofFn.mpr ⟨a.toFin, rfl⟩)]
  rfl

end Sys2Proof.Machine
end

