-- ==== Sys2Proof/Tests/Slice0.lean ====
section
/-! SUPPORT. The model's own tests, each expected result from spec/95_test_vectors.md or spec/96_test_vectors_by_family.md
or worked out by hand from a rule, and one witness theorem per obligation that has hypotheses. -/

namespace Sys2Proof.Tests

-- One proof at a time: this file holds more kernel evaluations than the sandbox has room for threads.
set_option Elab.async false

open Sys2Proof Sys2Proof.Machine

/-! ## Helpers -/

/-- The state a result holds, or the reset state. -/
def nextState : Result → State
  | .next t => t
  | .fault _ => State.reset
  | .refused _ => State.reset

/-- The result is a next state. -/
def isNext : Result → Bool
  | .next _ => true
  | .fault _ => false
  | .refused _ => false

theorem next_of_isNext {r : Result} (h : isNext r = true) : r = .next (nextState r) := by
  cases r with
  | next t => rfl
  | fault f => cases h
  | refused q => cases h

/-- The two results are the same fault or the same refusal. -/
def isSame : Result → Result → Bool
  | .next _, _ => false
  | .fault f, .fault g => decide (f = g)
  | .fault _, _ => false
  | .refused p, .refused q => decide (p = q)
  | .refused _, _ => false

theorem eq_of_isSame {p q : Result} (h : isSame p q = true) : p = q := by
  cases p <;> cases q <;> simp_all [isSame]

/-- One step from `s` answers a next state of which `p` holds. -/
def after (s : State) (p : State → Bool) : Bool :=
  match step s with
  | .next t => p t
  | .fault _ => false
  | .refused _ => false

/-- The reset state of `c`, `RUNNING` at `pc`, with one instruction word there and some registers set. -/
def placed (c : Config) (pc w : Word) (regs : List (RegId × Word)) : State :=
  regs.foldl (fun s p => s.setReg p.1 p.2)
    { State.resetOf c with pc := pc, runState := .running, mem := Memory.write [] pc.toNat w 4 }

/-- Words put into memory beside the instruction. -/
def withWords (s : State) (ws : List (Nat × Word)) : State :=
  { s with mem := ws.foldl (fun m p => Memory.write m p.1 p.2 4) s.mem }

/-- The CSR contents of the vectors of 96_test_vectors_by_family.md section 6. -/
def withTrapUnit (s : State) : State :=
  { s with mstatus := 0x00001800#32, mtvec := 0x80000100#32, mepc := 0x80000040#32, mcause := 0x00000007#32 }

/-- A machine with two windows: one with both callbacks, 16 bytes long, and one with none. -/
def deviceConfig : Config :=
  { Config.standard with
    windows := [⟨"uart", 0x10000000#32, 16, true, true⟩, ⟨"dead", 0x20000000#32, 16, false, false⟩] }

/-- A machine whose flat array ends at `2^32`. -/
def topConfig : Config := { Config.standard with memBase := 0xffff0000#32, memSize := 0x10000 }

/-- The default table without rows 38 to 45. -/
def shortTable : List Row :=
  rowsUpperJump ++ rowsLoadStore ++ rowsImmediate ++ rowsRegister ++ rowsSystem ++ [rowInv]

/-- A row for the RISC-V word `fence` with the empty action, as D16 says to add it, and the default table with it. -/
def fenceRow : Row := ⟨.I, 0x0f#32, 0x707f#32, 0, .empty⟩

def fenceConfig : Config := { Config.standard with table := definedTable ++ [fenceRow, rowInv] }

/-- A machine with other division corners than R219's, one of them a list of results. -/
def cornerConfig : Config :=
  { Config.standard with
    divCorners := ⟨.dividend, .table [(9#32, 5#32)] 1#32, .value 2#32, .value 3#32, .value 4#32, .dividend⟩ }

/-- `add x5, x6, x7` at 0x80000000, with `x[0]` not 0. -/
def addState : State := placed Config.standard 0x80000000#32 0x007302b3#32 [(0#5, 7#32), (6#5, 0x7fffffff#32), (7#5, 1#32)]

/-- A state that meets the invariant: `add x5, x6, x7` at 0x80000000. -/
def goodState : State := placed Config.standard 0x80000000#32 0x007302b3#32 [(6#5, 0x7fffffff#32), (7#5, 1#32)]

/-- An illegal word at the pc. -/
def illegalState : State := placed Config.standard 0x80000010#32 0x0ff0000f#32 [(0#5, 7#32), (5#5, 9#32)]

/-- An illegal word at the pc, in a state that meets the invariant. -/
def faultyState : State := placed Config.standard 0x80000000#32 0x0ff0000f#32 [(5#5, 9#32)]

/-- `ecall` at 0x80000010 and `mret` at the handler. -/
def trapState : State :=
  { withWords (placed Config.standard 0x80000010#32 0x00000073#32 [(5#5, 9#32)]) [(0x80000100, 0x30200073#32)] with
    mtvec := 0x80000100#32 }

/-- A fetch at the start of the device window, and at its last word. -/
def deviceState (pc : Word) : State := { State.resetOf deviceConfig with runState := .running, pc := pc }

/-! ## WellFormed: an ill-formed term for each check -/

theorem test_wf_refuses :
    Instr.wf (.jal 1#5 3#21) = false ∧
    Instr.wf (.beq 1#5 2#5 5#13) = false ∧ Instr.wf (.bne 1#5 2#5 1#13) = false ∧
    Instr.wf (.blt 1#5 2#5 7#13) = false ∧ Instr.wf (.bge 1#5 2#5 0x1fff#13) = false ∧
    Instr.wf (.bltu 1#5 2#5 9#13) = false ∧ Instr.wf (.bgeu 1#5 2#5 11#13) = false ∧
    Instr.wf (.inv 0x00000073#32) = false ∧ Instr.wf (.inv 0x007302b3#32) = false := by
  decide +kernel

theorem test_wf_accepts :
    Instr.wf (.jal 31#5 0x1ffffe#21) = true ∧ Instr.wf (.beq 1#5 2#5 0x1000#13) = true ∧
    Instr.wf (.inv 0x0000000f#32) = true ∧ Instr.wf (.lui 0#5 0#20) = true := by
  decide +kernel

/-! ## Decode -/

/-- 95_test_vectors.md section 2.2: every instruction of the group `upper_jump`, word and operands. -/
theorem test_decode_upper_jump :
    decode 0x123452b7#32 = .lui 5#5 0x12345#20 ∧
    decode 0xfffff317#32 = .auipc 6#5 0xfffff#20 ∧
    decode 0x001000ef#32 = .jal 1#5 0x800#21 ∧
    decode 0xffc280e7#32 = .jalr 1#5 5#5 0xffc#12 ∧
    decode 0xfe208ce3#32 = .beq 1#5 2#5 0x1ff8#13 ∧
    decode 0x00209863#32 = .bne 1#5 2#5 0x10#13 ∧
    decode 0x0020c863#32 = .blt 1#5 2#5 0x10#13 ∧
    decode 0x0020d863#32 = .bge 1#5 2#5 0x10#13 ∧
    decode 0x0020e863#32 = .bltu 1#5 2#5 0x10#13 ∧
    decode 0x7e20ffe3#32 = .bgeu 1#5 2#5 0xffe#13 := by
  decide +kernel

/-- 95_test_vectors.md section 2.2: every instruction of the group `load_store`, word and operands. -/
theorem test_decode_load_store :
    decode 0xfff20183#32 = .lb 3#5 4#5 0xfff#12 ∧
    decode 0x00221183#32 = .lh 3#5 4#5 0x2#12 ∧
    decode 0x00422183#32 = .lw 3#5 4#5 0x4#12 ∧
    decode 0x00524183#32 = .lbu 3#5 4#5 0x5#12 ∧
    decode 0x00625183#32 = .lhu 3#5 4#5 0x6#12 ∧
    decode 0xfe320fa3#32 = .sb 4#5 3#5 0xfff#12 ∧
    decode 0x00321123#32 = .sh 4#5 3#5 0x2#12 ∧
    decode 0x7e322fa3#32 = .sw 4#5 3#5 0x7ff#12 := by
  decide +kernel

/-- 95_test_vectors.md section 2.2: every instruction of the group `immediate`, word and operands. -/
theorem test_decode_immediate :
    decode 0x80040393#32 = .addi 7#5 8#5 0x800#12 ∧
    decode 0x00542393#32 = .slti 7#5 8#5 0x5#12 ∧
    decode 0xfff43393#32 = .sltiu 7#5 8#5 0xfff#12 ∧
    decode 0xfff44393#32 = .xori 7#5 8#5 0xfff#12 ∧
    decode 0x7ff46393#32 = .ori 7#5 8#5 0x7ff#12 ∧
    decode 0x00f47393#32 = .andi 7#5 8#5 0xf#12 ∧
    decode 0x01f41393#32 = .slli 7#5 8#5 0x1f#5 ∧
    decode 0x00145393#32 = .srli 7#5 8#5 0x1#5 ∧
    decode 0x41f45393#32 = .srai 7#5 8#5 0x1f#5 := by
  decide +kernel

/-- 95_test_vectors.md section 2.2: every instruction of the group `register`, word and operands. -/
theorem test_decode_register :
    decode 0x00b504b3#32 = .add 9#5 10#5 11#5 ∧
    decode 0x40b504b3#32 = .sub 9#5 10#5 11#5 ∧
    decode 0x00b514b3#32 = .sll 9#5 10#5 11#5 ∧
    decode 0x00b524b3#32 = .slt 9#5 10#5 11#5 ∧
    decode 0x00b534b3#32 = .sltu 9#5 10#5 11#5 ∧
    decode 0x00b544b3#32 = .xor 9#5 10#5 11#5 ∧
    decode 0x00b554b3#32 = .srl 9#5 10#5 11#5 ∧
    decode 0x40b554b3#32 = .sra 9#5 10#5 11#5 ∧
    decode 0x00b564b3#32 = .or 9#5 10#5 11#5 ∧
    decode 0x00b574b3#32 = .and 9#5 10#5 11#5 := by
  decide +kernel

/-- 95_test_vectors.md section 2.2: every instruction of the group `muldiv`, word and operands. -/
theorem test_decode_muldiv :
    decode 0x02b504b3#32 = .mul 9#5 10#5 11#5 ∧
    decode 0x02b514b3#32 = .mulh 9#5 10#5 11#5 ∧
    decode 0x02b524b3#32 = .mulhsu 9#5 10#5 11#5 ∧
    decode 0x02b534b3#32 = .mulhu 9#5 10#5 11#5 ∧
    decode 0x02b544b3#32 = .div 9#5 10#5 11#5 ∧
    decode 0x02b554b3#32 = .divu 9#5 10#5 11#5 ∧
    decode 0x02b564b3#32 = .rem 9#5 10#5 11#5 ∧
    decode 0x02b574b3#32 = .remu 9#5 10#5 11#5 := by
  decide +kernel

/-- 95_test_vectors.md section 2.2: every instruction of the group `system`, word and operands. -/
theorem test_decode_system :
    decode 0x30569673#32 = .csrrw 12#5 13#5 0x305#12 ∧
    decode 0x34202673#32 = .csrrs 12#5 0#5 0x342#12 ∧
    decode 0x34169073#32 = .csrrw 0#5 13#5 0x341#12 ∧
    decode 0x3006a673#32 = .csrrs 12#5 13#5 0x300#12 ∧
    decode 0x00000073#32 = .ecall ∧
    decode 0x00100073#32 = .ebreak ∧
    decode 0x30200073#32 = .mret ∧
    decode 0x0ff0000f#32 = .inv 0x0ff0000f#32 ∧
    decode 0x0000100f#32 = .inv 0x0000100f#32 ∧
    decode 0x300130f3#32 = .inv 0x300130f3#32 ∧
    decode 0x3001d0f3#32 = .inv 0x3001d0f3#32 ∧
    decode 0x10500073#32 = .inv 0x10500073#32 := by
  decide +kernel

/-- 96_test_vectors_by_family.md section 7: words that no row 1 to 50 matches. -/
theorem test_decode_illegal :
    ([0x00000000#32, 0xffffffff#32, 0x00000001#32, 0x00004501#32, 0x0ff0000f#32, 0x0000100f#32,
      0x0000202f#32, 0x300130f3#32, 0x3001d0f3#32, 0x30015073#32, 0x10500073#32, 0x10200073#32,
      0x00200073#32, 0x302000f3#32, 0x00028073#32, 0x00100173#32, 0x00003003#32, 0x00006003#32,
      0x00003023#32, 0x02001013#32, 0x40001013#32, 0x20005013#32, 0x40001033#32, 0x04000033#32,
      0x00007067#32, 0x00002063#32, 0x00003063#32, 0x0000000b#32, 0x00000053#32] : List Word).all (fun w => decode w == .inv w) = true := by
  decide +kernel

/-- The transcriptions of R97's `match` and `mask` columns agree (its patterns: `compileTable_standardPatterns`), and an
entry whose pattern has not 32 characters is none. -/
theorem test_table_rows_agree :
    definedRows = definedTable.map (fun r => (r.key, r.mask)) ∧ patternTable.length = 51 ∧
    PatternRow.compile ⟨"0000000 00000 00000 000 00000 11100 1", .N, .ecall⟩ = none := by
  decide +kernel

/-- 45_muldiv.md, 30_encoding.md R94: with rows 38 to 45 taken out of the table, `mul` falls to the catch-all; with a row
of its own kind at another encoding, the word selects it. -/
theorem test_other_tables :
    tableOk shortTable = true ∧ decodeIn shortTable 0x027302b3#32 = .inv 0x027302b3#32 ∧
    decodeIn shortTable 0x007302b3#32 = .add 5#5 6#5 7#5 ∧
    tableOk [⟨.R, 0x0b#32, 0x7f#32, 0, .mul⟩, rowInv] = true ∧
    decodeIn [⟨.R, 0x0b#32, 0x7f#32, 0, .mul⟩, rowInv] 0x0073028b#32 = .mul 5#5 6#5 7#5 := by
  decide +kernel

/-- R95, R96, U17, log 19: refused tables: empty, the catch-all not last, overlapping rows, no triple of a pattern, a tag
that is not its action's. -/
theorem test_tables_refused :
    tableOk [] = false ∧ tableOk definedTable = false ∧ tableOk (rowInv :: definedTable) = false ∧
    tableOk (rowsRegister ++ rowsRegister ++ [rowInv]) = false ∧
    tableOk [⟨.R, 0x80#32, 0x7f#32, 0, .mul⟩, rowInv] = false ∧ tableOk [⟨.I, 0x0b#32, 0x7f#32, 0, .mul⟩, rowInv] = false := by
  decide +kernel

/-- 95_test_vectors.md section 2.3: pattern compilation, with shifts that are not 0. -/
theorem test_compile_pattern :
    (parsePattern "0100000 ????? ????? ??? ????? ????? ??".toList).map compilePattern = some (0x20, 0x7f, 25) ∧
    (parsePattern "??????? ????? ????? 000 ????? ????? ??".toList).map compilePattern = some (0x0, 0x7, 12) ∧
    (parsePattern "1?????? ????? ????? ??? ????? ????? ??".toList).map compilePattern = some (0x1, 0x1, 31) ∧
    (parsePattern "??????? ????? ????? ??? ????? ????? ?1".toList).map compilePattern = some (0x1, 0x1, 0) ∧
    parsePattern "01x".toList = none ∧
    matchTest 0x20#32 0x7f#32 25 0x41f35293#32 = true ∧ matchTest 0x20#32 0x7f#32 25 0x01f35293#32 = false := by
  decide +kernel

/-- 95_test_vectors.md section 3.1: whole words, every immediate. -/
theorem test_immediates :
    ([(0x7fffffff#32, 0x000007ff#32, 0x000007ff#32, 0x00000ffe#32, 0x7ffff000#32, 0x000ffffe#32),
      (0x80000f80#32, 0xfffff800#32, 0xfffff81f#32, 0xfffff81e#32, 0x80000000#32, 0xfff00000#32),
      (0xfe000f80#32, 0xffffffe0#32, 0xffffffff#32, 0xfffffffe#32, 0xfe000000#32, 0xfff007e0#32),
      (0x00100000#32, 0x00000001#32, 0x00000000#32, 0x00000000#32, 0x00100000#32, 0x00000800#32),
      (0x00000080#32, 0x00000000#32, 0x00000001#32, 0x00000800#32, 0x00000000#32, 0x00000000#32),
      (0xdeadbeef#32, 0xfffffdea#32, 0xfffffdfd#32, 0xfffffdfc#32, 0xdeadb000#32, 0xfffdb5ea#32)] :
      List (Word × Word × Word × Word × Word × Word)).all
      (fun r => (sext (immIOf r.1), sext (immSOf r.1), sext (immBOf r.1), upper (immUOf r.1), sext (immJOf r.1)) == r.2)
      = true := by
  decide +kernel

/-- R80, R55: the host's numbering of a word's bits, bytes little-endian. -/
theorem test_table_word :
    decodeTableWord 32 0x007302b3 = some (.add 5#5 6#5 7#5) ∧
    decodeBytes [0xb3#8, 0x02#8, 0x73#8, 0x00#8, 0xff#8] = .ok (.add 5#5 6#5 7#5, [0xff#8]) ∧
    decodeBytes [0xb3#8, 0x02#8, 0x73#8] = .error .truncated := by
  decide +kernel

/-- From reset, with the word placed by `withFetchWord`, the first step runs it. -/
theorem test_first_step_after_reset :
    after (State.reset.withFetchWord 32 0x80000293) (fun t => t.reg 5#5 == 0xfffff800#32 && t.pc == 0x80000004#32) = true := by
  decide +kernel

/-! ## One step each: the vectors of 96_test_vectors_by_family.md -/

/-- 96_test_vectors_by_family.md: `addi x5, x0, -2048`, `addi x5, x5, 1`. -/
theorem test_step_addi :
    after (placed Config.standard 0x80000000#32 0x80000293#32 []) (fun t => t.reg 5#5 == 0xfffff800#32 && t.pc == 0x80000004#32) = true ∧
    after (placed Config.standard 0x80000000#32 0x00128293#32 [(5#5, 0xffffffff#32)]) (fun t => t.reg 5#5 == 0x00000000#32 && t.pc == 0x80000004#32) = true := by
  decide +kernel

/-- 96_test_vectors_by_family.md: `slti x5, x6, -1`, `slti x5, x6, 1`. -/
theorem test_step_slti :
    after (placed Config.standard 0x80000000#32 0xfff32293#32 [(6#5, 0x80000000#32)]) (fun t => t.reg 5#5 == 0x00000001#32 && t.pc == 0x80000004#32) = true ∧
    after (placed Config.standard 0x80000000#32 0x00132293#32 [(6#5, 0x7fffffff#32)]) (fun t => t.reg 5#5 == 0x00000000#32 && t.pc == 0x80000004#32) = true := by
  decide +kernel

/-- 96_test_vectors_by_family.md: `sltiu x5, x6, -1`, `sltiu x5, x6, 1`. -/
theorem test_step_sltiu :
    after (placed Config.standard 0x80000000#32 0xfff33293#32 [(6#5, 0x00000005#32)]) (fun t => t.reg 5#5 == 0x00000001#32 && t.pc == 0x80000004#32) = true ∧
    after (placed Config.standard 0x80000000#32 0x00133293#32 [(6#5, 0x00000000#32)]) (fun t => t.reg 5#5 == 0x00000001#32 && t.pc == 0x80000004#32) = true := by
  decide +kernel

/-- 96_test_vectors_by_family.md: `xori x5, x6, -1`, `xori x5, x6, 1365`. -/
theorem test_step_xori :
    after (placed Config.standard 0x80000000#32 0xfff34293#32 [(6#5, 0x0f0f0f0f#32)]) (fun t => t.reg 5#5 == 0xf0f0f0f0#32 && t.pc == 0x80000004#32) = true ∧
    after (placed Config.standard 0x80000000#32 0x55534293#32 [(6#5, 0xffffffff#32)]) (fun t => t.reg 5#5 == 0xfffffaaa#32 && t.pc == 0x80000004#32) = true := by
  decide +kernel

/-- 96_test_vectors_by_family.md: `ori x5, x6, 1792`, `ori x5, x6, -2048`. -/
theorem test_step_ori :
    after (placed Config.standard 0x80000000#32 0x70036293#32 [(6#5, 0x0000000f#32)]) (fun t => t.reg 5#5 == 0x0000070f#32 && t.pc == 0x80000004#32) = true ∧
    after (placed Config.standard 0x80000000#32 0x80036293#32 [(6#5, 0x0000000f#32)]) (fun t => t.reg 5#5 == 0xfffff80f#32 && t.pc == 0x80000004#32) = true := by
  decide +kernel

/-- 96_test_vectors_by_family.md: `andi x5, x6, -16`, `andi x5, x6, 255`. -/
theorem test_step_andi :
    after (placed Config.standard 0x80000000#32 0xff037293#32 [(6#5, 0x12345678#32)]) (fun t => t.reg 5#5 == 0x12345670#32 && t.pc == 0x80000004#32) = true ∧
    after (placed Config.standard 0x80000000#32 0x0ff37293#32 [(6#5, 0x12345678#32)]) (fun t => t.reg 5#5 == 0x00000078#32 && t.pc == 0x80000004#32) = true := by
  decide +kernel

/-- 96_test_vectors_by_family.md: `slli x5, x6, 4`, `slli x5, x6, 31`. -/
theorem test_step_slli :
    after (placed Config.standard 0x80000000#32 0x00431293#32 [(6#5, 0xf000000f#32)]) (fun t => t.reg 5#5 == 0x000000f0#32 && t.pc == 0x80000004#32) = true ∧
    after (placed Config.standard 0x80000000#32 0x01f31293#32 [(6#5, 0x00000003#32)]) (fun t => t.reg 5#5 == 0x80000000#32 && t.pc == 0x80000004#32) = true := by
  decide +kernel

/-- 96_test_vectors_by_family.md: `srli x5, x6, 4`, `srli x5, x6, 31`. -/
theorem test_step_srli :
    after (placed Config.standard 0x80000000#32 0x00435293#32 [(6#5, 0x80000010#32)]) (fun t => t.reg 5#5 == 0x08000001#32 && t.pc == 0x80000004#32) = true ∧
    after (placed Config.standard 0x80000000#32 0x01f35293#32 [(6#5, 0x80000000#32)]) (fun t => t.reg 5#5 == 0x00000001#32 && t.pc == 0x80000004#32) = true := by
  decide +kernel

/-- 96_test_vectors_by_family.md: `srai x5, x6, 4`, `srai x5, x6, 31`. -/
theorem test_step_srai :
    after (placed Config.standard 0x80000000#32 0x40435293#32 [(6#5, 0x80000010#32)]) (fun t => t.reg 5#5 == 0xf8000001#32 && t.pc == 0x80000004#32) = true ∧
    after (placed Config.standard 0x80000000#32 0x41f35293#32 [(6#5, 0x7fffffff#32)]) (fun t => t.reg 5#5 == 0x00000000#32 && t.pc == 0x80000004#32) = true := by
  decide +kernel

/-- 96_test_vectors_by_family.md: `lui x5, 524288`, `lui x0, 74565`. -/
theorem test_step_lui :
    after (placed Config.standard 0x80000000#32 0x800002b7#32 []) (fun t => t.reg 5#5 == 0x80000000#32 && t.pc == 0x80000004#32) = true ∧
    after (placed Config.standard 0x80000000#32 0x12345037#32 []) (fun t => t.pc == 0x80000004#32 && t.reg 0#5 == 0#32) = true := by
  decide +kernel

/-- 96_test_vectors_by_family.md: `auipc x5, 1048575`, `auipc x5, 524288`. -/
theorem test_step_auipc :
    after (placed Config.standard 0x80000010#32 0xfffff297#32 []) (fun t => t.reg 5#5 == 0x7ffff010#32 && t.pc == 0x80000014#32) = true ∧
    after (placed Config.standard 0x80000010#32 0x80000297#32 []) (fun t => t.reg 5#5 == 0x00000010#32 && t.pc == 0x80000014#32) = true := by
  decide +kernel

/-- 96_test_vectors_by_family.md: `add x5, x6, x7`, `add x5, x5, x5`. -/
theorem test_step_add :
    after (placed Config.standard 0x80000000#32 0x007302b3#32 [(6#5, 0x7fffffff#32), (7#5, 0x00000001#32)]) (fun t => t.reg 5#5 == 0x80000000#32 && t.pc == 0x80000004#32) = true ∧
    after (placed Config.standard 0x80000000#32 0x005282b3#32 [(5#5, 0x80000000#32)]) (fun t => t.reg 5#5 == 0x00000000#32 && t.pc == 0x80000004#32) = true := by
  decide +kernel

/-- 96_test_vectors_by_family.md: `sub x5, x6, x7`, `sub x5, x0, x7`. -/
theorem test_step_sub :
    after (placed Config.standard 0x80000000#32 0x407302b3#32 [(6#5, 0x00000000#32), (7#5, 0x00000001#32)]) (fun t => t.reg 5#5 == 0xffffffff#32 && t.pc == 0x80000004#32) = true ∧
    after (placed Config.standard 0x80000000#32 0x407002b3#32 [(7#5, 0x80000000#32)]) (fun t => t.reg 5#5 == 0x80000000#32 && t.pc == 0x80000004#32) = true := by
  decide +kernel

/-- 96_test_vectors_by_family.md: `sll x5, x6, x7`, `sll x5, x6, x7`. -/
theorem test_step_sll :
    after (placed Config.standard 0x80000000#32 0x007312b3#32 [(6#5, 0x00000001#32), (7#5, 0x00000021#32)]) (fun t => t.reg 5#5 == 0x00000002#32 && t.pc == 0x80000004#32) = true ∧
    after (placed Config.standard 0x80000000#32 0x007312b3#32 [(6#5, 0xffffffff#32), (7#5, 0xffffffff#32)]) (fun t => t.reg 5#5 == 0x80000000#32 && t.pc == 0x80000004#32) = true := by
  decide +kernel

/-- 96_test_vectors_by_family.md: `slt x5, x6, x7`, `slt x5, x6, x7`. -/
theorem test_step_slt :
    after (placed Config.standard 0x80000000#32 0x007322b3#32 [(6#5, 0x80000000#32), (7#5, 0x7fffffff#32)]) (fun t => t.reg 5#5 == 0x00000001#32 && t.pc == 0x80000004#32) = true ∧
    after (placed Config.standard 0x80000000#32 0x007322b3#32 [(6#5, 0x7fffffff#32), (7#5, 0x80000000#32)]) (fun t => t.reg 5#5 == 0x00000000#32 && t.pc == 0x80000004#32) = true := by
  decide +kernel

/-- 96_test_vectors_by_family.md: `sltu x5, x6, x7`, `sltu x5, x6, x7`. -/
theorem test_step_sltu :
    after (placed Config.standard 0x80000000#32 0x007332b3#32 [(6#5, 0xffffffff#32), (7#5, 0x00000001#32)]) (fun t => t.reg 5#5 == 0x00000000#32 && t.pc == 0x80000004#32) = true ∧
    after (placed Config.standard 0x80000000#32 0x007332b3#32 [(6#5, 0x7fffffff#32), (7#5, 0x80000000#32)]) (fun t => t.reg 5#5 == 0x00000001#32 && t.pc == 0x80000004#32) = true := by
  decide +kernel

/-- 96_test_vectors_by_family.md: `xor x5, x6, x7`, `xor x5, x6, x6`. -/
theorem test_step_xor :
    after (placed Config.standard 0x80000000#32 0x007342b3#32 [(6#5, 0xff00ff00#32), (7#5, 0x0ff00ff0#32)]) (fun t => t.reg 5#5 == 0xf0f0f0f0#32 && t.pc == 0x80000004#32) = true ∧
    after (placed Config.standard 0x80000000#32 0x006342b3#32 [(6#5, 0xdeadbeef#32)]) (fun t => t.reg 5#5 == 0x00000000#32 && t.pc == 0x80000004#32) = true := by
  decide +kernel

/-- 96_test_vectors_by_family.md: `srl x5, x6, x7`, `srl x5, x6, x7`. -/
theorem test_step_srl :
    after (placed Config.standard 0x80000000#32 0x007352b3#32 [(6#5, 0x80000000#32), (7#5, 0xffffffff#32)]) (fun t => t.reg 5#5 == 0x00000001#32 && t.pc == 0x80000004#32) = true ∧
    after (placed Config.standard 0x80000000#32 0x007352b3#32 [(6#5, 0x80000000#32), (7#5, 0x00000020#32)]) (fun t => t.reg 5#5 == 0x80000000#32 && t.pc == 0x80000004#32) = true := by
  decide +kernel

/-- 96_test_vectors_by_family.md: `sra x5, x6, x7`, `sra x5, x6, x7`. -/
theorem test_step_sra :
    after (placed Config.standard 0x80000000#32 0x407352b3#32 [(6#5, 0x80000000#32), (7#5, 0xffffffff#32)]) (fun t => t.reg 5#5 == 0xffffffff#32 && t.pc == 0x80000004#32) = true ∧
    after (placed Config.standard 0x80000000#32 0x407352b3#32 [(6#5, 0x70000000#32), (7#5, 0x00000024#32)]) (fun t => t.reg 5#5 == 0x07000000#32 && t.pc == 0x80000004#32) = true := by
  decide +kernel

/-- 96_test_vectors_by_family.md: `or x5, x6, x7`. -/
theorem test_step_or :
    after (placed Config.standard 0x80000000#32 0x007362b3#32 [(6#5, 0xff00ff00#32), (7#5, 0x0ff00ff0#32)]) (fun t => t.reg 5#5 == 0xfff0fff0#32 && t.pc == 0x80000004#32) = true := by
  decide +kernel

/-- 96_test_vectors_by_family.md: `and x5, x6, x7`. -/
theorem test_step_and :
    after (placed Config.standard 0x80000000#32 0x007372b3#32 [(6#5, 0xff00ff00#32), (7#5, 0x0ff00ff0#32)]) (fun t => t.reg 5#5 == 0x0f000f00#32 && t.pc == 0x80000004#32) = true := by
  decide +kernel

/-- 96_test_vectors_by_family.md: `jal x0, -16`, `jal x5, -1048576`. -/
theorem test_step_jal :
    after (placed Config.standard 0x80000010#32 0xff1ff06f#32 []) (fun t => t.pc == 0x80000000#32 && t.reg 0#5 == 0#32) = true ∧
    after (placed Config.standard 0x80100000#32 0x800002ef#32 []) (fun t => t.reg 5#5 == 0x80100004#32 && t.pc == 0x80000000#32) = true := by
  decide +kernel

/-- 96_test_vectors_by_family.md: `jalr x1, 5(x6)`, `jalr x6, 0(x6)`. -/
theorem test_step_jalr :
    after (placed Config.standard 0x80000010#32 0x005300e7#32 [(6#5, 0x80000100#32)]) (fun t => t.reg 1#5 == 0x80000014#32 && t.pc == 0x80000104#32) = true ∧
    after (placed Config.standard 0x80000010#32 0x00030367#32 [(6#5, 0x80000100#32)]) (fun t => t.reg 6#5 == 0x80000014#32 && t.pc == 0x80000100#32) = true := by
  decide +kernel

/-- 96_test_vectors_by_family.md: `beq x6, x7, -8`, `beq x6, x7, 12`. -/
theorem test_step_beq :
    after (placed Config.standard 0x80000010#32 0xfe730ce3#32 [(6#5, 0xffffffff#32), (7#5, 0x00000001#32)]) (fun t => t.pc == 0x80000014#32) = true ∧
    after (placed Config.standard 0x80000010#32 0x00730663#32 [(6#5, 0x00000001#32), (7#5, 0x00000001#32)]) (fun t => t.pc == 0x8000001c#32) = true := by
  decide +kernel

/-- 96_test_vectors_by_family.md: `bne x6, x7, -8`, `bne x6, x7, 12`. -/
theorem test_step_bne :
    after (placed Config.standard 0x80000010#32 0xfe731ce3#32 [(6#5, 0xffffffff#32), (7#5, 0x00000001#32)]) (fun t => t.pc == 0x80000008#32) = true ∧
    after (placed Config.standard 0x80000010#32 0x00731663#32 [(6#5, 0x00000001#32), (7#5, 0x00000001#32)]) (fun t => t.pc == 0x80000014#32) = true := by
  decide +kernel

/-- 96_test_vectors_by_family.md: `blt x6, x7, -8`, `blt x6, x7, 12`. -/
theorem test_step_blt :
    after (placed Config.standard 0x80000010#32 0xfe734ce3#32 [(6#5, 0xffffffff#32), (7#5, 0x00000001#32)]) (fun t => t.pc == 0x80000008#32) = true ∧
    after (placed Config.standard 0x80000010#32 0x00734663#32 [(6#5, 0x00000001#32), (7#5, 0xffffffff#32)]) (fun t => t.pc == 0x80000014#32) = true := by
  decide +kernel

/-- 96_test_vectors_by_family.md: `bge x6, x7, 12`, `bge x6, x7, 12`. -/
theorem test_step_bge :
    after (placed Config.standard 0x80000010#32 0x00735663#32 [(6#5, 0x00000001#32), (7#5, 0x00000001#32)]) (fun t => t.pc == 0x8000001c#32) = true ∧
    after (placed Config.standard 0x80000010#32 0x00735663#32 [(6#5, 0x00000001#32), (7#5, 0xffffffff#32)]) (fun t => t.pc == 0x8000001c#32) = true := by
  decide +kernel

/-- 96_test_vectors_by_family.md: `bltu x6, x7, -8`, `bltu x6, x7, 12`. -/
theorem test_step_bltu :
    after (placed Config.standard 0x80000010#32 0xfe736ce3#32 [(6#5, 0xffffffff#32), (7#5, 0x00000001#32)]) (fun t => t.pc == 0x80000014#32) = true ∧
    after (placed Config.standard 0x80000010#32 0x00736663#32 [(6#5, 0x00000001#32), (7#5, 0xffffffff#32)]) (fun t => t.pc == 0x8000001c#32) = true := by
  decide +kernel

/-- 96_test_vectors_by_family.md: `bgeu x6, x7, -8`, `bgeu x6, x7, 12`. -/
theorem test_step_bgeu :
    after (placed Config.standard 0x80000010#32 0xfe737ce3#32 [(6#5, 0xffffffff#32), (7#5, 0x00000001#32)]) (fun t => t.pc == 0x80000008#32) = true ∧
    after (placed Config.standard 0x80000010#32 0x00737663#32 [(6#5, 0x00000001#32), (7#5, 0xffffffff#32)]) (fun t => t.pc == 0x80000014#32) = true := by
  decide +kernel

/-- 96_test_vectors_by_family.md: `lb x5, 3(x6)`, `lb x5, 4(x6)`. -/
theorem test_step_lb :
    after (withWords (placed Config.standard 0x80000000#32 0x00330283#32 [(6#5, 0x80001000#32)]) [(0x80001000, 0x8899aabb#32), (0x80001004, 0x11223344#32)]) (fun t => t.reg 5#5 == 0xffffff88#32 && t.pc == 0x80000004#32) = true ∧
    after (withWords (placed Config.standard 0x80000000#32 0x00430283#32 [(6#5, 0x80001000#32)]) [(0x80001000, 0x8899aabb#32), (0x80001004, 0x11223344#32)]) (fun t => t.reg 5#5 == 0x00000044#32 && t.pc == 0x80000004#32) = true := by
  decide +kernel

/-- 96_test_vectors_by_family.md: `lbu x5, 3(x6)`. -/
theorem test_step_lbu :
    after (withWords (placed Config.standard 0x80000000#32 0x00334283#32 [(6#5, 0x80001000#32)]) [(0x80001000, 0x8899aabb#32), (0x80001004, 0x11223344#32)]) (fun t => t.reg 5#5 == 0x00000088#32 && t.pc == 0x80000004#32) = true := by
  decide +kernel

/-- 96_test_vectors_by_family.md: `lh x5, 2(x6)`, `lh x5, 1(x6)`. -/
theorem test_step_lh :
    after (withWords (placed Config.standard 0x80000000#32 0x00231283#32 [(6#5, 0x80001000#32)]) [(0x80001000, 0x8899aabb#32), (0x80001004, 0x11223344#32)]) (fun t => t.reg 5#5 == 0xffff8899#32 && t.pc == 0x80000004#32) = true ∧
    after (withWords (placed Config.standard 0x80000000#32 0x00131283#32 [(6#5, 0x80001000#32)]) [(0x80001000, 0x8899aabb#32), (0x80001004, 0x11223344#32)]) (fun t => t.reg 5#5 == 0xffff99aa#32 && t.pc == 0x80000004#32) = true := by
  decide +kernel

/-- 96_test_vectors_by_family.md: `lhu x5, 2(x6)`, `lhu x5, 3(x6)`. -/
theorem test_step_lhu :
    after (withWords (placed Config.standard 0x80000000#32 0x00235283#32 [(6#5, 0x80001000#32)]) [(0x80001000, 0x8899aabb#32), (0x80001004, 0x11223344#32)]) (fun t => t.reg 5#5 == 0x00008899#32 && t.pc == 0x80000004#32) = true ∧
    after (withWords (placed Config.standard 0x80000000#32 0x00335283#32 [(6#5, 0x80001000#32)]) [(0x80001000, 0x8899aabb#32), (0x80001004, 0x11223344#32)]) (fun t => t.reg 5#5 == 0x00004488#32 && t.pc == 0x80000004#32) = true := by
  decide +kernel

/-- 96_test_vectors_by_family.md: `lw x5, 3(x6)`, `lw x0, 0(x6)`. -/
theorem test_step_lw :
    after (withWords (placed Config.standard 0x80000000#32 0x00332283#32 [(6#5, 0x80001000#32)]) [(0x80001000, 0x8899aabb#32), (0x80001004, 0x11223344#32)]) (fun t => t.reg 5#5 == 0x22334488#32 && t.pc == 0x80000004#32) = true ∧
    after (withWords (placed Config.standard 0x80000000#32 0x00032003#32 [(6#5, 0x80001000#32)]) [(0x80001000, 0x8899aabb#32), (0x80001004, 0x11223344#32)]) (fun t => t.pc == 0x80000004#32 && t.reg 0#5 == 0#32) = true := by
  decide +kernel

/-- 96_test_vectors_by_family.md: `sb x7, 3(x6)`, `sb x7, 0(x6)`. -/
theorem test_step_sb :
    after (withWords (placed Config.standard 0x80000000#32 0x007301a3#32 [(6#5, 0x80001000#32), (7#5, 0x123456ff#32)]) [(0x80001000, 0x8899aabb#32), (0x80001004, 0x11223344#32)]) (fun t => Memory.byte t.mem 0x80001003 == 0xff#8 && t.pc == 0x80000004#32) = true ∧
    after (placed Config.standard 0x80000000#32 0x00730023#32 [(6#5, 0x00001000#32), (7#5, 0x00000001#32)]) (fun t => t.runState == .aborted && t.fault == some ⟨.memoryBound, 0x80000000#32, 0x00001000#32⟩ && t.pc == 0x80000000#32) = true := by
  decide +kernel

/-- 96_test_vectors_by_family.md: `sh x7, 3(x6)`. -/
theorem test_step_sh :
    after (withWords (placed Config.standard 0x80000000#32 0x007311a3#32 [(6#5, 0x80001000#32), (7#5, 0x1234cdef#32)]) [(0x80001000, 0x8899aabb#32), (0x80001004, 0x11223344#32)]) (fun t => Memory.byte t.mem 0x80001003 == 0xef#8 && Memory.byte t.mem 0x80001004 == 0xcd#8 && t.pc == 0x80000004#32) = true := by
  decide +kernel

/-- 96_test_vectors_by_family.md: `sw x7, 1(x6)`, `sw x7, 0(x6)`. -/
theorem test_step_sw :
    after (withWords (placed Config.standard 0x80000000#32 0x007320a3#32 [(6#5, 0x80001000#32), (7#5, 0xcafebabe#32)]) [(0x80001000, 0x8899aabb#32), (0x80001004, 0x11223344#32)]) (fun t => Memory.byte t.mem 0x80001001 == 0xbe#8 && Memory.byte t.mem 0x80001002 == 0xba#8 && Memory.byte t.mem 0x80001003 == 0xfe#8 && Memory.byte t.mem 0x80001004 == 0xca#8 && t.pc == 0x80000004#32) = true ∧
    after (placed Config.standard 0x80000000#32 0x00732023#32 [(6#5, 0x87fffffe#32), (7#5, 0xcafebabe#32)]) (fun t => t.runState == .aborted && t.fault == some ⟨.memoryBound, 0x80000000#32, 0x87fffffe#32⟩ && t.pc == 0x80000000#32) = true := by
  decide +kernel

/-- 96_test_vectors_by_family.md: `mul x5, x6, x7`, `mul x5, x6, x7`. -/
theorem test_step_mul :
    after (placed Config.standard 0x80000000#32 0x027302b3#32 [(6#5, 0xffffffff#32), (7#5, 0x7fffffff#32)]) (fun t => t.reg 5#5 == 0x80000001#32 && t.pc == 0x80000004#32) = true ∧
    after (placed Config.standard 0x80000000#32 0x027302b3#32 [(6#5, 0x12345678#32), (7#5, 0x9abcdef0#32)]) (fun t => t.reg 5#5 == 0x242d2080#32 && t.pc == 0x80000004#32) = true := by
  decide +kernel

/-- 96_test_vectors_by_family.md: `mulh x5, x6, x7`, `mulh x5, x6, x7`. -/
theorem test_step_mulh :
    after (placed Config.standard 0x80000000#32 0x027312b3#32 [(6#5, 0x80000000#32), (7#5, 0x80000000#32)]) (fun t => t.reg 5#5 == 0x40000000#32 && t.pc == 0x80000004#32) = true ∧
    after (placed Config.standard 0x80000000#32 0x027312b3#32 [(6#5, 0x00000002#32), (7#5, 0x80000000#32)]) (fun t => t.reg 5#5 == 0xffffffff#32 && t.pc == 0x80000004#32) = true := by
  decide +kernel

/-- 96_test_vectors_by_family.md: `mulhsu x5, x6, x7`, `mulhsu x5, x6, x7`. -/
theorem test_step_mulhsu :
    after (placed Config.standard 0x80000000#32 0x027322b3#32 [(6#5, 0x7fffffff#32), (7#5, 0x7fffffff#32)]) (fun t => t.reg 5#5 == 0x3fffffff#32 && t.pc == 0x80000004#32) = true ∧
    after (placed Config.standard 0x80000000#32 0x027322b3#32 [(6#5, 0x00010000#32), (7#5, 0x00010000#32)]) (fun t => t.reg 5#5 == 0x00000001#32 && t.pc == 0x80000004#32) = true := by
  decide +kernel

/-- 96_test_vectors_by_family.md: `mulhu x5, x6, x7`, `mulhu x5, x6, x7`. -/
theorem test_step_mulhu :
    after (placed Config.standard 0x80000000#32 0x027332b3#32 [(6#5, 0xffffffff#32), (7#5, 0xffffffff#32)]) (fun t => t.reg 5#5 == 0xfffffffe#32 && t.pc == 0x80000004#32) = true ∧
    after (placed Config.standard 0x80000000#32 0x027332b3#32 [(6#5, 0x80000000#32), (7#5, 0xffffffff#32)]) (fun t => t.reg 5#5 == 0x7fffffff#32 && t.pc == 0x80000004#32) = true := by
  decide +kernel

/-- 96_test_vectors_by_family.md: `div x5, x6, x7`, `div x5, x6, x7`. -/
theorem test_step_div :
    after (placed Config.standard 0x80000000#32 0x027342b3#32 [(6#5, 0xfffffff9#32), (7#5, 0x00000002#32)]) (fun t => t.reg 5#5 == 0xfffffffd#32 && t.pc == 0x80000004#32) = true ∧
    after (placed Config.standard 0x80000000#32 0x027342b3#32 [(6#5, 0x80000000#32), (7#5, 0xffffffff#32)]) (fun t => t.reg 5#5 == 0x80000000#32 && t.pc == 0x80000004#32) = true := by
  decide +kernel

/-- 96_test_vectors_by_family.md: `divu x5, x6, x7`, `divu x5, x6, x7`. -/
theorem test_step_divu :
    after (placed Config.standard 0x80000000#32 0x027352b3#32 [(6#5, 0xfffffff9#32), (7#5, 0x00000002#32)]) (fun t => t.reg 5#5 == 0x7ffffffc#32 && t.pc == 0x80000004#32) = true ∧
    after (placed Config.standard 0x80000000#32 0x027352b3#32 [(6#5, 0x00000007#32), (7#5, 0x00000000#32)]) (fun t => t.reg 5#5 == 0xffffffff#32 && t.pc == 0x80000004#32) = true := by
  decide +kernel

/-- 96_test_vectors_by_family.md: `rem x5, x6, x7`, `rem x5, x6, x7`. -/
theorem test_step_rem :
    after (placed Config.standard 0x80000000#32 0x027362b3#32 [(6#5, 0xfffffff9#32), (7#5, 0x00000002#32)]) (fun t => t.reg 5#5 == 0xffffffff#32 && t.pc == 0x80000004#32) = true ∧
    after (placed Config.standard 0x80000000#32 0x027362b3#32 [(6#5, 0x80000000#32), (7#5, 0xffffffff#32)]) (fun t => t.reg 5#5 == 0x00000000#32 && t.pc == 0x80000004#32) = true := by
  decide +kernel

/-- 96_test_vectors_by_family.md: `remu x5, x6, x7`, `remu x5, x6, x7`. -/
theorem test_step_remu :
    after (placed Config.standard 0x80000000#32 0x027372b3#32 [(6#5, 0xfffffff9#32), (7#5, 0x00000002#32)]) (fun t => t.reg 5#5 == 0x00000001#32 && t.pc == 0x80000004#32) = true ∧
    after (placed Config.standard 0x80000000#32 0x027372b3#32 [(6#5, 0xfffffff9#32), (7#5, 0x00000000#32)]) (fun t => t.reg 5#5 == 0xfffffff9#32 && t.pc == 0x80000004#32) = true := by
  decide +kernel

/-- 96_test_vectors_by_family.md: `csrrw x13, mcause, x13`, `csrrw x12, 0xc00, x13`. -/
theorem test_step_csrrw :
    after (withTrapUnit (placed Config.standard 0x80000010#32 0x342696f3#32 [(13#5, 0x00000003#32)])) (fun t => t.reg 13#5 == 0x00000007#32 && t.mcause == 0x00000003#32 && t.pc == 0x80000014#32) = true ∧
    after (withTrapUnit (placed Config.standard 0x80000010#32 0xc0069673#32 [(13#5, 0x00000001#32), (12#5, 0x00000055#32)])) (fun t => t.runState == .aborted && t.fault == some ⟨.csrError, 0x80000010#32, 0x00000c00#32⟩ && t.pc == 0x80000010#32) = true := by
  decide +kernel

/-- 96_test_vectors_by_family.md: `csrrs x13, mstatus, x13`, `csrrs x12, 0xf14, x0`. -/
theorem test_step_csrrs :
    after (withTrapUnit (placed Config.standard 0x80000010#32 0x3006a6f3#32 [(13#5, 0x00000008#32)])) (fun t => t.reg 13#5 == 0x00001800#32 && t.mstatus == 0x00001808#32 && t.pc == 0x80000014#32) = true ∧
    after (withTrapUnit (placed Config.standard 0x80000010#32 0xf1402673#32 [(12#5, 0x00000055#32)])) (fun t => t.runState == .aborted && t.fault == some ⟨.csrError, 0x80000010#32, 0x00000f14#32⟩ && t.pc == 0x80000010#32) = true := by
  decide +kernel

/-- 96_test_vectors_by_family.md: `ecall`, `ecall`. -/
theorem test_step_ecall :
    after ({ withTrapUnit (placed Config.standard 0x80000010#32 0x00000073#32 []) with trapState := .trapped }) (fun t => t.mepc == 0x80000010#32 && t.mcause == 0x0000000b#32 && t.pc == 0x80000100#32) = true ∧
    after ({ withTrapUnit (placed Config.standard 0x80000010#32 0x00000073#32 []) with mtvec := 0x80000101#32 }) (fun t => t.mepc == 0x80000010#32 && t.mcause == 0x0000000b#32 && t.trapState == .trapped && t.pc == 0x80000101#32) = true := by
  decide +kernel

/-- 96_test_vectors_by_family.md: `ebreak`, `ebreak`. -/
theorem test_step_ebreak :
    after (withTrapUnit (placed Config.standard 0x80000010#32 0x00100073#32 [])) (fun t => t.mepc == 0x80000010#32 && t.mcause == 0x00000003#32 && t.trapState == .trapped && t.runState == .stopped && t.pc == 0x80000100#32) = true ∧
    after (withTrapUnit (placed ({ Config.standard with breakTraps := false }) 0x80000010#32 0x00100073#32 [])) (fun t => t.runState == .stopped && t.pc == 0x80000014#32) = true := by
  decide +kernel

/-- 96_test_vectors_by_family.md: `mret`, `mret`. -/
theorem test_step_mret :
    after ({ withTrapUnit (placed Config.standard 0x80000104#32 0x30200073#32 []) with trapState := .trapped }) (fun t => t.trapState == .normal && t.pc == 0x80000040#32) = true ∧
    after ({ withTrapUnit (placed Config.standard 0x80000104#32 0x30200073#32 []) with mepc := 0x80000043#32, trapState := .trapped }) (fun t => t.trapState == .normal && t.pc == 0x80000043#32) = true := by
  decide +kernel

/-- 96_test_vectors_by_family.md section 7: the step of an illegal word, every other register kept. -/
theorem test_step_inv :
    after (placed Config.standard 0x80000010#32 0x10500073#32 [(5#5, 9#32)]) (fun t => t.runState == .aborted &&
      t.fault == some ⟨.decodeError, 0x80000010#32, 0x10500073#32⟩ && t.pc == 0x80000010#32 && t.reg 5#5 == 9#32) = true ∧
    after (placed Config.standard 0x80000010#32 0x302000f3#32 []) (fun t =>
      t.fault == some ⟨.decodeError, 0x80000010#32, 0x302000f3#32⟩) = true := by
  decide +kernel

/-- 96_test_vectors_by_family.md section 8: fetches that fail, at the end of the flat array, across it, and below it. -/
theorem test_step_fetch_fails :
    ([0x88000000#32, 0x87fffffe#32, 0x00000000#32, 0x7ffffffc#32, 0xfffffffe#32] : List Word).all (fun pc =>
      after { State.reset with runState := .running, pc := pc } (fun t => t.runState == .aborted &&
        t.fault == some ⟨.memoryBound, pc, pc⟩ && t.pc == pc)) = true := by
  decide +kernel

/-- 96_test_vectors_by_family.md section 8: the last word of the flat array, an odd pc, and the wrap of `pc + 4`. -/
theorem test_step_pc_edges :
    after (placed Config.standard 0x87fffffc#32 0x00100293#32 []) (fun t => t.reg 5#5 == 1#32 && t.pc == 0x88000000#32) = true ∧
    after (placed Config.standard 0x80000001#32 0x00100293#32 []) (fun t => t.reg 5#5 == 1#32 && t.pc == 0x80000005#32) = true ∧
    after (placed topConfig 0xfffffffc#32 0x008000ef#32 []) (fun t => t.reg 1#5 == 0#32 && t.pc == 0x00000004#32) = true := by
  decide +kernel

/-- 95_test_vectors.md section 1.4: two writes and the reads after them. -/
theorem test_memory_round_trip :
    (let m := Memory.write (Memory.write [] 0x80001000 0xdeadbeef#32 4) 0x80001001 0x1234#32 2
     m == [(0x80001000, 0xef#8), (0x80001001, 0x34#8), (0x80001002, 0x12#8), (0x80001003, 0xde#8)] &&
       Memory.read m 0x80001000 4 == 0xde1234ef#32 && Memory.read m 0x80001001 2 == 0x1234#32) = true := by
  decide +kernel

/-- R53, R57, R62, R63, D23: a load and a store at a device are recorded with the offset, the store with all of its value; outside its callbacks and its end they
are out of bound. -/
theorem test_device_accesses :
    after (placed { deviceConfig with breakTraps := true } 0x80000000#32 0x007300a3#32 [(6#5, 0x10000000#32), (7#5, 0x1ff#32)])
      (fun t => t.events == [.write ⟨"uart", 0x10000000#32, 16, true, true⟩ 1#32 .byte 0x1ff#32]) = true ∧
    after (placed deviceConfig 0x80000000#32 0x00e32283#32 [(6#5, 0x10000000#32)])
      (fun t => t.fault == some ⟨.memoryBound, 0x80000000#32, 0x1000000e#32⟩) = true ∧
    after (placed deviceConfig 0x80000000#32 0x00032283#32 [(6#5, 0x20000000#32)])
      (fun t => t.fault == some ⟨.memoryBound, 0x80000000#32, 0x20000000#32⟩ && t.draws == 0) = true ∧
    after (placed deviceConfig 0x80000000#32 0x00032283#32 [(6#5, 0x10000000#32)])
      (fun t => t.draws == 1 && t.pc == 0x80000004#32) = true := by
  decide +kernel

/-- U17, U18: a configuration past `2^32`, or with two CSRs at one address, is refused; so is a step in `STOPPED`. -/
theorem test_step_refused :
    step { placed { Config.standard with memSize := 0x80000001 } 0x80000000#32 0x13#32 [] with runState := .running } =
      .refused .badConfig ∧
    step { placed { Config.standard with csrEpc := 0x300#12 } 0x80000000#32 0x13#32 [] with runState := .running } =
      .refused .badConfig ∧
    step { placed { Config.standard with table := definedTable } 0x80000000#32 0x13#32 [] with runState := .running } =
      .refused .badConfig ∧
    step { placed { Config.standard with xlen := 64 } 0x80000000#32 0x13#32 [] with runState := .running } =
      .refused .badConfig ∧
    step State.reset = .refused .stopped ∧
    step { State.reset with runState := .aborted } = .fault .aborted := by
  refine ⟨?_, ?_, ?_, ?_, ?_, ?_⟩ <;> exact eq_of_isSame (by decide +kernel)

/-- Log 18: with 16 registers an instruction that names `x16` is refused, and one that names `x15` runs. -/
theorem test_nreg :
    step (placed { Config.standard with nreg := 16 } 0x80000000#32 0x00180813#32 []) = .refused .noRegister ∧
    after (placed { Config.standard with nreg := 16 } 0x80000000#32 0x00178793#32 []) (fun t => t.reg 15#5 == 1#32) = true :=
  ⟨eq_of_isSame (by decide +kernel), by decide +kernel⟩

/-- R5, R21: a machine with 40 registers holds the eight that no field can name, and runs as one with 32 does. -/
theorem test_nreg_high :
    (State.resetOf { Config.standard with nreg := 40 }).xHigh.length = 8 ∧
    after (placed { Config.standard with nreg := 40 } 0x80000000#32 0x001f8f93#32 [])
      (fun t => t.reg 31#5 == 1#32 && t.xHigh.length == 8) = true := by
  decide +kernel

/-- D16: with a row for it in the table, `fence iorw, iorw` advances the pc and does nothing else; without one it aborts. -/
theorem test_fence_row :
    (PatternRow.mk "??????? ????? ????? 000 ????? 00011 11" .I .empty).compile = some fenceRow ∧
    after (placed fenceConfig 0x80000000#32 0x0ff0000f#32 [(0#5, 7#32), (5#5, 9#32)])
      (fun t => t.pc == 0x80000004#32 && t.reg 0#5 == 0#32 && t.reg 5#5 == 9#32 && t.runState == .running && t.events.isEmpty) =
      true ∧
    after (placed Config.standard 0x80000000#32 0x0ff0000f#32 [])
      (fun t => t.fault == some ⟨.decodeError, 0x80000000#32, 0x0ff0000f#32⟩) = true := by
  decide +kernel

/-- R269 (e), U19: the host sets `mtvec` and registers windows before the first step and not after it; R269 (b): placing an
instruction does not revive an aborted machine. -/
theorem test_before_first_step :
    State.reset.setTrapVector 0x80000100#32 = some { State.reset with mtvec := 0x80000100#32 } ∧
    (nextState (step goodState)).setTrapVector 0#32 = none ∧
    (nextState (step goodState)).registerWindow ⟨"uart", 0x10000000#32, 16, true, true⟩ = none ∧
    ({ State.reset with runState := .aborted }.withFetchWord 32 0x13).runState = .aborted := by
  decide +kernel

/-- R123: a run ends by the breakpoint instruction, by its budget, or by a fatal error. -/
theorem test_run_ends :
    (placed Config.standard 0x80000000#32 0x00100073#32 []).runEnd 1 = some .breakpoint ∧
    goodState.runEnd 1 = some .budget ∧ illegalState.runEnd 1 = some .fatal ∧ illegalState.runEnd 0 = some .budget := by
  decide +kernel

/-! ## Witnesses: for each obligation that has hypotheses, states and operands that meet them together -/

theorem goodState_inv : goodState.Inv :=
  ⟨by decide +kernel, by decide +kernel, by decide +kernel, by decide +kernel, by decide +kernel, by decide +kernel⟩

theorem faultyState_inv : faultyState.Inv :=
  ⟨by decide +kernel, by decide +kernel, by decide +kernel, by decide +kernel, by decide +kernel, by decide +kernel⟩

theorem illegalState_running : configOk illegalState.cfg = true ∧ illegalState.runState = .running := by
  decide +kernel

theorem trapState_inv : trapState.Inv :=
  ⟨by decide +kernel, by decide +kernel, by decide +kernel, by decide +kernel, by decide +kernel, by decide +kernel⟩

/-- O1: even offsets at both ends, a word of no row, and every other operand at its greatest. -/
theorem witness_decodeOfEncode :
    Instr.wf (.jal 31#5 0x1ffffe#21) = true ∧ Instr.wf (.jal 0#5 0x100000#21) = true ∧
    Instr.wf (.beq 31#5 0#5 0x1000#13) = true ∧ Instr.wf (.bgeu 0#5 31#5 0xffe#13) = true ∧
    Instr.wf (.inv 0xffffffff#32) = true ∧ Instr.wf (.csrrw 31#5 31#5 0xfff#12) = true := by
  decide +kernel

/-- O3, O4: a word that no row 1 to 50 matches, and one that a row matches. -/
theorem witness_unmatched :
    (∀ r ∈ definedTable, r.test 0x0ff0000f#32 = false) ∧ (∃ r ∈ definedTable, r.test 0x30200073#32 = true) := by
  refine ⟨?_, ?_⟩
  · have h : definedTable.all (fun r => !r.test 0x0ff0000f#32) = true := by decide +kernel
    intro r hr
    simpa using List.all_eq_true.mp h r hr
  · have h : definedTable.any (fun r => r.test 0x30200073#32) = true := by decide +kernel
    simpa using h

/-- O4: an accepted table that is not the default one. -/
theorem witness_acceptedTable : tableOk shortTable = true ∧ shortTable ≠ patternTable := by decide +kernel

/-- O5: the table read backwards is a permutation. -/
theorem witness_rowOrder : definedTable.reverse.Perm definedTable :=
  List.reverse_perm definedTable

/-- O6: 32 wildcards, and the row of `addi`, have length 32; a word that agrees with it. -/
theorem witness_compiledTest :
    (List.replicate 32 PatBit.any).length = 32 ∧
    (parsePattern "??????? ????? ????? 000 ????? 00100 11".toList).map
      (fun p => (p.length, 0x80000293#32 &&& BitVec.ofNat 32 (patternMask p) == BitVec.ofNat 32 (patternKey p))) =
      some (32, true) := by
  decide +kernel

/-- O7: bit positions at which the clauses meet. -/
theorem witness_immediates : (0 < 32 ∧ 4 < 32 ∧ 5 < 32) ∧ (10 < 32 ∧ 11 < 32 ∧ 12 < 32) ∧ 19 < 32 ∧ 20 < 32 ∧ 31 < 32 := by
  decide

/-- O9: four bytes in the flat array that decode to `add x5, x6, x7`. -/
theorem witness_stepRuns :
    configOk goodState.cfg = true ∧ goodState.runState = .running ∧ FlatAccess goodState.cfg goodState.pc 4 ∧
    decodeBytesIn goodState.cfg.table [Memory.byte goodState.mem goodState.pc.toNat, Memory.byte goodState.mem (goodState.pc.toNat + 1),
      Memory.byte goodState.mem (goodState.pc.toNat + 2), Memory.byte goodState.mem (goodState.pc.toNat + 3)] =
      .ok (.add 5#5 6#5 7#5, []) ∧
    registersExist goodState.cfg (.add 5#5 6#5 7#5) = true ∧
    registersExist { goodState.cfg with nreg := 7 } (.add 5#5 6#5 7#5) = false ∧
    configOk { goodState.cfg with nreg := 7 } = true := by
  unfold FlatAccess
  decide +kernel

/-- O9: a row with the empty action matches the word at the pc. -/
theorem witness_emptyRow :
    (let s := placed fenceConfig 0x80000000#32 0x0ff0000f#32 []
     configOk s.cfg = true ∧ s.runState = .running ∧ FlatAccess s.cfg s.pc 4 ∧
       matchIn s.cfg.table (rawFlat s s.pc .word) = some fenceRow ∧ fenceRow.action = .empty) := by
  unfold FlatAccess
  decide +kernel

theorem flat_of (c : Config) (a : Word) (n : Nat)
    (h : (decide (c.memBase.toNat ≤ a.toNat) && decide (a.toNat + n ≤ flatEnd c) && decide (0 < n)) = true) :
    FlatAccess c a n := by
  simpa [FlatAccess, and_assoc] using h

/-- The flat array's edges: its first byte, its last word, its last halfword, its last byte, and the top of the address space. -/
theorem witness_flat :
    FlatAccess Config.standard 0x80000000#32 4 ∧ FlatAccess Config.standard 0x87fffffc#32 4 ∧
    FlatAccess Config.standard 0x87fffffe#32 2 ∧ FlatAccess Config.standard 0x87ffffff#32 1 ∧
    FlatAccess topConfig 0xfffffffc#32 4 :=
  ⟨flat_of _ _ _ (by decide +kernel), flat_of _ _ _ (by decide +kernel), flat_of _ _ _ (by decide +kernel),
   flat_of _ _ _ (by decide +kernel), flat_of _ _ _ (by decide +kernel)⟩

/-- Out of bound: past the end, across the end, below the array, with no window. -/
theorem witness_outOfBound (callback : Window → Bool) :
    OutOfBound Config.standard 0x88000000#32 4 callback ∧ OutOfBound Config.standard 0x87fffffd#32 4 callback ∧
    OutOfBound Config.standard 0x7fffffff#32 1 callback :=
  ⟨.inr ⟨by decide +kernel, .inl (by decide +kernel)⟩, .inl (by decide +kernel),
   .inr ⟨by decide +kernel, .inl (by decide +kernel)⟩⟩

/-- Out of bound at a window: across its end, and at one without a callback. -/
theorem witness_outOfBound_device :
    OutOfBound deviceConfig 0x1000000d#32 4 Window.onRead ∧ OutOfBound deviceConfig 0x20000000#32 4 Window.onRead ∧
    OutOfBound deviceConfig 0x20000000#32 4 Window.onWrite :=
  ⟨.inr ⟨by decide +kernel, .inr ⟨_, ⟨[], _, rfl, by decide +kernel, by simp⟩, .inl (by decide +kernel)⟩⟩,
   .inr ⟨by decide +kernel, .inr ⟨_, ⟨[⟨"uart", 0x10000000#32, 16, true, true⟩], [], rfl, by decide +kernel, by decide +kernel⟩,
     .inr (by decide +kernel)⟩⟩,
   .inr ⟨by decide +kernel, .inr ⟨_, ⟨[⟨"uart", 0x10000000#32, 16, true, true⟩], [], rfl, by decide +kernel, by decide +kernel⟩,
     .inr (by decide +kernel)⟩⟩⟩

/-- A device takes an access, at the start and at the end of its window. -/
theorem witness_device :
    DeviceAccess deviceConfig 0x10000000#32 4 Window.onRead ⟨"uart", 0x10000000#32, 16, true, true⟩ ∧
    DeviceAccess deviceConfig 0x1000000c#32 4 Window.onRead ⟨"uart", 0x10000000#32, 16, true, true⟩ ∧
    DeviceAccess deviceConfig 0x1000000f#32 1 Window.onWrite ⟨"uart", 0x10000000#32, 16, true, true⟩ :=
  ⟨⟨by decide +kernel, ⟨[], _, rfl, by decide +kernel, by simp⟩, by decide +kernel, rfl⟩,
   ⟨by decide +kernel, ⟨[], _, rfl, by decide +kernel, by simp⟩, by decide +kernel, rfl⟩,
   ⟨by decide +kernel, ⟨[], _, rfl, by decide +kernel, by simp⟩, by decide +kernel, rfl⟩⟩

/-- O10: fetches that are out of bound, at the end of the flat array and from a window with no read callback. -/
theorem witness_fetchOutOfBound :
    (∃ s : State, configOk s.cfg = true ∧ s.runState = .running ∧ OutOfBound s.cfg s.pc 4 Window.onRead ∧
      s.pc = 0x88000000#32) ∧
    (∃ s : State, configOk s.cfg = true ∧ s.runState = .running ∧ OutOfBound s.cfg s.pc 4 Window.onRead ∧
      s.pc = 0x20000000#32) :=
  ⟨⟨{ State.reset with runState := .running, pc := 0x88000000#32 }, by decide +kernel, rfl, (witness_outOfBound _).1, rfl⟩,
   ⟨deviceState 0x20000000#32, by decide +kernel, rfl, witness_outOfBound_device.2.1, rfl⟩⟩

/-- O11: a fetch that a device takes. -/
theorem witness_fetchFromDevice :
    configOk (deviceState 0x1000000c#32).cfg = true ∧ (deviceState 0x1000000c#32).runState = .running ∧
    DeviceAccess (deviceState 0x1000000c#32).cfg (deviceState 0x1000000c#32).pc 4 Window.onRead
      ⟨"uart", 0x10000000#32, 16, true, true⟩ :=
  ⟨by decide +kernel, rfl, witness_device.2.1⟩

/-- O12, O13: a state in each run state, with an accepted configuration; the running one steps. -/
theorem witness_runStates :
    configOk addState.cfg = true ∧ 32 ≤ addState.cfg.nreg ∧ addState.runState = .running ∧ isNext (step addState) = true ∧
    configOk { addState with cfg := { addState.cfg with table := definedTable } }.cfg = false ∧
    configOk { addState with runState := .stopped }.cfg = true ∧
    configOk { addState with runState := .aborted }.cfg = true := by
  decide +kernel

/-- O12: a table whose last entry is not all wildcards. -/
theorem witness_lastRow : ∀ r, { State.reset with cfg := { Config.standard with table := definedTable } }.cfg.table.getLast? = some r →
    r.mask ≠ 0#32 := by
  have h : (definedTable.getLast?.map Row.mask) = some 0xffffffff#32 := by decide +kernel
  intro r hr
  rw [show definedTable.getLast? = some r from hr] at h
  simp only [Option.map_some, Option.some.injEq] at h
  rw [h]
  decide

/-- O15, O17, O21, O27: a step that commits, from a state with `x[0]` not 0 and from one that meets the invariant. -/
theorem witness_committed :
    (∃ t, step addState = .next t ∧ t.runState ≠ .aborted ∧ addState.reg 0#5 ≠ 0#32) ∧
    (∃ t, goodState.Inv ∧ step goodState = .next t ∧ t.runState = .running) :=
  ⟨⟨_, next_of_isNext (by decide +kernel), by decide +kernel, by decide +kernel⟩,
   ⟨_, goodState_inv, next_of_isNext (by decide +kernel), by decide +kernel⟩⟩

/-- O15, O16, O23: a step that ends in a fatal error, in a state with `x[0]` not 0. -/
theorem witness_fatal : ∃ t, step illegalState = .next t ∧ t.runState = .aborted ∧ illegalState.reg 0#5 ≠ 0#32 :=
  ⟨_, next_of_isNext (by decide +kernel), by decide +kernel, by decide +kernel⟩

/-- O18: a fresh reset state with values in the registers that R41 leaves open. -/
theorem witness_freshReset : State.FreshReset topConfig
    { (State.resetOf topConfig).setReg 5#5 9#32 with mtvec := 3#32, pc := 0x80000000#32 } :=
  ⟨rfl, by decide +kernel, by decide +kernel, rfl, rfl, rfl, rfl⟩

/-- O19: each host action answers, from a state that meets the invariant. -/
theorem witness_hostActions :
    goodState.Inv ∧ (goodState.resume.isSome = true) ∧
    (∃ t, goodState.hostWrite 0x87fffffc#32 .word 0x12345678#32 = .ok t) ∧
    (∃ v t, goodState.hostRead 0x80000000#32 .word = .ok (v, t)) ∧
    (goodState.started = false ∧ (goodState.setTrapVector 0#32).isSome = true ∧
      (goodState.registerWindow ⟨"uart", 0x10000000#32, 16, true, true⟩).isSome = true) ∧
    (nextState (step goodState)).started = true :=
  ⟨goodState_inv, by decide +kernel,
   ⟨{ goodState with mem := Memory.write goodState.mem 0x87fffffc 0x12345678#32 4 }, by rfl⟩,
   ⟨Memory.read goodState.mem 0x80000000 4, goodState, by rfl⟩, by decide +kernel, by decide +kernel⟩

/-- O20, O21, O60: runs that end, each from a state that meets the invariant: of no step and of one step, both `STOPPED`;
and one that ends `ABORTED`. -/
theorem witness_runs :
    goodState.Inv ∧ isNext (goodState.run 0) = true ∧
    (isNext (goodState.run 1) = true ∧ (nextState (goodState.run 1)).runState = .stopped) ∧
    faultyState.Inv ∧ (isNext (faultyState.run 3) = true ∧ (nextState (faultyState.run 3)).runState = .aborted) :=
  ⟨goodState_inv, by decide +kernel, by decide +kernel, faultyState_inv, by decide +kernel⟩

/-- O60: a run with an unbounded budget that ends, and the premises of the last clause. -/
theorem witness_continue :
    (∃ t, faultyState.Continue .fatal t) ∧ configOk faultyState.cfg = true ∧ 32 ≤ faultyState.cfg.nreg ∧
    faultyState.runState ≠ .aborted := by
  refine ⟨⟨nextState (step faultyState), faultyState, by decide +kernel, ?_⟩, by decide +kernel⟩
  have h : step faultyState = .next (nextState (step faultyState)) := next_of_isNext (by decide +kernel)
  have he : (nextState (step faultyState)).ended = .fatal := by decide +kernel
  have hl := ContinueLoop.last h (by decide +kernel)
  rwa [he] at hl

/-- O22: a CSR instruction that changes the CSR it names, and ECALL that changes `mepc`. -/
theorem witness_csrsChange :
    (∃ t, exec (.csrrw 5#5 6#5 0x300#12) addState = .next t ∧ t.csr .mstatus ≠ addState.csr .mstatus) ∧
    (∃ t, exec .ecall addState = .next t ∧ t.csr .mepc ≠ addState.csr .mepc) :=
  ⟨⟨_, next_of_isNext (by decide +kernel), by decide +kernel⟩, ⟨_, next_of_isNext (by decide +kernel), by decide +kernel⟩⟩

/-- O23, O54: EBREAK with `BREAK_TRAPS` and without; an instruction that is neither a trap nor a return. -/
theorem witness_trapRows :
    addState.cfg.breakTraps = true ∧ (placed { Config.standard with breakTraps := false } 0#32 0#32 []).cfg.breakTraps = false ∧
    (∃ t, exec (.csrrw 5#5 6#5 0x341#12) trapState = .next t) ∧ (∃ t, exec .ebreak
      (placed { Config.standard with breakTraps := false } 0#32 0#32 []) = .next t) :=
  ⟨by decide +kernel, by decide +kernel, ⟨_, next_of_isNext (by decide +kernel)⟩, ⟨_, next_of_isNext (by decide +kernel)⟩⟩

/-- O24, O25, O26, O28, O29: an instruction that stores nothing, one register that is not its destination and is no source
of it, no pc override, no CSR named; a load; a store; a taken branch; and a fatal error. -/
theorem witness_frames :
    (∃ t, exec (.add 5#5 6#5 7#5) addState = .next t ∧ isStore (.add 5#5 6#5 7#5) = false ∧
      isLoad (.add 5#5 6#5 7#5) = false ∧ destination (.add 5#5 6#5 7#5) ≠ some 8#5 ∧ 8#5 ∉ sources (.add 5#5 6#5 7#5) ∧
      addState.runState = .running ∧ t.runState ≠ .aborted) ∧
    ¬ OverridesPc addState (.add 5#5 6#5 7#5) ∧
    (∃ t, exec (.lb 5#5 8#5 1#12) addState = .next t ∧ isStore (.lb 5#5 8#5 1#12) = false ∧ t.runState = .aborted) ∧
    (∃ t, exec (.csrrs 5#5 0#5 0x305#12) addState = .next t ∧
      ∀ rd rs1, Instr.csrrs 5#5 0#5 0x305#12 ≠ .csrrw rd rs1 addState.cfg.csrStatus ∧
        Instr.csrrs 5#5 0#5 0x305#12 ≠ .csrrs rd rs1 addState.cfg.csrStatus) := by
  refine ⟨⟨_, next_of_isNext (by decide +kernel), by decide +kernel⟩, ?_, ⟨_, next_of_isNext (by decide +kernel), by decide +kernel⟩,
    ⟨_, next_of_isNext (by decide +kernel), ?_⟩⟩
  · simp [OverridesPc, branchOf]
  · have h : addState.cfg.csrStatus ≠ 0x305#12 := by decide +kernel
    intro rd rs1
    refine ⟨by simp, fun e => ?_⟩
    injection e with _ _ e
    exact h e.symm

/-- O37, O38: offsets with bit 0 clear, at both ends; operands that take and do not take each branch. -/
theorem witness_offsets :
    (0x100000#21).getLsbD 0 = false ∧ (0xffffe#21).getLsbD 0 = false ∧ (0x1000#13).getLsbD 0 = false ∧
    (0xffe#13).getLsbD 0 = false ∧
    (0xffffffff#32).toInt < (1#32).toInt ∧ ¬ (0xffffffff#32).toNat < (1#32).toNat := by
  decide +kernel

/-- O39 to O42: loads and stores in the flat array at its last byte, halfword and word, out of bound, and at a device. -/
theorem witness_accesses :
    FlatAccess Config.standard (0x87fffff0#32 + (15#12).signExtend 32) Width.byte.bytes ∧
    FlatAccess Config.standard (0x87fffff0#32 + (14#12).signExtend 32) Width.half.bytes ∧
    FlatAccess Config.standard (0x88000000#32 + (0xffc#12).signExtend 32) Width.word.bytes ∧
    OutOfBound Config.standard (0x88000000#32 + (0xffd#12).signExtend 32) Width.word.bytes Window.onRead ∧
    OutOfBound Config.standard (0x88000000#32 + (0xffd#12).signExtend 32) Width.word.bytes Window.onWrite ∧
    DeviceAccess deviceConfig (0x10000000#32 + (12#12).signExtend 32) Width.word.bytes Window.onRead
      ⟨"uart", 0x10000000#32, 16, true, true⟩ ∧
    DeviceAccess deviceConfig (0x10000000#32 + (15#12).signExtend 32) Width.byte.bytes Window.onWrite
      ⟨"uart", 0x10000000#32, 16, true, true⟩ :=
  ⟨flat_of _ _ _ (by decide +kernel), flat_of _ _ _ (by decide +kernel), flat_of _ _ _ (by decide +kernel),
   .inl (by decide +kernel), .inl (by decide +kernel),
   ⟨by decide +kernel, ⟨[], _, rfl, by decide +kernel, by simp⟩, by decide +kernel, rfl⟩,
   ⟨by decide +kernel, ⟨[], _, rfl, by decide +kernel, by simp⟩, by decide +kernel, rfl⟩⟩

/-- O43 to O45: accesses of each width in the flat array, one of them at the top of the address space. -/
theorem witness_memory :
    (0 < Width.byte.bytes ∧ 0 < Width.half.bytes ∧ 0 < Width.word.bytes) ∧
    FlatAccess State.reset.cfg 0x87fffffe#32 Width.half.bytes ∧
    FlatAccess (State.resetOf topConfig).cfg 0xfffffffc#32 4 ∧ flatEnd (State.resetOf topConfig).cfg ≤ 2 ^ 32 :=
  ⟨by decide +kernel, flat_of _ _ _ (by decide +kernel), flat_of _ _ _ (by decide +kernel), by decide +kernel⟩

/-- O46: a store to the next instruction's word (96_test_vectors_by_family.md section 8). -/
theorem witness_storeToNext :
    (let s := placed Config.standard 0x80000000#32 0x00732023#32 [(6#5, 0x80000004#32), (7#5, 0x00100073#32)]
     configOk s.cfg = true ∧ s.runState = .running ∧ s.reg 6#5 + (0#12).signExtend 32 = s.pc + 4#32 ∧
       FlatAccess s.cfg (s.pc + 4#32) 4) :=
  ⟨by decide +kernel, by decide +kernel, by decide +kernel, flat_of _ _ _ (by decide +kernel)⟩

/-- O48 to O51: the default corners and others; a zero divisor, the signed overflow, and neither of the two. -/
theorem witness_division :
    addState.cfg.divCorners = DivCorners.standard ∧ cornerConfig.divCorners ≠ DivCorners.standard ∧
    (let s := placed cornerConfig 0x80000000#32 0x13#32 [(5#5, 7#32), (6#5, 0x80000000#32), (7#5, 0xffffffff#32)]
     s.reg 4#5 = 0#32 ∧ s.reg 6#5 = 0x80000000#32 ∧ s.reg 7#5 = 0xffffffff#32 ∧ s.reg 5#5 ≠ 0#32 ∧
       ¬ (s.reg 6#5 = 0x80000000#32 ∧ s.reg 5#5 = 0xffffffff#32) ∧ (1#5 : RegId) ≠ 0#5) := by
  decide +kernel

/-- O50: a step with corners that are not the defaults gives their entries. -/
theorem test_step_other_corners :
    after (placed cornerConfig 0x80000000#32 0x027342b3#32 [(6#5, 0x80000000#32), (7#5, 0xffffffff#32)])
      (fun t => t.reg 5#5 == 4#32) = true ∧
    after (placed cornerConfig 0x80000000#32 0x027342b3#32 [(6#5, 9#32)]) (fun t => t.reg 5#5 == 9#32) = true ∧
    after (placed cornerConfig 0x80000000#32 0x027352b3#32 [(6#5, 9#32)]) (fun t => t.reg 5#5 == 5#32) = true ∧
    after (placed cornerConfig 0x80000000#32 0x027352b3#32 [(6#5, 8#32)]) (fun t => t.reg 5#5 == 1#32) = true := by
  decide +kernel

/-- O52: an accepted configuration, an address that names each CSR, and one that names none. -/
theorem witness_csr : configOk addState.cfg = true ∧ csrNamed addState.cfg .mcause = 0x342#12 ∧
    ∀ k, 0x343#12 ≠ csrNamed addState.cfg k :=
  ⟨by decide +kernel, by decide +kernel, fun k => by cases k <;> decide +kernel⟩

/-- O57: the instance of 95_test_vectors.md section 1.5. -/
theorem witness_trapRoundTrip :
    trapState.Inv ∧ configOk trapState.cfg = true ∧ trapState.runState = .running ∧
    FlatAccess trapState.cfg trapState.pc 4 ∧ decodeIn trapState.cfg.table (rawFlat trapState trapState.pc .word) = .ecall ∧
    FlatAccess trapState.cfg trapState.mtvec 4 ∧
    decodeIn trapState.cfg.table (rawFlat trapState trapState.mtvec .word) = .mret :=
  ⟨trapState_inv, by decide +kernel, by decide +kernel, flat_of _ _ _ (by decide +kernel), by decide +kernel,
   flat_of _ _ _ (by decide +kernel), by decide +kernel⟩

/-- O58: one step that leaves the machine `RUNNING`. -/
theorem witness_resumed : ∃ t, trapState.runState = .running ∧ Host.Core.run Sys2Proof.core 1 trapState = .next t ∧
    t.runState = .running := by
  refine ⟨nextState (step trapState), by decide +kernel, ?_, by decide +kernel⟩
  have h : step trapState = .next (nextState (step trapState)) := next_of_isNext (by decide +kernel)
  simp only [Host.Core.run, Sys2Proof.core]
  generalize step trapState = r at h ⊢
  cases r with
  | next t => rfl
  | fault f => cases h
  | refused q => cases h

/-- O59: an aborted state. -/
theorem witness_aborted : { State.reset with runState := .aborted }.runState = .aborted := rfl

end Sys2Proof.Tests
end

section
/-! PROOFS. The state after reset and the host's start (10_state.md R41, 70_reset_and_hazards.md R291), and the corner entries
of `DIV_CORNERS` as results of the four division instructions (00_scope.md R5, 45_muldiv.md R219). -/

namespace Sys2Proof.Machine

/-! ## The reset state -/

@[simp] theorem State.reg_resetOf (c : Config) (r : RegId) : (State.resetOf c).reg r = 0#32 := by
  simp [State.reg, State.resetOf]

/-- The model's reset state is one that R41 allows. -/
theorem State.freshReset_resetOf (c : Config) : State.FreshReset c (State.resetOf c) where
  cfg := rfl
  zero := State.reg_resetOf c 0#5
  pc := rfl
  trapState := rfl
  runState := rfl
  fault := rfl
  started := rfl

/-- Memory lists no byte, the history no access, and there is no fault record: the invariant holds at reset. -/
theorem State.inv_resetOf (c : Config) : (State.resetOf c).Inv where
  zero := State.reg_resetOf c 0#5
  high := List.length_replicate
  memWf := rfl
  memFlat := List.forall_mem_nil _
  faultIff := by simp [State.resetOf]
  draws := rfl

/-- From STOPPED the host's start sets `run_state` and nothing else (40_engine_cycle.md R123). -/
theorem State.resume_of_stopped {s : State} (h : s.runState = .stopped) :
    s.resume = some { s with runState := .running } := by
  rw [State.resume, h]

/-- Settles O18: the reset state is fresh and meets the invariant, and every fresh state is STOPPED, where the host's start
changes `run_state` alone. -/
theorem resetStateIsFreshAndMeetsTheInvariant : Obligations.ResetStateIsFreshAndMeetsTheInvariant :=
  ⟨fun c => ⟨State.freshReset_resetOf c, State.inv_resetOf c⟩, rfl, rfl,
    fun _ _ h => State.resume_of_stopped h.runState⟩

/-! ## The results of the divisions at the corners -/

section Corners
variable (d : DivCorners) (a : Word)

@[simp] theorem divSigned_zero : divSigned d a 0#32 = cornerResult d.divZero a := if_pos rfl
@[simp] theorem divUnsigned_zero : divUnsigned d a 0#32 = cornerResult d.divuZero a := if_pos rfl
@[simp] theorem remSigned_zero : remSigned d a 0#32 = cornerResult d.remZero a := if_pos rfl
@[simp] theorem remUnsigned_zero : remUnsigned d a 0#32 = cornerResult d.remuZero a := if_pos rfl

@[simp] theorem divSigned_overflow :
    divSigned d 0x80000000#32 0xffffffff#32 = cornerResult d.divOverflow 0x80000000#32 := by
  simp [divSigned, divOverflows]

@[simp] theorem remSigned_overflow :
    remSigned d 0x80000000#32 0xffffffff#32 = cornerResult d.remOverflow 0x80000000#32 := by
  simp [remSigned, divOverflows]

/-- The operands of the signed overflow are an ordinary pair of DIVU: the dividend is the smaller. -/
@[simp] theorem divUnsigned_overflow : divUnsigned d 0x80000000#32 0xffffffff#32 = 0#32 := by
  simp [divUnsigned]

/-- The operands of the signed overflow are an ordinary pair of REMU: the dividend is the smaller. -/
@[simp] theorem remUnsigned_overflow : remUnsigned d 0x80000000#32 0xffffffff#32 = 0x80000000#32 := by
  simp [remUnsigned]

end Corners

/-! ## The division instructions -/

/-- An action that ends in `writeNext` completes, writes its one register and advances the pc by 4. -/
theorem State.writeNext_writesReg (s : State) (rd : RegId) (v : Word) :
    ∃ t, s.writeNext rd v = .next t ∧ WritesReg s t rd v (s.pc + 4#32) :=
  ⟨_, s.writeNext_eq rd v, s.writesReg_commit rd v s.snpc⟩

section Divisions
variable (rd rs1 rs2 : RegId) (s : State)

/-- DIV writes `divSigned` of its sources, whatever they are (R214). -/
theorem exec_div_writesReg : ∃ t, exec (.div rd rs1 rs2) s = .next t ∧
    WritesReg s t rd (divSigned s.cfg.divCorners (s.reg rs1) (s.reg rs2)) (s.pc + 4#32) :=
  s.writeNext_writesReg rd _

/-- DIVU writes `divUnsigned` of its sources, whatever they are (R215). -/
theorem exec_divu_writesReg : ∃ t, exec (.divu rd rs1 rs2) s = .next t ∧
    WritesReg s t rd (divUnsigned s.cfg.divCorners (s.reg rs1) (s.reg rs2)) (s.pc + 4#32) :=
  s.writeNext_writesReg rd _

/-- REM writes `remSigned` of its sources, whatever they are (R216). -/
theorem exec_rem_writesReg : ∃ t, exec (.rem rd rs1 rs2) s = .next t ∧
    WritesReg s t rd (remSigned s.cfg.divCorners (s.reg rs1) (s.reg rs2)) (s.pc + 4#32) :=
  s.writeNext_writesReg rd _

/-- REMU writes `remUnsigned` of its sources, whatever they are (R217). -/
theorem exec_remu_writesReg : ∃ t, exec (.remu rd rs1 rs2) s = .next t ∧
    WritesReg s t rd (remUnsigned s.cfg.divCorners (s.reg rs1) (s.reg rs2)) (s.pc + 4#32) :=
  s.writeNext_writesReg rd _

end Divisions

/-- Settles O50: each instruction writes its result function's value, which at a corner is the parameter's entry, and for
DIVU and REMU at the signed overflow's operands the ordinary result. -/
theorem divisionCornersAreTheParameter : Obligations.DivisionCornersAreTheParameter := by
  intro rd rs1 rs2 s
  have hdiv := exec_div_writesReg rd rs1 rs2 s
  have hdivu := exec_divu_writesReg rd rs1 rs2 s
  have hrem := exec_rem_writesReg rd rs1 rs2 s
  have hremu := exec_remu_writesReg rd rs1 rs2 s
  constructor
  · intro hzero
    rw [hzero, divSigned_zero] at hdiv
    rw [hzero, divUnsigned_zero] at hdivu
    rw [hzero, remSigned_zero] at hrem
    rw [hzero, remUnsigned_zero] at hremu
    exact ⟨hdiv, hdivu, hrem, hremu⟩
  · intro hmin hneg
    rw [hmin, hneg, divSigned_overflow] at hdiv
    rw [hmin, hneg, divUnsigned_overflow] at hdivu
    rw [hmin, hneg, remSigned_overflow] at hrem
    rw [hmin, hneg, remUnsigned_overflow] at hremu
    rw [hmin]
    exact ⟨hdiv, hrem, hdivu, hremu⟩

end Sys2Proof.Machine
end

section
/-! PROOFS. What every step and every run keeps (10_state.md R21, R22, R37, R38, R40, R51, R63): the machine's invariant and
its configuration. An instruction is taken through its endings (`Ending`), a run through `run_induction`. -/

namespace Sys2Proof.Machine

/-! ## What an access leaves unchanged -/

/-- A read changes the draw counter and the history at most. -/
theorem State.memRead_frame {s t : State} {addr v : Word} {n : Width} (h : s.memRead addr n = .ok (v, t)) :
    ∃ d es, t = { s with draws := d, events := es } := by
  rcases s.memRead_cases addr n with ⟨-, e⟩ | ⟨w, o, -, -, e⟩ | e <;> rw [e] at h <;> cases h
  · exact ⟨_, _, rfl⟩
  · exact ⟨_, _, rfl⟩

/-- A write changes memory and the history at most. -/
theorem State.memWrite_frame {s t : State} {addr v : Word} {n : Width} (h : s.memWrite addr n v = .ok t) :
    ∃ m es, t = { s with mem := m, events := es } := by
  rcases s.memWrite_cases addr n v with ⟨-, e⟩ | ⟨w, o, -, -, e⟩ | e <;> rw [e] at h <;> cases h
  · exact ⟨_, _, rfl⟩
  · exact ⟨_, _, rfl⟩

/-- After every commit `x[0]` is 0 (40_engine_cycle.md R120). -/
@[simp] theorem State.reg_zero_commit (s : State) (target : Word) : (s.commit target).reg 0#5 = 0#32 := by
  rw [State.reg_commit, if_pos rfl]

/-! ## The invariant over the operations -/

/-- A recorded read counts. -/
@[simp] theorem readCount_read (es : List DeviceEvent) (w : Window) (o : Word) (n : Width) (v : Word) :
    readCount (es ++ [.read w o n v]) = readCount es + 1 := by
  simp [readCount, List.countP_append]

/-- A recorded write does not. -/
@[simp] theorem readCount_write (es : List DeviceEvent) (w : Window) (o : Word) (n : Width) (v : Word) :
    readCount (es ++ [.write w o n v]) = readCount es := by
  simp [readCount, List.countP_append]

/-- Outside `ABORTED` there is no fault record. -/
theorem State.Inv.fault_eq_none {s : State} (h : s.Inv) (hr : s.runState ≠ .aborted) : s.fault = none :=
  Decidable.not_not.mp fun hf => hr (h.faultIff.mp hf)

/-- Where memory, the history and the configuration are those of a state that meets the invariant, `x[0]` and the fault record
are left to show. -/
theorem State.Inv.of_same {s t : State} (h : s.Inv) (zero : t.reg 0#5 = 0#32)
    (fault : t.fault ≠ none ↔ t.runState = .aborted) (cfg : t.cfg = s.cfg) (high : t.xHigh = s.xHigh)
    (mem : t.mem = s.mem) (events : t.events = s.events) (draws : t.draws = s.draws) : t.Inv where
  zero := zero
  high := by rw [high, cfg, h.high]
  memWf := by rw [mem, h.memWf]
  memFlat := by rw [mem, cfg]; exact h.memFlat
  faultIff := fault
  draws := by rw [draws, events, h.draws]

/-- The mark that a step has been taken is no part of the invariant. -/
theorem State.Inv.begin {s : State} (h : s.Inv) : s.begin.Inv :=
  h.of_same h.zero h.faultIff rfl rfl rfl rfl rfl

/-- A fatal error writes the record and leaves the machine `ABORTED`. -/
theorem State.Inv.abort {s : State} (h : s.Inv) (f : Fatal) : (s.abort f).Inv :=
  h.of_same h.zero (by simp) rfl rfl rfl rfl rfl

/-- A stop outside `ABORTED`. -/
theorem State.Inv.stop {s : State} (h : s.Inv) (hr : s.runState ≠ .aborted) : s.stop.Inv :=
  h.of_same h.zero (by simp [h.fault_eq_none hr]) rfl rfl rfl rfl rfl

/-- The host's start: it answers outside `ABORTED` only (40_engine_cycle.md R123). -/
theorem State.resume_eq_some {s t : State} (h : s.resume = some t) :
    s.runState ≠ .aborted ∧ t = { s with runState := .running } := by
  rw [State.resume] at h
  split at h <;> rename_i hr <;> cases h
  · exact ⟨by simp [hr], rfl⟩
  · exact ⟨by simp [hr], by rw [← hr]⟩

/-- The host's start takes place where there is no fault record. -/
theorem State.Inv.resume {s t : State} (h : s.Inv) (ht : s.resume = some t) : t.Inv := by
  obtain ⟨hr, rfl⟩ := State.resume_eq_some ht
  exact h.of_same h.zero (by simp [h.fault_eq_none hr]) rfl rfl rfl rfl rfl

/-- A device read is one draw and one recorded read (20_memory.md R63). -/
theorem State.Inv.memRead {s t : State} {addr v : Word} {n : Width} (h : s.Inv) (hr : s.memRead addr n = .ok (v, t)) :
    t.Inv := by
  rcases s.memRead_cases addr n with ⟨-, e⟩ | ⟨w, o, -, -, e⟩ | e <;> rw [e] at hr <;> cases hr
  · exact h
  · exact { h with draws := by simp [h.draws] }

/-- A write to the flat array lists bytes of the access only, all of which are in the array (R51, R62). -/
theorem State.Inv.memWrite {s t : State} {addr v : Word} {n : Width} (h : s.Inv) (hw : s.memWrite addr n v = .ok t) :
    t.Inv := by
  have hwf := State.memWrite_wf hw h.memWf
  rcases s.memWrite_cases addr n v with ⟨hflat, e⟩ | ⟨w, o, -, -, e⟩ | e <;> rw [e] at hw <;> cases hw
  · refine { h with memWf := hwf, memFlat := fun c hc => ?_ }
    rcases Memory.mem_write hc with hin | hold
    · rw [resolve_flat] at hflat
      simp only [inFlat, Bool.and_eq_true, decide_eq_true_eq] at hflat ⊢
      omega
    · exact h.memFlat c hold
  · exact { h with draws := by simp [h.draws] }

/-! ## The invariant over instructions and steps -/

/-- An instruction that a running machine executes keeps the invariant. -/
theorem Ending.keeps_inv {i : Instr} {s t : State} (e : Ending i s t) (h : s.Inv) (hr : s.runState = .running) : t.Inv := by
  have hra : s.runState ≠ .aborted := by simp [hr]
  cases e with
  | aborted f => exact h.abort f
  | loaded u rd addr v w n _ _ hread =>
    have hu := h.memRead hread
    exact hu.of_same (by simp) hu.faultIff rfl rfl rfl rfl rfl
  | stored u addr v n _ hwrite =>
    have hu := h.memWrite hwrite
    exact hu.of_same (by simp) hu.faultIff rfl rfl rfl rfl rfl
  | wrote | linked | fell | branched | called | returned => exact h.of_same (by simp) h.faultIff rfl rfl rfl rfl rfl
  | csr => exact h.of_same (by simp) (by simpa using h.faultIff) (by simp) (by simp) (by simp) (by simp) (by simp)
  | broke | stopped => exact h.of_same (by simp) (by simp [h.fault_eq_none hra]) rfl rfl rfl rfl rfl

/-- The fetch keeps the invariant, and so does each ending of the instruction it fetches. -/
theorem State.Inv.step {s t : State} (h : s.Inv) (e : step s = .next t) : t.Inv := by
  obtain ⟨-, hr, ⟨inst, u, hf, hx⟩ | ⟨f, -, rfl⟩⟩ := step_next e
  · obtain ⟨d, es, hu⟩ := State.memRead_frame hf
    have hru : u.runState = .running := by rw [hu]; exact hr
    exact (Ending.of_exec hx).keeps_inv (h.begin.memRead hf) hru
  · exact h.begin.abort f

/-- Settles O17, by the cases of a step: the fetch's fatal error, or the fetched instruction's ending. -/
theorem stepKeepsTheInvariant : Obligations.StepKeepsTheInvariant :=
  fun _ _ h e => h.step e

/-! ## Runs -/

/-- What every step keeps, and a stop in `RUNNING` too, holds at the end of the loop of a run. -/
theorem runLoop_induction {P : State → Prop} (hstep : ∀ s t, P s → step s = .next t → P t)
    (hstop : ∀ s, P s → s.runState = .running → P s.stop) {n : Nat} {s t : State} (h : P s)
    (hr : s.runState = .running) (e : runLoop n s = .next t) : P t := by
  induction n generalizing s with
  | zero => cases e; exact hstop s h hr
  | succ n ih =>
    rw [runLoop] at e
    split at e
    · rename_i u hu
      have hPu := hstep s u h hu
      split at e
      · exact ih hPu (by assumption) e
      · cases e; exact hPu
    · cases e
    · cases e

/-- The same for a whole run, which the host's start begins. -/
theorem State.run_induction {P : State → Prop} (hstart : ∀ s t, P s → s.resume = some t → P t)
    (hstep : ∀ s t, P s → Machine.step s = .next t → P t) (hstop : ∀ s, P s → s.runState = .running → P s.stop)
    {n : Nat} {s t : State} (h : P s) (e : s.run n = .next t) : P t := by
  rw [State.run] at e
  split at e
  · rename_i u hu
    exact runLoop_induction hstep hstop (hstart s u h hu) (by rw [(State.resume_eq_some hu).2]) e
  · cases e

/-- Settles O20: the start, each step and the stop at the end of the budget keep the invariant. -/
theorem runKeepsTheInvariant : Obligations.RunKeepsTheInvariant :=
  fun _ _ _ h e => State.run_induction (P := State.Inv) (fun _ _ h => h.resume) (fun _ _ h => h.step)
    (fun _ h hr => h.stop (by simp [hr])) h e

/-! ## The configuration -/

/-- No instruction changes the configuration, nor the mark that a step has been taken (R40). -/
theorem Ending.keeps_cfg_started {i : Instr} {s t : State} (e : Ending i s t) : t.cfg = s.cfg ∧ t.started = s.started := by
  cases e with
  | loaded u rd addr v w n _ _ hread =>
    obtain ⟨d, es, rfl⟩ := State.memRead_frame hread
    exact ⟨rfl, rfl⟩
  | stored u addr v n _ hwrite =>
    obtain ⟨m, es, rfl⟩ := State.memWrite_frame hwrite
    exact ⟨rfl, rfl⟩
  | csr => exact ⟨by simp, by simp⟩
  | aborted | wrote | linked | fell | branched | called | broke | stopped | returned => exact ⟨rfl, rfl⟩

/-- Every step keeps the configuration and sets the mark. -/
theorem step_cfg_started {s t : State} (e : step s = .next t) : t.cfg = s.cfg ∧ t.started = true := by
  obtain ⟨-, -, ⟨inst, u, hf, hx⟩ | ⟨f, -, rfl⟩⟩ := step_next e
  · obtain ⟨d, es, rfl⟩ := State.memRead_frame hf
    exact (Ending.of_exec hx).keeps_cfg_started
  · exact ⟨rfl, rfl⟩

/-- A run keeps the configuration, and the mark where it is set. -/
theorem State.run_cfg_started {s t : State} {n : Nat} (e : s.run n = .next t) :
    t.cfg = s.cfg ∧ (s.started = true → t.started = true) := by
  refine State.run_induction (P := fun u => u.cfg = s.cfg ∧ (s.started = true → u.started = true))
    ?hstart ?hstep ?hstop ⟨rfl, id⟩ e
  case hstart =>
    intro u v hu hv
    obtain ⟨-, rfl⟩ := State.resume_eq_some hv
    exact hu
  case hstep =>
    intro u v ⟨hcfg, _⟩ hv
    obtain ⟨hcfg', hstarted⟩ := step_cfg_started hv
    exact ⟨hcfg'.trans hcfg, fun _ => hstarted⟩
  case hstop => exact fun u hu _ => hu

/-- Settles O21: no ending touches the configuration; the host's two configuration writes look at the mark `started`. -/
theorem configurationIsImmutable : Obligations.ConfigurationIsImmutable := by
  refine ⟨fun _ _ => step_cfg_started, fun _ _ _ => State.run_cfg_started, fun s hs => ?_, fun s hs => ?_⟩
  · simp [State.registerWindow, State.setTrapVector, hs]
  · simp [State.registerWindow, State.setTrapVector, hs]

end Sys2Proof.Machine
end

section
/-! PROOFS. What an instruction may write (10_state.md R23, R26, R30 to R33): general registers, the pc and the CSRs, each from
the instruction's endings. And the two CSR instructions in full (46_system.md R230, R231). -/

namespace Sys2Proof.Machine

/-! ## General registers -/

/-- A commit writes no register but `x[0]`. -/
theorem State.reg_commit_of_ne (s : State) {q : RegId} (target : Word) (h0 : q ≠ 0#5) :
    (s.commit target).reg q = s.reg q := by
  rw [State.reg_commit, if_neg h0]

/-- A write to the destination and a commit write no register but the destination and `x[0]`. -/
theorem State.reg_setReg_commit_of_ne (s : State) {i : Instr} {q rd : RegId} (v target : Word)
    (hd : destination i = some rd) (h0 : q ≠ 0#5) (hq : destination i ≠ some q) :
    ((s.setReg rd v).commit target).reg q = s.reg q := by
  have hne : q ≠ rd := fun h => hq (h ▸ hd)
  rw [State.reg_setReg_commit, if_neg h0, if_neg hne]

/-- An ending writes `x[0]` and the destination, and no other general register (R23). -/
theorem Ending.writes_destination_only {i : Instr} {s t : State} (e : Ending i s t) :
    (∀ q, q ≠ 0#5 → destination i ≠ some q → t.reg q = s.reg q) ∧ t.xHigh = s.xHigh := by
  cases e with
  | aborted => exact ⟨fun _ _ _ => rfl, rfl⟩
  | loaded u rd addr v w n _ hd hread =>
    obtain ⟨d, es, rfl⟩ := State.memRead_frame hread
    exact ⟨fun _ => State.reg_setReg_commit_of_ne _ _ _ hd, rfl⟩
  | stored u addr v n _ hwrite =>
    obtain ⟨m, es, rfl⟩ := State.memWrite_frame hwrite
    exact ⟨fun _ h0 _ => State.reg_commit_of_ne _ _ h0, rfl⟩
  | wrote rd v hd => exact ⟨fun _ => s.reg_setReg_commit_of_ne _ _ hd, rfl⟩
  | linked rd target hd => exact ⟨fun _ => s.reg_setReg_commit_of_ne _ _ hd, rfl⟩
  | fell | branched | called | returned => exact ⟨fun _ h0 _ => State.reg_commit_of_ne _ _ h0, rfl⟩
  | broke | stopped => exact ⟨fun q h0 _ => (State.reg_stop _ q).trans (State.reg_commit_of_ne _ _ h0), rfl⟩
  | csr rd a k v hd =>
    refine ⟨fun q h0 hq => ?_, by simp⟩
    rw [State.reg_setReg_commit_of_ne _ _ _ hd h0 hq, State.reg_setCsr]

/-- Settles O25, by the endings of an instruction. -/
theorem onlyTheDestinationIsWritten : Obligations.OnlyTheDestinationIsWritten :=
  fun _ _ _ h => (Ending.of_exec h).writes_destination_only

/-! ## The pc -/

/-- The pc after an ending of a running machine's instruction: the fatal error leaves it, and every other ending that does not
overwrite `dnpc` advances it by 4 (R26, R116). -/
theorem Ending.pc_cases {i : Instr} {s t : State} (e : Ending i s t) (hr : s.runState = .running) :
    (t.runState = .aborted ∧ t.pc = s.pc) ∨ (t.runState ≠ .aborted ∧ (OverridesPc s i ∨ t.pc = s.pc + 4#32)) := by
  have hra : s.runState ≠ .aborted := by simp [hr]
  cases e with
  | aborted => exact .inl ⟨rfl, rfl⟩
  | loaded u rd addr v w n _ _ hread =>
    obtain ⟨d, es, rfl⟩ := State.memRead_frame hread
    exact .inr ⟨hra, .inr rfl⟩
  | stored u addr v n _ hwrite =>
    obtain ⟨m, es, rfl⟩ := State.memWrite_frame hwrite
    exact .inr ⟨hra, .inr rfl⟩
  | wrote | fell => exact .inr ⟨hra, .inr rfl⟩
  | csr => exact .inr ⟨by simpa using hra, .inr rfl⟩
  | stopped => exact .inr ⟨by simp, .inr rfl⟩
  | linked rd target _ hi =>
    refine .inr ⟨hra, .inl ?_⟩
    rcases hi with ⟨imm, rfl⟩ | ⟨rs1, imm, rfl⟩ <;> simp [OverridesPc]
  | branched target hb => exact .inr ⟨hra, .inl (.inr (.inr (.inl hb)))⟩
  | called hi | returned hi => exact .inr ⟨hra, .inl (by simp [OverridesPc, hi])⟩
  | broke hi hb => exact .inr ⟨by simp, .inl (by simp [OverridesPc, hi, hb])⟩

/-- Settles O26, by the endings of an instruction. -/
theorem pcAdvancesByFour : Obligations.PcAdvancesByFour := by
  intro i s t h hr
  rcases (Ending.of_exec h).pc_cases hr with ⟨ha, hpc⟩ | ⟨ha, hpc⟩
  · exact ⟨fun _ => hpc, fun hn => absurd ha hn⟩
  · exact ⟨fun h => absurd h ha, fun _ ho => hpc.resolve_left ho⟩

/-! ## The CSRs -/

/-- An access leaves the CSRs alone. -/
@[simp] theorem State.csr_memory (s : State) (k : Csr) (m : Memory) (es : List DeviceEvent) (d : Nat) :
    ({ s with mem := m, events := es, draws := d } : State).csr k = s.csr k := by
  cases k <;> rfl

/-- Trap entry changes `mepc` and `mcause` at most (60_exceptions.md R252, R254). -/
theorem State.csr_trap_ne {s : State} {k : Csr} {c : Word} (h : (s.trap c).2.csr k ≠ s.csr k) : k = .mepc ∨ k = .mcause := by
  cases k
  case mstatus => exact absurd rfl h
  case mtvec => exact absurd rfl h
  case mepc => exact .inl rfl
  case mcause => exact .inr rfl

/-- Settles O22, by the endings of an instruction: a CSR instruction's address names the CSR it writes, and otherwise only trap
entry writes one. -/
theorem csrsChangeOnlyAsNamed : Obligations.CsrsChangeOnlyAsNamed := by
  intro i s t k h hne
  cases Ending.of_exec h with
  | loaded u rd addr v w n _ _ hread =>
    obtain ⟨d, es, rfl⟩ := State.memRead_frame hread
    exact absurd (by simp) hne
  | stored u addr v n _ hwrite =>
    obtain ⟨m, es, rfl⟩ := State.memWrite_frame hwrite
    exact absurd (by simp) hne
  | aborted | wrote | linked | fell | branched | stopped | returned => exact absurd (by simp) hne
  | csr rd a j v _ hj hi =>
    have hkj : k = j := by
      by_contra hkj
      exact hne (by simp [State.csr_setCsr, hkj])
    have ha : a = csrNamed s.cfg k := hkj ▸ csrAt_eq_some hj
    subst ha
    rcases hi with ⟨rs1, h⟩ | ⟨rs1, h⟩
    · exact .inl ⟨rd, rs1, .inl h⟩
    · exact .inl ⟨rd, rs1, .inr h⟩
  | called hi => exact .inr ⟨State.csr_trap_ne (by simpa using hne), .inl hi⟩
  | broke hi hb => exact .inr ⟨State.csr_trap_ne (by simpa using hne), .inr ⟨hi, hb⟩⟩

/-! ## CSRRW and CSRRS -/

/-- What the shared shape of the CSR instructions does, in a machine whose four CSR addresses differ (46_system.md R230,
R231, 10_state.md R34). -/
theorem State.csrUpdate_effect {i : CsrAddr → Instr} {s : State} {rd : RegId} {new : Word → Word}
    (hc : configOk s.cfg = true) (hi : ∀ a, exec (i a) s = s.csrUpdate rd a new) : CsrEffect i s rd new := by
  constructor
  · intro k
    have e : exec (i (csrNamed s.cfg k)) s = _ := hi _
    rw [State.csrUpdate, csrAt_csrNamed hc k] at e
    refine ⟨_, e, ⟨fun r => ?_, by simp⟩, fun j => ?_, rfl, fun _ => by simp, ?_⟩
    · rw [State.reg_setReg_commit, State.reg_setCsr]
    · rw [State.csr_commit, State.csr_setReg, State.csr_setCsr]
    · exact ⟨by simp, by simp, by simp, by simp, by simp, by simp, by simp⟩
  · intro a ha
    have e : exec (i a) s = _ := hi a
    rw [State.csrUpdate, csrAt_eq_none ha] at e
    exact ⟨_, e, s.aborted_abort _⟩

end Sys2Proof.Machine

namespace Sys2Proof

/-- Where rows exclude each other, a row that matches a word is the one the word selects (30_encoding.md R94, R96). -/
theorem matchIn_of_pairwise {rows : List Row} (hp : rows.Pairwise fun p q => p.excludes q = true) {r : Row} {w : Word}
    (hr : r ∈ rows) (hw : r.test w = true) : matchIn rows w = some r := by
  induction rows with
  | nil => cases hr
  | cons q qs ih =>
    obtain ⟨hq, hqs⟩ := List.pairwise_cons.mp hp
    rcases List.mem_cons.mp hr with rfl | hr
    · rw [matchIn_cons, if_pos hw]
    · have hnot : ¬ q.test w = true := fun h => Row.not_test_of_excludes (hq r hr) w ⟨h, hw⟩
      rw [matchIn_cons, if_neg hnot, ih hqs hr]

/-- A word that matches one of rows 1 to 50 decodes to that row's instruction, whichever row it is. -/
theorem decode_of_test {r : Row} {w : Word} (hr : r ∈ definedTable) (hw : r.test w = true) :
    decode w = r.action.build w := by
  have hp : definedTable.Pairwise fun p q => p.excludes q = true := by
    have h := tableWf_pairwise tableWf_patternTable
    rwa [patternTable, List.dropLast_concat] at h
  rw [decode, decodeIn, patternTable, matchIn_append, matchIn_of_pairwise hp hr hw]
  rfl

/-- Row 46: the word of CSRRW (R97, R102 (b)). -/
theorem decode_csrrw (rd rs1 : RegId) (a : CsrAddr) :
    decode (encodeI a rs1 0b001#3 rd 0b1110011#7) = .csrrw rd rs1 a := by
  rw [decode_of_test (r := ⟨.I, 0x00001073#32, 0x0000707f#32, 0, .csrrw⟩) (by simp [definedTable, rowsSystem])
    (by simp [Row.test])]
  simp [Action.build]

/-- Row 47: the word of CSRRS (R97, R102 (b)). -/
theorem decode_csrrs (rd rs1 : RegId) (a : CsrAddr) :
    decode (encodeI a rs1 0b010#3 rd 0b1110011#7) = .csrrs rd rs1 a := by
  rw [decode_of_test (r := ⟨.I, 0x00002073#32, 0x0000707f#32, 0, .csrrs⟩) (by simp [definedTable, rowsSystem])
    (by simp [Row.test])]
  simp [Action.build]

end Sys2Proof

namespace Sys2Proof.Machine

/-- Settles O52: decoding by rows 46 and 47, and the effect of the two instructions' shared shape. -/
theorem csrReadAndModify : Obligations.CsrReadAndModify :=
  fun rd rs1 _ hc => ⟨decode_csrrw rd rs1, State.csrUpdate_effect hc fun _ => rfl, decode_csrrs rd rs1,
    State.csrUpdate_effect hc fun _ => rfl⟩

end Sys2Proof.Machine
end

section
/-! PROOFS. When a step is taken (40_engine_cycle.md R110), and that nothing but reset leaves `ABORTED` (60_exceptions.md
R258). -/

namespace Sys2Proof.Machine

/-! ## The ends of a step that is not taken -/

/-- A configuration the model does not accept is refused before anything else (log 9). -/
theorem step_of_badConfig {s : State} (hc : configOk s.cfg = false) : step s = .refused .badConfig := by
  simp [step, hc]

/-- No step is taken in `ABORTED` (R258). -/
theorem step_of_aborted {s : State} (hc : configOk s.cfg = true) (hr : s.runState = .aborted) :
    step s = .fault .aborted := by
  simp [step, hc, hr]

/-- No step is taken in `STOPPED` (R110). -/
theorem step_of_stopped {s : State} (hc : configOk s.cfg = true) (hr : s.runState = .stopped) :
    step s = .refused .stopped := by
  simp [step, hc, hr]

/-- A step that answers a next state is taken in `RUNNING` (R110). -/
theorem running_of_step {s t : State} (h : step s = .next t) : s.runState = .running :=
  (step_next h).2.1

/-- An accepted configuration's table ends in a row of wildcards (30_encoding.md R95). -/
theorem configOk_last {c : Config} (h : configOk c = true) : ∃ r, c.table.getLast? = some r ∧ r.mask = 0#32 := by
  simp only [configOk, Bool.and_eq_true, tableOk_eq] at h
  obtain ⟨⟨⟨⟨htable, -⟩, -⟩, -⟩, -⟩ := h
  obtain ⟨r, hr, -, hm, -⟩ := tableWf_last htable
  exact ⟨r, hr, hm⟩

/-- Settles O12, by the branches of a step; a table that does not end in wildcards makes the configuration a refused one. -/
theorem stepIsTakenOnlyWhenRunning : Obligations.StepIsTakenOnlyWhenRunning := by
  refine ⟨fun _ _ => running_of_step, fun _ => step_of_aborted, fun _ => step_of_stopped, fun _ => step_of_badConfig,
    fun s h => step_of_badConfig ?_⟩
  by_contra hc
  obtain ⟨r, hr, hm⟩ := configOk_last (Bool.eq_true_of_not_eq_false hc)
  exact h r hr hm

/-! ## `ABORTED` -/

/-- The host cannot start a run in `ABORTED` (60_exceptions.md R269 (b)). -/
theorem State.resume_of_aborted {s : State} (h : s.runState = .aborted) : s.resume = none := by
  rw [State.resume, h]

/-- Settles O59: a step needs `RUNNING`, a run needs the host's start, and reset is the reset state of the same parameters. -/
theorem abortedEndsOnlyByReset : Obligations.AbortedEndsOnlyByReset := by
  intro s h
  refine ⟨fun t ht => ?_, State.resume_of_aborted h, fun n => ?_, State.freshReset_resetOf s.cfg⟩
  · rw [running_of_step ht] at h
    cases h
  · rw [State.run, State.resume_of_aborted h]

end Sys2Proof.Machine
end

section
/-! PROOFS. What an instruction may read (10_state.md R23, R30, R36; 30_encoding.md R90). One simulation carries the three
statements: where two states agree on what an instruction reads, and the updates that meanings are made of keep them related,
the instruction keeps them related. Each statement is one relation between states. -/

namespace Sys2Proof.Machine

/-! ## Simulations -/

/-- An update of the state out of which the meanings and the step are made (Ops.lean), but for a CSR instruction's write. -/
inductive Update where
  | begin
  | setReg (r : RegId) (v : Word)
  | commit (target : Word)
  | stop
  | abort (f : Fatal)
  | trap (cause : Word)
  | returnFromTrap
  | store (m : Memory)
  | record (reads : Nat) (e : DeviceEvent)

/-- The state after an update: the model's own operation. -/
def Update.apply (s : State) : Update → State
  | .begin => s.begin
  | .setReg r v => s.setReg r v
  | .commit target => s.commit target
  | .stop => s.stop
  | .abort f => s.abort f
  | .trap cause => (s.trap cause).2
  | .returnFromTrap => s.returnFromTrap.2
  | .store m => { s with mem := m }
  | .record reads e => { s with draws := s.draws + reads, events := s.events ++ [e] }

/-- The two states agree on what a meaning may read beside its source registers and a CSR it names. -/
structure SameReads (s u : State) : Prop where
  cfg : u.cfg = s.cfg
  pc : u.pc = s.pc
  mtvec : u.mtvec = s.mtvec
  mepc : u.mepc = s.mepc
  runState : u.runState = s.runState
  mem : u.mem = s.mem
  draws : u.draws = s.draws

/-- `R` relates states that `i` cannot tell apart, and the updates `i` may make keep them related. -/
structure Simulation (i : Instr) (R : State → State → Prop) : Prop where
  reads : ∀ {s u}, R s u → SameReads s u
  source : ∀ {s u}, R s u → ∀ r ∈ sources i, u.reg r = s.reg r
  update : ∀ {s u}, R s u → ∀ o : Update, R (o.apply s) (o.apply u)
  csr : ∀ {s u rd rs1 a k}, R s u → i = .csrrw rd rs1 a ∨ i = .csrrs rd rs1 a → csrAt s.cfg a = some k →
    u.csr k = s.csr k ∧ ∀ v, R (s.setCsr k v) (u.setCsr k v)

/-- Both results are next states, and `R` relates them. -/
def Lockstep (R : State → State → Prop) (a b : Result) : Prop := ∃ t v, a = .next t ∧ b = .next v ∧ R t v

/-! ## Simulations of the shared shapes of the meanings -/

section Shapes
variable {i : Instr} {R : State → State → Prop} {s u : State} (hR : Simulation i R) (h : R s u)
include hR h

/-- The source register of an instruction with one. -/
theorem Simulation.source_one {r : RegId} (hi : sources i = [r]) : u.reg r = s.reg r :=
  hR.source h r (by simp [hi])

/-- The source registers of an instruction with two. -/
theorem Simulation.source_two {r q : RegId} (hi : sources i = [r, q]) : u.reg r = s.reg r ∧ u.reg q = s.reg q :=
  ⟨hR.source h r (by simp [hi]), hR.source h q (by simp [hi])⟩

/-- A commit at the same target. -/
theorem Simulation.commit (target : Word) : Lockstep R (.next (s.commit target)) (.next (u.commit target)) :=
  ⟨_, _, rfl, rfl, hR.update h (.commit target)⟩

/-- A stop. -/
theorem Simulation.stop : Lockstep R (.next s.stop) (.next u.stop) :=
  ⟨_, _, rfl, rfl, hR.update h .stop⟩

/-- The same fatal error. -/
theorem Simulation.abort (f : Fatal) : Lockstep R (.next (s.abort f)) (.next (u.abort f)) :=
  ⟨_, _, rfl, rfl, hR.update h (.abort f)⟩

/-- `snpc` is the same on both sides. -/
theorem Simulation.snpc : u.snpc = s.snpc := by
  rw [State.snpc, State.snpc, (hR.reads h).pc]

/-- The same value is written. -/
theorem Simulation.writeNext (rd : RegId) {v w : Word} (hv : w = v) :
    Lockstep R (s.writeNext rd v) (u.writeNext rd w) := by
  subst hv
  rw [State.writeNext, State.writeNext, hR.snpc h]
  exact hR.commit (hR.update h (.setReg rd w)) _

/-- The jump goes to the same target. -/
theorem Simulation.jump (rd : RegId) {v w : Word} (hv : w = v) : Lockstep R (s.jump rd v) (u.jump rd w) := by
  subst hv
  rw [State.jump, State.jump, hR.snpc h]
  exact hR.commit (hR.update h (.setReg rd s.snpc)) _

/-- The branch is taken on both sides or on neither. -/
theorem Simulation.branch (imm : BitVec 13) {p q : Bool} (hp : q = p) : Lockstep R (s.branch p imm) (u.branch q imm) := by
  subst hp
  rw [State.branch, State.branch, hR.snpc h, (hR.reads h).pc]
  exact hR.commit h _

/-- A read answers the same value, or the same error. -/
theorem Simulation.memRead (addr : Word) (n : Width) :
    (∃ v t w, s.memRead addr n = .ok (v, t) ∧ u.memRead addr n = .ok (v, w) ∧ R t w) ∨
    (∃ f, s.memRead addr n = .error f ∧ u.memRead addr n = .error f) := by
  have hr := hR.reads h
  have hres : resolve u.cfg addr n.bytes = resolve s.cfg addr n.bytes := by rw [hr.cfg]
  simp only [State.memRead, hres]
  split
  · exact .inl ⟨_, s, u, rfl, by rw [hr.mem], h⟩
  · split
    · exact .inl ⟨_, _, _, rfl, by rw [← hr.draws]; rfl, hR.update h (.record 1 _)⟩
    · exact .inr ⟨_, rfl, rfl⟩
  · exact .inr ⟨_, rfl, rfl⟩

/-- The fetch answers the same word, or the same error. -/
theorem Simulation.fetch :
    (∃ v t w, s.fetch = .ok (v, t) ∧ u.fetch = .ok (v, w) ∧ R t w) ∨
    (∃ f, s.fetch = .error f ∧ u.fetch = .error f) := by
  rw [State.fetch, State.fetch, (hR.reads h).pc]
  exact hR.memRead h s.pc .word

/-- A write is made on both sides, or ends in the same error. -/
theorem Simulation.memWrite (addr : Word) (n : Width) (v : Word) :
    (∃ t w, s.memWrite addr n v = .ok t ∧ u.memWrite addr n v = .ok w ∧ R t w) ∨
    (∃ f, s.memWrite addr n v = .error f ∧ u.memWrite addr n v = .error f) := by
  have hr := hR.reads h
  have hres : resolve u.cfg addr n.bytes = resolve s.cfg addr n.bytes := by rw [hr.cfg]
  simp only [State.memWrite, hres]
  split
  · exact .inl ⟨_, _, rfl, by rw [hr.mem]; rfl, hR.update h (.store _)⟩
  · split
    · exact .inl ⟨_, _, rfl, rfl, hR.update h (.record 0 _)⟩
    · exact .inr ⟨_, rfl, rfl⟩
  · exact .inr ⟨_, rfl, rfl⟩

/-- A load from the same address writes the same value, or ends in the same error. -/
theorem Simulation.load (rd : RegId) {addr addr' : Word} (n : Width) (extend : Word → Word) (ha : addr' = addr) :
    Lockstep R (s.load rd addr n extend) (u.load rd addr' n extend) := by
  subst ha
  rcases hR.memRead h addr' n with ⟨v, t, w, hs, hu, htw⟩ | ⟨f, hs, hu⟩
  · simp only [State.load, hs, hu]
    exact hR.writeNext htw rd rfl
  · simp only [State.load, hs, hu]
    exact hR.abort h f

/-- A store of the same value to the same address is made, or ends in the same error. -/
theorem Simulation.store {addr addr' : Word} (n : Width) {v v' : Word} (ha : addr' = addr) (hv : v' = v) :
    Lockstep R (s.store addr n v) (u.store addr' n v') := by
  subst ha hv
  rcases hR.memWrite h addr' n v' with ⟨t, w, hs, hu, htw⟩ | ⟨f, hs, hu⟩
  · simp only [State.store, hs, hu, hR.snpc h]
    exact hR.commit htw _
  · simp only [State.store, hs, hu]
    exact hR.abort h f

/-- A CSR instruction at the same address, whose new value depends on the old one in the same way. -/
theorem Simulation.csrUpdate {rd rs1 : RegId} {a : CsrAddr} {new new' : Word → Word}
    (hi : i = .csrrw rd rs1 a ∨ i = .csrrs rd rs1 a) (hn : new' = new) :
    Lockstep R (s.csrUpdate rd a new) (u.csrUpdate rd a new') := by
  subst hn
  rw [State.csrUpdate, State.csrUpdate, (hR.reads h).cfg, hR.snpc h]
  cases hk : csrAt s.cfg a with
  | none => exact hR.abort h _
  | some k =>
    obtain ⟨hold, hset⟩ := hR.csr h hi hk
    simp only [hold]
    exact hR.commit (hR.update (hset _) (.setReg rd _)) _

/-- Trap entry on both sides, and the commit at the vector. -/
theorem Simulation.trap (cause : Word) :
    R ((s.trap cause).2.commit (s.trap cause).1) ((u.trap cause).2.commit (u.trap cause).1) := by
  rw [State.trap_target, State.trap_target, (hR.reads h).mtvec]
  exact hR.update (hR.update h (.trap cause)) (.commit _)

end Shapes

/-- Every instruction keeps a simulation of its own. -/
theorem Simulation.exec {i : Instr} {R : State → State → Prop} (hR : Simulation i R) {s u : State} (h : R s u) :
    Lockstep R (exec i s) (exec i u) := by
  have hreads := hR.reads h
  cases i
  case lui => exact hR.writeNext h _ rfl
  case auipc => exact hR.writeNext h _ (by rw [hreads.pc])
  case jal => exact hR.jump h _ (by rw [hreads.pc])
  case jalr =>
    exact hR.jump h _ (by rw [hR.source_one h rfl])
  case beq | bne | blt | bge | bltu | bgeu =>
    obtain ⟨h1, h2⟩ := hR.source_two h rfl
    exact hR.branch h _ (by rw [h1, h2])
  case lb | lh | lw | lbu | lhu =>
    exact hR.load h _ _ _ (by rw [State.ea, State.ea, hR.source_one h rfl])
  case sb | sh | sw =>
    obtain ⟨h1, h2⟩ := hR.source_two h rfl
    exact hR.store h _ (by rw [State.ea, State.ea, h1]) (by rw [h2])
  case addi | slti | sltiu | xori | ori | andi | slli | srli | srai =>
    exact hR.writeNext h _ (by rw [hR.source_one h rfl])
  case add | sub | sll | slt | sltu | xor | srl | sra | or | and | mul | mulh | mulhsu | mulhu =>
    obtain ⟨h1, h2⟩ := hR.source_two h rfl
    exact hR.writeNext h _ (by rw [h1, h2])
  case div | divu | rem | remu =>
    obtain ⟨h1, h2⟩ := hR.source_two h rfl
    exact hR.writeNext h _ (by rw [h1, h2, hreads.cfg])
  case csrrw =>
    rw [Machine.exec, Machine.exec, execCsrrw, execCsrrw]
    exact hR.csrUpdate h (.inl rfl) (by rw [hR.source_one h rfl])
  case csrrs =>
    rw [Machine.exec, Machine.exec, execCsrrs, execCsrrs]
    exact hR.csrUpdate h (.inr rfl) (by rw [hR.source_one h rfl])
  case ecall =>
    rw [Machine.exec, Machine.exec, execEcall, execEcall, hreads.cfg]
    exact ⟨_, _, rfl, rfl, hR.trap h _⟩
  case ebreak =>
    rw [Machine.exec, Machine.exec, execEbreak, execEbreak, hreads.cfg]
    split
    · exact hR.stop (hR.trap h _)
    · rw [hR.snpc h]
      exact hR.stop (hR.update h (.commit _))
  case mret =>
    rw [Machine.exec, Machine.exec, execMret, execMret, State.returnFromTrap_target, State.returnFromTrap_target,
      hreads.mepc]
    exact hR.commit (hR.update h .returnFromTrap) _
  case inv => exact hR.abort h _

/-! ## A step -/

/-- A step whose fetch answers a word runs the word (40_engine_cycle.md R111). -/
theorem step_of_fetch {s u : State} {inst : Word} (hc : configOk s.cfg = true) (hr : s.runState = .running)
    (hf : s.begin.fetch = .ok (inst, u)) : step s = u.execWord inst := by
  simp only [step, hc, hr, hf, if_true]

/-- A fatal error of the fetch ends the step (R112, R121). -/
theorem step_of_fetch_error {s : State} {f : Fatal} (hc : configOk s.cfg = true) (hr : s.runState = .running)
    (hf : s.begin.fetch = .error f) : step s = .next (s.begin.abort f) := by
  simp only [step, hc, hr, hf, if_true]

/-- A relation that every instruction keeps is kept by a step. What the simulations share does not depend on the instruction, so
ECALL's stands for it before one is fetched. -/
theorem Simulation.step {R : State → State → Prop} (hR : ∀ i, Simulation i R) {s u t : State} (h : R s u)
    (e : Machine.step s = .next t) : ∃ v, Machine.step u = .next v ∧ R t v := by
  obtain ⟨hc, hr, -⟩ := step_next e
  have hreads := (hR .ecall).reads h
  have hcu : configOk u.cfg = true := by rw [hreads.cfg, hc]
  have hru : u.runState = .running := by rw [hreads.runState, hr]
  have hb : R s.begin u.begin := (hR .ecall).update h .begin
  rcases (hR .ecall).fetch hb with ⟨inst, s', u', hs, hu, hsu⟩ | ⟨f, hs, hu⟩
  · rw [step_of_fetch hc hr hs] at e
    rw [step_of_fetch hcu hru hu]
    rcases s'.execWord_cases inst with ⟨hex, hexec⟩ | ⟨-, href⟩
    · rw [hexec] at e
      obtain ⟨t', v, ht, hv, htv⟩ := (hR _).exec hsu
      cases ht.symm.trans e
      rw [← ((hR .ecall).reads hsu).cfg] at hex hv
      exact ⟨v, by rw [State.execWord, if_pos hex, hv], htv⟩
    · rw [href] at e
      cases e
  · rw [step_of_fetch_error hc hr hs] at e
    cases e
    exact ⟨_, step_of_fetch_error hcu hru hu, (hR .ecall).update hb (.abort f)⟩

/-! ## `trap_state` is never read -/

/-- The states differ in `trap_state` at most. -/
def TrapStateApart (s u : State) : Prop := ∃ q, u = { s with trapState := q }

/-- No instruction tells two such states apart. -/
theorem trapStateApart_simulation (i : Instr) : Simulation i TrapStateApart where
  reads := by
    rintro s _ ⟨q, rfl⟩
    exact ⟨rfl, rfl, rfl, rfl, rfl, rfl, rfl⟩
  source := by
    rintro s _ ⟨q, rfl⟩ r -
    rfl
  update := by
    rintro s _ ⟨q, rfl⟩ o
    cases o <;> exact ⟨_, rfl⟩
  csr := by
    rintro s _ rd rs1 a k ⟨q, rfl⟩ - -
    exact ⟨by cases k <;> rfl, fun v => ⟨q, by cases k <;> rfl⟩⟩

/-- Settles O27: a step keeps two states apart in `trap_state` alone. -/
theorem trapStateIsNeverRead : Obligations.TrapStateIsNeverRead := by
  intro s t q e
  obtain ⟨_, hu, ⟨q', rfl⟩⟩ := Simulation.step trapStateApart_simulation ⟨q, rfl⟩ e
  exact ⟨_, hu, rfl⟩

/-! ## `mstatus` is read by name only -/

/-- The second state, of a machine with parameters `c`, is the first with `v` in `mstatus`. -/
def StatusSet (c : Config) (v : Word) (s u : State) : Prop := s.cfg = c ∧ u = { s with mstatus := v }

/-- An instruction that does not name `mstatus` does not tell two such states apart. -/
theorem statusSet_simulation {i : Instr} {c : Config} {v : Word}
    (hi : ∀ rd rs1, i ≠ .csrrw rd rs1 c.csrStatus ∧ i ≠ .csrrs rd rs1 c.csrStatus) : Simulation i (StatusSet c v) where
  reads := by
    rintro s _ ⟨-, rfl⟩
    exact ⟨rfl, rfl, rfl, rfl, rfl, rfl, rfl⟩
  source := by
    rintro s _ ⟨-, rfl⟩ r -
    rfl
  update := by
    rintro s _ ⟨hc, rfl⟩ o
    cases o <;> exact ⟨hc, rfl⟩
  csr := by
    rintro s _ rd rs1 a k ⟨hc, rfl⟩ hia hk
    cases k
    case mstatus =>
      have ha : a = c.csrStatus := hc ▸ csrAt_eq_some hk
      subst ha
      exact absurd hia (not_or.mpr (hi rd rs1))
    case mtvec | mepc | mcause => exact ⟨rfl, fun _ => ⟨hc, rfl⟩⟩

/-- Settles O28: such an instruction keeps the value of `mstatus` set on the one side, and all else the same. -/
theorem statusIsReadOnlyByName : Obligations.StatusIsReadOnlyByName := by
  intro i s t v e hi
  obtain ⟨_, _, ht, hu, -, rfl⟩ := (statusSet_simulation (v := v) hi).exec ⟨rfl, rfl⟩
  cases ht.symm.trans e
  exact hu

/-! ## Only the sources are read -/

/-- The states differ in register `r` at most. -/
def RegApart (r : RegId) (s u : State) : Prop := ∃ v, u = s.setReg r v

/-- The last of two writes to one register counts. -/
theorem State.setReg_setReg (s : State) (r : RegId) (v w : Word) : (s.setReg r v).setReg r w = s.setReg r w := by
  simp [State.setReg]

/-- Writes to two registers commute. -/
theorem State.setReg_comm (s : State) {r q : RegId} (v w : Word) (h : r ≠ q) :
    (s.setReg r v).setReg q w = (s.setReg q w).setReg r v := by
  have hne : r.toNat ≠ q.toNat := fun e => h (BitVec.eq_of_toNat_eq e)
  simp [State.setReg, Vector.set_comm _ _ hne]

/-- A commit is a write of 0 to `x[0]`, and the next pc. -/
theorem State.commit_eq (s : State) (target : Word) : s.commit target = { s.setReg 0#5 0#32 with pc := target } := rfl

/-- A write to a register keeps two states apart in one register at most. -/
theorem RegApart.setReg {r : RegId} {s u : State} (h : RegApart r s u) (q : RegId) (w : Word) :
    RegApart r (s.setReg q w) (u.setReg q w) := by
  obtain ⟨v, rfl⟩ := h
  by_cases hq : r = q
  · subst hq
    exact ⟨w, by rw [State.setReg_setReg, State.setReg_setReg]⟩
  · exact ⟨v, State.setReg_comm s v w hq⟩

/-- An instruction does not tell states apart that differ in a register it does not name as a source. -/
theorem regApart_simulation {i : Instr} {r : RegId} (hr : r ∉ sources i) : Simulation i (RegApart r) where
  reads := by
    rintro s _ ⟨v, rfl⟩
    exact ⟨rfl, rfl, rfl, rfl, rfl, rfl, rfl⟩
  source := by
    rintro s _ ⟨v, rfl⟩ q hq
    have hne : q ≠ r := fun h => hr (h ▸ hq)
    rw [State.reg_setReg, if_neg hne]
  update := by
    intro s u h o
    cases o
    case setReg q w => exact h.setReg q w
    case commit target =>
      obtain ⟨v, hv⟩ := h.setReg 0#5 0#32
      exact ⟨v, by rw [Update.apply, Update.apply, State.commit_eq, hv]; rfl⟩
    all_goals
      obtain ⟨v, rfl⟩ := h
      exact ⟨v, rfl⟩
  csr := by
    rintro s _ rd rs1 a k ⟨v, rfl⟩ - -
    exact ⟨s.csr_setReg k r v, fun w => ⟨v, by cases k <;> rfl⟩⟩

/-- Settles O29: the instruction keeps the two states apart in that register alone. -/
theorem onlyTheSourcesAreRead : Obligations.OnlyTheSourcesAreRead := by
  intro i s t r v e hr
  obtain ⟨_, _, ht, hu, w, rfl⟩ := (regApart_simulation hr).exec (s := s) ⟨v, rfl⟩
  cases ht.symm.trans e
  refine ⟨_, hu, fun q hq => ?_, rfl, rfl, rfl, fun k => t.csr_setReg k r w, rfl, rfl, rfl, rfl, rfl, rfl, rfl⟩
  rw [State.reg_setReg, if_neg hq]

end Sys2Proof.Machine
end

section
/-! PROOFS. Memory and its devices (20_memory.md): the three cases of an access, what a read sees of a write before it, a fetch
from outside the flat array, and who may touch memory: the loads and stores (R50) and the host between steps (R269). -/

namespace Sys2Proof.Machine

/-! ## The three cases of an access -/

section Partition
variable {c : Config} {addr : Word} {n : Nat} {callback : Window → Bool}

/-- Address resolution answers one of its three cases, and a device's callback is there or not. -/
theorem access_cases (hn : 0 < n) :
    FlatAccess c addr n ∨ (∃ w, DeviceAccess c addr n callback w) ∨ OutOfBound c addr n callback := by
  rw [flatAccess_iff hn, outOfBound_iff]
  rcases hres : resolve c addr n with _ | _ | ⟨w, offset⟩
  case none => exact .inr (.inr (.inl rfl))
  case some.flat => exact .inl rfl
  case some.device =>
    obtain ⟨-, -, -, rfl⟩ := (resolve_device c addr n w offset).mp hres
    cases hcb : callback w
    case true => exact .inr (.inl ⟨w, deviceAccess_iff.mpr ⟨hres, hcb⟩⟩)
    case false => exact .inr (.inr (.inr ⟨w, _, rfl, hcb⟩))

/-- What resolves to the flat array goes to no device (R53). -/
theorem FlatAccess.not_device (hn : 0 < n) (h : FlatAccess c addr n) {w : Window} : ¬ DeviceAccess c addr n callback w := by
  rw [deviceAccess_iff, (flatAccess_iff hn).mp h]
  simp

/-- What resolves to the flat array is in bound. -/
theorem FlatAccess.not_outOfBound (hn : 0 < n) (h : FlatAccess c addr n) : ¬ OutOfBound c addr n callback := by
  rw [outOfBound_iff, (flatAccess_iff hn).mp h]
  simp

/-- The one window that resolution answers takes the access (R53). -/
theorem DeviceAccess.unique {v w : Window} (hv : DeviceAccess c addr n callback v) (hw : DeviceAccess c addr n callback w) :
    v = w := by
  rw [deviceAccess_iff] at hv hw
  have hres := hv.1.symm.trans hw.1
  simp only [Option.some.injEq, Region.device.injEq] at hres
  exact hres.1

/-- An access that a device takes is in bound: its window has the callback. -/
theorem DeviceAccess.not_outOfBound {w : Window} (h : DeviceAccess c addr n callback w) : ¬ OutOfBound c addr n callback := by
  obtain ⟨hres, hcb⟩ := deviceAccess_iff.mp h
  rw [outOfBound_iff, hres]
  rintro (hnone | ⟨v, offset, hv, hv'⟩)
  · cases hnone
  · cases hv
    rw [hcb] at hv'
    cases hv'

end Partition

/-- Settles O43: resolution answers exactly one region or none. -/
theorem accessesArePartitioned : Obligations.AccessesArePartitioned :=
  fun _ _ _ _ hn => ⟨access_cases hn, fun ⟨hf, _, hd⟩ => hf.not_device hn hd, fun ⟨hf, ho⟩ => hf.not_outOfBound hn ho,
    fun ⟨⟨_, hd⟩, ho⟩ => hd.not_outOfBound ho, fun _ _ hv hw => hv.unique hw⟩

/-! ## Reading what was written -/

/-- Every access has a byte, and none more than four (R59). -/
theorem Width.bytes_bounds (n : Width) : 0 < n.bytes ∧ n.bytes ≤ 4 := by
  cases n <;> decide

/-- A write to the flat array. -/
theorem State.memWrite_of_flatAccess {s : State} {addr : Word} {n : Width} (v : Word) (h : FlatAccess s.cfg addr n.bytes) :
    s.memWrite addr n v = .ok { s with mem := Memory.write s.mem addr.toNat v n.bytes } :=
  State.memWrite_flat v ((flatAccess_iff n.bytes_bounds.1).mp h)

/-- A read of `k` bytes that lie inside a write of `n`, `i` bytes after its start, gives those `8k` bits of the value, the byte
at the lowest address the least significant (R55, R58). -/
theorem Memory.read_inside_write (m : Memory) (a : Nat) (v : Word) {n i k : Nat} (hn : n ≤ 4) (hik : i + k ≤ n) :
    Memory.read (Memory.write m a v n) (a + i) k = BitVec.ofNat 32 (v.toNat / 2 ^ (8 * i) % 2 ^ (8 * k)) := by
  apply BitVec.eq_of_getLsbD_eq
  intro j hj
  rw [Memory.getLsbD_read _ _ _ _ (by omega), BitVec.getLsbD_ofNat, Nat.testBit_mod_two_pow, Nat.testBit_div_two_pow,
    decide_eq_true hj, Bool.true_and]
  by_cases hjk : j < 8 * k
  · have hbyte : a + i + j / 8 - a = i + j / 8 := by omega
    have hbit : 8 * (i + j / 8) + j % 8 = j + 8 * i := by omega
    rw [Memory.byte_write, if_pos (by omega), hbyte, BitVec.getLsbD_setWidth, BitVec.getLsbD_ushiftRight, hbit,
      decide_eq_true (Nat.mod_lt j (by decide)), Bool.true_and]
    rfl
  · rw [decide_eq_false hjk, Bool.false_and, Bool.false_and]

/-- The same for accesses of the machine: a read from `addr`, `i` bytes after a write's start, of bytes all of which it wrote. -/
theorem State.memRead_inside_write {t : State} {start addr : Word} {n k : Width} {i : Nat} (m : Memory) (v : Word)
    (hm : t.mem = Memory.write m start.toNat v n.bytes) (haddr : addr.toNat = start.toNat + i) (hik : i + k.bytes ≤ n.bytes)
    (h : FlatAccess t.cfg addr k.bytes) :
    t.memRead addr k = .ok (BitVec.ofNat 32 (v.toNat / 2 ^ (8 * i) % 2 ^ (8 * k.bytes)), t) := by
  rw [State.memRead_flat ((flatAccess_iff k.bytes_bounds.1).mp h), hm, haddr,
    Memory.read_inside_write m _ v n.bytes_bounds.2 hik]

/-- Reading back at the address and the width of the write. -/
theorem State.memRead_written {t : State} {addr : Word} {n : Width} (m : Memory) (v : Word)
    (hm : t.mem = Memory.write m addr.toNat v n.bytes) (h : FlatAccess t.cfg addr n.bytes) :
    t.memRead addr n = .ok (BitVec.ofNat 32 (v.toNat % 2 ^ (8 * n.bytes)), t) := by
  simpa using State.memRead_inside_write (i := 0) m v hm rfl (Nat.zero_add _).le h

/-- Settles O44: the write answers, and the read gives its bytes back. -/
theorem memoryRoundTrip : Obligations.MemoryRoundTrip :=
  fun s _ _ v h => ⟨_, State.memWrite_of_flatAccess v h, State.memRead_written s.mem v rfl h⟩

/-- An access inside a word of the flat array starts where it says, without wrap, since the array ends at `2^32` or below. -/
theorem FlatAccess.inside_word {c : Config} {addr : Word} {i k : Nat} (h : FlatAccess c addr 4) (hend : flatEnd c ≤ 2 ^ 32)
    (hk : 0 < k) (hik : i + k ≤ 4) :
    (addr + BitVec.ofNat 32 i).toNat = addr.toNat + i ∧ FlatAccess c (addr + BitVec.ofNat 32 i) k := by
  obtain ⟨hbase, htop, -⟩ := h
  have haddr : (addr + BitVec.ofNat 32 i).toNat = addr.toNat + i := by
    rw [BitVec.toNat_add, BitVec.toNat_ofNat]
    omega
  refine ⟨haddr, ?_, ?_, hk⟩ <;> rw [haddr] <;> omega

/-- Settles O45: the byte and the halfword at each offset lie inside the word. -/
theorem narrowReadSeesWideWrite : Obligations.NarrowReadSeesWideWrite := by
  intro s addr v h hend
  refine ⟨_, State.memWrite_of_flatAccess (n := .word) v h, fun i hi => ?_, fun i hi => ?_⟩
  · obtain ⟨haddr, hflat⟩ := h.inside_word hend Nat.zero_lt_one hi
    exact State.memRead_inside_write (n := .word) (k := .byte) s.mem v rfl haddr hi hflat
  · obtain ⟨haddr, hflat⟩ := h.inside_word hend Nat.zero_lt_two (Nat.succ_le_succ hi)
    exact State.memRead_inside_write (n := .word) (k := .half) s.mem v rfl haddr (Nat.succ_le_succ hi) hflat

/-! ## The fetch -/

/-- A step that fetches a word just written to the flat array runs it, whatever else the write's instruction did (R69). -/
theorem step_of_written {t : State} (m : Memory) (v : Word) (hc : configOk t.cfg = true) (hr : t.runState = .running)
    (h : FlatAccess t.cfg t.pc 4) (hm : t.mem = Memory.write m t.pc.toNat v 4) : step t = t.begin.execWord v := by
  have hread : t.begin.fetch = .ok (BitVec.ofNat 32 (v.toNat % 2 ^ 32), t.begin) :=
    State.memRead_written (n := .word) m v hm h
  rw [Nat.mod_eq_of_lt v.isLt, BitVec.ofNat_toNat, BitVec.setWidth_eq] at hread
  exact step_of_fetch hc hr hread

/-- Settles O46: SW's commit leaves the pc at the word it wrote. -/
theorem storeIsSeenByTheNextFetch : Obligations.StoreIsSeenByTheNextFetch := by
  intro s rs1 rs2 imm hc hr haddr h
  have hw := State.memWrite_of_flatAccess (n := .word) (s.reg rs2) h
  refine ⟨State.commit { s with mem := Memory.write s.mem (s.pc + 4#32).toNat (s.reg rs2) 4 } s.snpc, ?_,
    step_of_written s.mem (s.reg rs2) hc hr h rfl⟩
  rw [exec, execSw, State.ea, sext, haddr, State.store, hw]
  rfl

/-- The mark that a step has been taken is in no frame of a fatal error. -/
theorem Aborted.of_begin {s t : State} {cls : FatalClass} {info : Word} (h : Aborted s.begin t cls info) :
    Aborted s t cls info :=
  { h with csrs := fun k => (h.csrs k).trans (s.csr_begin k) }

/-- Settles O10: the fetch is a read out of bound, and its fatal error ends the step. -/
theorem fetchOutOfBoundAborts : Obligations.FetchOutOfBoundAborts :=
  fun s hc hr h => ⟨_, step_of_fetch_error hc hr (State.memRead_outOfBound (s := s.begin) (n := .word) h),
    (s.begin.aborted_abort (memoryBound s.pc)).of_begin⟩

/-- Settles O11: the fetch is a read that the device takes, and the step runs its word. -/
theorem fetchFromDeviceRunsTheValueRead : Obligations.FetchFromDeviceRunsTheValueRead :=
  fun s _ hc hr h => step_of_fetch hc hr (State.memRead_device (s := s.begin) (n := .word) h)

/-! ## Who touches memory -/

/-- Settles O24, by the instruction's endings: a load keeps memory, a store is excluded, and no other ending has an access. -/
theorem onlyLoadsAndStoresTouchMemory : Obligations.OnlyLoadsAndStoresTouchMemory := by
  intro i s t e
  cases Ending.of_exec e with
  | loaded u rd addr v w n hi _ hread =>
    exact ⟨fun _ => State.memRead_mem (t := u) hread, fun _ hl => absurd hi (by simp [hl])⟩
  | stored u addr v n hi _ =>
    exact ⟨fun hst => absurd hi (by simp [hst]), fun hst _ => absurd hi (by simp [hst])⟩
  | csr => simp
  | aborted | wrote | linked | fell | branched | called | broke | stopped | returned =>
    exact ⟨fun _ => rfl, fun _ _ => ⟨rfl, rfl⟩⟩

/-! ## The host between steps -/

/-- The host's write of `mtvec` (R293). -/
theorem State.Inv.setTrapVector {s t : State} {v : Word} (h : s.Inv) (ht : s.setTrapVector v = some t) : t.Inv := by
  rw [State.setTrapVector] at ht
  split at ht <;> cases ht
  exact h.of_same h.zero h.faultIff rfl rfl rfl rfl rfl

/-- Registering a window (R52) changes neither `NREG` nor the bounds of the flat array, which is all of the configuration that
the invariant speaks of. -/
theorem State.Inv.registerWindow {s t : State} {w : Window} (h : s.Inv) (ht : s.registerWindow w = some t) : t.Inv := by
  rw [State.registerWindow] at ht
  split at ht <;> cases ht
  exact { zero := h.zero, high := h.high, memWf := h.memWf, memFlat := h.memFlat, faultIff := h.faultIff, draws := h.draws }

/-- Settles O19, action by action; reset answers the reset state, whatever was before it. -/
theorem hostActionsKeepTheInvariant : Obligations.HostActionsKeepTheInvariant :=
  fun s h => ⟨fun _ => h.resume, fun _ _ _ _ => h.memWrite, fun _ _ _ _ => h.memRead, fun _ _ => h.setTrapVector,
    fun _ _ => h.registerWindow, State.inv_resetOf s.cfg⟩

end Sys2Proof.Machine
end

section
/-! PROOFS. The round trip between words and instructions (30_encoding.md R81, R82, R90, R95, R97). Each row of the table fixes
some bits of a word (its mask) and leaves the others to operands; format by format, the fixed bits make an encoded word match its
row, and together with the extracted operands they give a matching word back. -/

namespace Sys2Proof

/-! ## The row of an action -/

/-- The row of the default table with this action; the catch-all for the empty action, which has none. -/
def rowOf (a : Action) : Row := (patternTable.find? (·.action == a)).getD rowInv

/-- The action whose row an instruction is encoded by. -/
def Instr.action : Instr → Action
  | .lui .. => .lui | .auipc .. => .auipc | .jal .. => .jal | .jalr .. => .jalr
  | .beq .. => .beq | .bne .. => .bne | .blt .. => .blt | .bge .. => .bge | .bltu .. => .bltu | .bgeu .. => .bgeu
  | .lb .. => .lb | .lh .. => .lh | .lw .. => .lw | .lbu .. => .lbu | .lhu .. => .lhu
  | .sb .. => .sb | .sh .. => .sh | .sw .. => .sw
  | .addi .. => .addi | .slti .. => .slti | .sltiu .. => .sltiu | .xori .. => .xori | .ori .. => .ori | .andi .. => .andi
  | .slli .. => .slli | .srli .. => .srli | .srai .. => .srai
  | .add .. => .add | .sub .. => .sub | .sll .. => .sll | .slt .. => .slt | .sltu .. => .sltu | .xor .. => .xor
  | .srl .. => .srl | .sra .. => .sra | .or .. => .or | .and .. => .and
  | .mul .. => .mul | .mulh .. => .mulh | .mulhsu .. => .mulhsu | .mulhu .. => .mulhu
  | .div .. => .div | .divu .. => .divu | .rem .. => .rem | .remu .. => .remu
  | .csrrw .. => .csrrw | .csrrs .. => .csrrs | .ecall => .ecall | .ebreak => .ebreak | .mret => .mret
  | .inv _ => .inv

/-- Each of rows 1 to 50 is the row of its action: no two of them share one. -/
theorem rowOf_action : ∀ r ∈ definedTable, rowOf r.action = r := by decide

/-- The row of an action has it, but for the empty one. -/
theorem action_rowOf {a : Action} (he : a ≠ .empty) : (rowOf a).action = a := by
  cases a
  case empty => exact absurd rfl he
  all_goals rfl

/-- No instruction is encoded by the empty action. -/
theorem Instr.action_ne_empty (i : Instr) : i.action ≠ .empty := by
  cases i <;> exact nofun

/-- None of rows 1 to 50 has the empty action. -/
theorem action_ne_empty : ∀ r ∈ definedTable, r.action ≠ .empty := by decide

/-- None of rows 1 to 50 has the catch-all's action. -/
theorem action_ne_inv : ∀ r ∈ definedTable, r.action ≠ .inv := by decide

/-- The row of an instruction other than the catch-all is one of rows 1 to 50. -/
theorem rowOf_mem {a : Action} (hi : a ≠ .inv) (he : a ≠ .empty) : rowOf a ∈ definedTable := by
  cases a
  case inv => exact absurd rfl hi
  case empty => exact absurd rfl he
  all_goals decide

/-! ## The bits an operand fills -/

/-- Two words that agree inside a mask and outside it are one. -/
theorem eq_of_and_eq {x w : Word} (m : Word) (hin : x &&& m = w &&& m) (hout : x &&& ~~~m = w &&& ~~~m) : x = w := by
  have halves : ∀ v : Word, v &&& m ||| v &&& ~~~m = v := fun v => by
    rw [← BitVec.and_or_distrib_left, BitVec.or_not_self, BitVec.and_allOnes]
  rw [← halves x, hin, hout, halves w]

/-- Format R. -/
theorem encodeR_and_operands (f7 : BitVec 7) (f3 : BitVec 3) (op : BitVec 7) (w : Word) :
    encodeR f7 (rs2Of w) (rs1Of w) f3 (rdOf w) op &&& ~~~0xfe00707f#32 = w &&& ~~~0xfe00707f#32 := by
  apply BitVec.eq_of_getLsbD_eq
  intro i hi
  simp only [encodeR, rs2Of, rs1Of, rdOf, BitVec.getLsbD_and, BitVec.getLsbD_append, BitVec.getLsbD_extractLsb']
  interval_cases i <;> simp

/-- Format I. -/
theorem encodeI_and_operands (f3 : BitVec 3) (op : BitVec 7) (w : Word) :
    encodeI (immIOf w) (rs1Of w) f3 (rdOf w) op &&& ~~~0x707f#32 = w &&& ~~~0x707f#32 := by
  apply BitVec.eq_of_getLsbD_eq
  intro i hi
  simp only [encodeI, immIOf, rs1Of, rdOf, BitVec.getLsbD_and, BitVec.getLsbD_append, BitVec.getLsbD_extractLsb']
  interval_cases i <;> simp

/-- Format S. -/
theorem encodeS_and_operands (f3 : BitVec 3) (op : BitVec 7) (w : Word) :
    encodeS (immSOf w) (rs2Of w) (rs1Of w) f3 op &&& ~~~0x707f#32 = w &&& ~~~0x707f#32 := by
  apply BitVec.eq_of_getLsbD_eq
  intro i hi
  simp only [encodeS, immSOf, rs2Of, rs1Of, BitVec.getLsbD_and, BitVec.getLsbD_append, BitVec.getLsbD_extractLsb']
  interval_cases i <;> simp

/-- Format B. -/
theorem encodeB_and_operands (f3 : BitVec 3) (op : BitVec 7) (w : Word) :
    encodeB (immBOf w) (rs2Of w) (rs1Of w) f3 op &&& ~~~0x707f#32 = w &&& ~~~0x707f#32 := by
  apply BitVec.eq_of_getLsbD_eq
  intro i hi
  simp only [encodeB, immBOf, rs2Of, rs1Of, BitVec.getLsbD_and, BitVec.getLsbD_append, BitVec.getLsbD_extractLsb']
  interval_cases i <;> simp

/-- Format J. -/
theorem encodeJ_and_operands (op : BitVec 7) (w : Word) :
    encodeJ (immJOf w) (rdOf w) op &&& ~~~0x7f#32 = w &&& ~~~0x7f#32 := by
  apply BitVec.eq_of_getLsbD_eq
  intro i hi
  simp only [encodeJ, immJOf, rdOf, BitVec.getLsbD_and, BitVec.getLsbD_append, BitVec.getLsbD_extractLsb']
  interval_cases i <;> simp

/-- Format U. -/
theorem encodeU_and_operands (op : BitVec 7) (w : Word) :
    encodeU (immUOf w) (rdOf w) op &&& ~~~0x7f#32 = w &&& ~~~0x7f#32 := by
  apply BitVec.eq_of_getLsbD_eq
  intro i hi
  simp only [encodeU, immUOf, rdOf, BitVec.getLsbD_and, BitVec.getLsbD_append, BitVec.getLsbD_extractLsb']
  interval_cases i <;> simp

/-! ## A row's match, format by format

`key` and `mask` of a row of each format, as its fixed fields give them. -/

/-- A row with shift 0 matches the words that carry its key under its mask (R93). -/
theorem test_iff {r : Row} {t : Tag} {a : Action} {key mask : Word} (h : r = ⟨t, key, mask, 0, a⟩) (w : Word) :
    r.test w = true ↔ w &&& mask = key := by
  simp [h, Row.test]

section Formats

variable {r : Row} {t : Tag} {a : Action} {f7 : BitVec 7} {f3 : BitVec 3} {op : BitVec 7} {w : Word}

theorem test_encodeR (h : r = ⟨t, f7 ++ 0#10 ++ f3 ++ 0#5 ++ op, 0xfe00707f#32, 0, a⟩) {rs2 rs1 rd : RegId} :
    r.test (encodeR f7 rs2 rs1 f3 rd op) = true :=
  (test_iff h _).mpr (and_fe00707f_encodeR ..)

theorem test_encodeI (h : r = ⟨t, 0#17 ++ f3 ++ 0#5 ++ op, 0x707f#32, 0, a⟩) {imm : BitVec 12} {rs1 rd : RegId} :
    r.test (encodeI imm rs1 f3 rd op) = true :=
  (test_iff h _).mpr (and_0000707f_encodeI ..)

theorem test_encodeS (h : r = ⟨t, 0#17 ++ f3 ++ 0#5 ++ op, 0x707f#32, 0, a⟩) {imm : BitVec 12} {rs2 rs1 : RegId} :
    r.test (encodeS imm rs2 rs1 f3 op) = true :=
  (test_iff h _).mpr (and_0000707f_encodeS ..)

theorem test_encodeB (h : r = ⟨t, 0#17 ++ f3 ++ 0#5 ++ op, 0x707f#32, 0, a⟩) {imm : BitVec 13} {rs2 rs1 : RegId} :
    r.test (encodeB imm rs2 rs1 f3 op) = true :=
  (test_iff h _).mpr (and_0000707f_encodeB ..)

theorem test_encodeJ (h : r = ⟨t, 0#25 ++ op, 0x7f#32, 0, a⟩) {imm : BitVec 21} {rd : RegId} :
    r.test (encodeJ imm rd op) = true :=
  (test_iff h _).mpr (and_0000007f_encodeJ ..)

theorem test_encodeU (h : r = ⟨t, 0#25 ++ op, 0x7f#32, 0, a⟩) {imm : BitVec 20} {rd : RegId} :
    r.test (encodeU imm rd op) = true :=
  (test_iff h _).mpr (and_0000007f_encodeU ..)

theorem encodeR_of_test (h : r = ⟨t, f7 ++ 0#10 ++ f3 ++ 0#5 ++ op, 0xfe00707f#32, 0, a⟩) (ht : r.test w = true) :
    encodeR f7 (rs2Of w) (rs1Of w) f3 (rdOf w) op = w :=
  eq_of_and_eq _ ((and_fe00707f_encodeR ..).trans ((test_iff h w).mp ht).symm) (encodeR_and_operands ..)

theorem encodeI_of_test (h : r = ⟨t, 0#17 ++ f3 ++ 0#5 ++ op, 0x707f#32, 0, a⟩) (ht : r.test w = true) :
    encodeI (immIOf w) (rs1Of w) f3 (rdOf w) op = w :=
  eq_of_and_eq _ ((and_0000707f_encodeI ..).trans ((test_iff h w).mp ht).symm) (encodeI_and_operands ..)

theorem encodeS_of_test (h : r = ⟨t, 0#17 ++ f3 ++ 0#5 ++ op, 0x707f#32, 0, a⟩) (ht : r.test w = true) :
    encodeS (immSOf w) (rs2Of w) (rs1Of w) f3 op = w :=
  eq_of_and_eq _ ((and_0000707f_encodeS ..).trans ((test_iff h w).mp ht).symm) (encodeS_and_operands ..)

theorem encodeB_of_test (h : r = ⟨t, 0#17 ++ f3 ++ 0#5 ++ op, 0x707f#32, 0, a⟩) (ht : r.test w = true) :
    encodeB (immBOf w) (rs2Of w) (rs1Of w) f3 op = w :=
  eq_of_and_eq _ ((and_0000707f_encodeB ..).trans ((test_iff h w).mp ht).symm) (encodeB_and_operands ..)

theorem encodeJ_of_test (h : r = ⟨t, 0#25 ++ op, 0x7f#32, 0, a⟩) (ht : r.test w = true) :
    encodeJ (immJOf w) (rdOf w) op = w :=
  eq_of_and_eq _ ((and_0000007f_encodeJ ..).trans ((test_iff h w).mp ht).symm) (encodeJ_and_operands ..)

theorem encodeU_of_test (h : r = ⟨t, 0#25 ++ op, 0x7f#32, 0, a⟩) (ht : r.test w = true) :
    encodeU (immUOf w) (rdOf w) op = w :=
  eq_of_and_eq _ ((and_0000007f_encodeU ..).trans ((test_iff h w).mp ht).symm) (encodeU_and_operands ..)

end Formats

/-! ## From an instruction to its word and back -/

/-- The word of an instruction matches the instruction's own row. -/
theorem rowOf_test_encode (i : Instr) : (rowOf i.action).test (encode i) = true := by
  cases i
  case lui | auipc => exact test_encodeU rfl
  case jal => exact test_encodeJ rfl
  case beq | bne | blt | bge | bltu | bgeu => exact test_encodeB rfl
  case sb | sh | sw => exact test_encodeS rfl
  case slli | srli | srai => exact test_encodeR rfl
  case ecall | ebreak | mret => decide
  case inv => exact matchTest_catchAll _
  case jalr | lb | lh | lw | lbu | lhu | addi | slti | sltiu | xori | ori | andi | csrrw | csrrs => exact test_encodeI rfl
  all_goals exact test_encodeR rfl

/-- The operands extracted from the word of an instruction are the instruction's own (R90). -/
theorem build_encode {i : Instr} (h : i.wf = true) : i.action.build (encode i) = i := by
  cases i
  case jal => simp [Instr.action, Action.build, encode, immJOf_encodeJ _ _ _ h]
  case beq | bne | blt | bge | bltu | bgeu => simp [Instr.action, Action.build, encode, immBOf_encodeB _ _ _ _ _ h]
  all_goals simp [Instr.action, Action.build, encode]

/-- Rows 1 to 50 as they stand in `definedRows`. -/
theorem definedRows_eq : definedRows = definedTable.map fun r => (r.key, r.mask) := rfl

theorem shift_eq_zero : ∀ r ∈ definedTable, r.shift = 0 := by decide

/-- `isDefinedWord` says that one of rows 1 to 50 matches (R93). -/
theorem isDefinedWord_eq (w : Word) : isDefinedWord w = definedTable.any (·.test w) := by
  rw [isDefinedWord, definedRows_eq, List.any_map, Bool.eq_iff_iff, List.any_eq_true, List.any_eq_true]
  refine exists_congr fun r => and_congr_right fun hr => ?_
  rw [Row.test, shift_eq_zero r hr, matchTest_zero, Function.comp]

theorem isDefinedWord_iff (w : Word) : isDefinedWord w = true ↔ ∃ r ∈ definedTable, r.test w = true := by
  rw [isDefinedWord_eq, List.any_eq_true]

theorem isDefinedWord_eq_false_iff (w : Word) : isDefinedWord w = false ↔ ∀ r ∈ definedTable, r.test w = false := by
  simp only [isDefinedWord_eq, List.any_eq_false, Bool.not_eq_true]

/-- A word that none of rows 1 to 50 matches decodes to the catch-all (R95). -/
theorem decode_of_not_defined {w : Word} (h : isDefinedWord w = false) : decode w = .inv w := by
  rw [decode, decodeIn, patternTable, matchIn_append, matchIn_none.mpr ((isDefinedWord_eq_false_iff w).mp h)]
  simp [rowInv, Row.test, Action.build]

/-- A well-formed instruction comes back: one of rows 1 to 50 from its own row's operands, the catch-all because no other row
matches its word. -/
theorem decode_encode {i : Instr} (h : i.wf = true) : decode (encode i) = i := by
  by_cases hi : i.action = .inv
  · have hinv : Instr.inv (encode i) = i := by
      have hbuild := build_encode h
      rwa [hi] at hbuild
    have hwf : (Instr.inv (encode i)).wf = true := hinv.symm ▸ h
    rw [decode_of_not_defined (by simpa [Instr.wf] using hwf), hinv]
  · rw [decode_of_test (rowOf_mem hi i.action_ne_empty) (rowOf_test_encode i), action_rowOf i.action_ne_empty,
      build_encode h]

/-- Settles O1, for all 51 rows at once: an instruction comes back from the row of its action. -/
theorem decodeOfEncodeIsTheInstruction : Obligations.DecodeOfEncodeIsTheInstruction :=
  fun _ => decode_encode

/-! ## From a word to its instruction and back -/

/-- A branch offset extracted from a word is even (R87). -/
theorem evenOffset_immBOf (w : Word) : evenOffset (immBOf w) = true := by
  rw [evenOffset, immBOf, BitVec.getLsbD_append, if_pos (by decide)]; rfl

/-- A jump offset extracted from a word is even (R88). -/
theorem evenOffset_immJOf (w : Word) : evenOffset (immJOf w) = true := by
  rw [evenOffset, immJOf, BitVec.getLsbD_append, if_pos (by decide)]; rfl

/-- What an action other than the catch-all's builds is well-formed. -/
theorem wf_build {a : Action} (hi : a ≠ .inv) (w : Word) : (a.build w).wf = true := by
  cases a
  case inv => exact absurd rfl hi
  case jal => exact evenOffset_immJOf w
  case beq | bne | blt | bge | bltu | bgeu => exact evenOffset_immBOf w
  all_goals rfl

/-- The instruction that an action builds from a word of its own row has this word. -/
theorem encode_build {a : Action} (he : a ≠ .empty) {w : Word} (h : (rowOf a).test w = true) : encode (a.build w) = w := by
  cases a
  case empty => exact absurd rfl he
  case lui | auipc => exact encodeU_of_test rfl h
  case jal => exact encodeJ_of_test rfl h
  case beq | bne | blt | bge | bltu | bgeu => exact encodeB_of_test rfl h
  case sb | sh | sw => exact encodeS_of_test rfl h
  case slli | srli | srai => exact encodeR_of_test rfl h
  case ecall | ebreak | mret => exact ((test_iff rfl w).mp h).symm.trans BitVec.and_allOnes
  case inv => rfl
  case jalr | lb | lh | lw | lbu | lhu | addi | slti | sltiu | xori | ori | andi | csrrw | csrrs =>
    exact encodeI_of_test rfl h
  all_goals exact encodeR_of_test rfl h

/-- Settles O2: a word comes back from the row that matches it, and from the catch-all when none does. -/
theorem encodeOfDecodeIsTheWord : Obligations.EncodeOfDecodeIsTheWord := by
  intro w
  cases h : isDefinedWord w with
  | true =>
    obtain ⟨r, hr, ht⟩ := (isDefinedWord_iff w).mp h
    rw [decode_of_test hr ht]
    exact ⟨wf_build (action_ne_inv r hr) w, encode_build (action_ne_empty r hr) ((rowOf_action r hr).symm ▸ ht)⟩
  | false =>
    rw [decode_of_not_defined h]
    exact ⟨by simp [Instr.wf, h], rfl⟩

end Sys2Proof
end

section
/-! PROOFS. What a match selects (30_encoding.md R94 to R98): a table is searched row by row, and rows that exclude each other are
found in any order; a word that no row but the last matches is an illegal instruction. -/

namespace Sys2Proof

/-- Settles O3: `inv` is what a word decodes to exactly when none of rows 1 to 50 matches it, and its meaning is the fatal
error. -/
theorem unmatchedWordsAreIllegal : Obligations.UnmatchedWordsAreIllegal := by
  refine fun w => ⟨fun hnone => ?_, fun hsome v hv => ?_⟩
  · have hinv := decode_of_not_defined ((isDefinedWord_eq_false_iff w).mpr hnone)
    rw [hinv]
    exact ⟨rfl, matchTest_catchAll w, fun s => ⟨_, rfl, s.aborted_abort ⟨.decodeError, w⟩⟩⟩
  · obtain ⟨hwf, hword⟩ := encodeOfDecodeIsTheWord w
    rw [hv] at hwf hword
    obtain rfl : v = w := hword
    have hundef : isDefinedWord v = false := by simpa [Instr.wf] using hwf
    rw [(isDefinedWord_iff v).mpr hsome] at hundef
    cases hundef

/-! ## Rows that exclude each other -/

/-- Rows 1 to 50 exclude each other (R96). -/
theorem definedTable_pairwise : definedTable.Pairwise fun p q => p.excludes q = true := by
  have h := tableWf_pairwise tableWf_patternTable
  rwa [patternTable, List.dropLast_concat] at h

/-- In an accepted table every word selects a row: the last one matches it (R95). -/
theorem exists_matchIn {t : List Row} (h : tableWf t = true) (w : Word) : ∃ r, matchIn t w = some r := by
  obtain ⟨last, hlast, hwf, hmask, -⟩ := tableWf_last h
  refine Option.ne_none_iff_exists'.mp fun hnone => ?_
  have hfalse := matchIn_none.mp hnone last (List.mem_of_getLast? hlast)
  rw [Row.test_of_mask_zero hwf hmask w] at hfalse
  cases hfalse

/-- In an accepted table a row that matches, other than the last, is the one selected (R96). -/
theorem matchIn_of_dropLast {t : List Row} (h : tableWf t = true) {q : Row} {w : Word} (hq : q ∈ t.dropLast)
    (hw : q.test w = true) : matchIn t w = some q := by
  obtain ⟨last, hlast, -⟩ := tableWf_last h
  rw [← List.dropLast_append_getLast? last hlast, matchIn_append, matchIn_of_pairwise (tableWf_pairwise h) hq hw]
  rfl

/-- Settles O4: the default table is an accepted one, and in an accepted table the rows before the last exclude each other. -/
theorem exactlyOneRowIsSelected : Obligations.ExactlyOneRowIsSelected := by
  refine ⟨rfl, definedTable_pairwise.imp fun h => Row.not_test_of_excludes h, fun w => ⟨fun r hr hw => ?_, fun hnone => ?_⟩,
    tableOk_patternTable, fun t ht w => ?_⟩
  · rw [patternTable, matchIn_append, matchIn_of_pairwise definedTable_pairwise hr hw]
    rfl
  · rw [patternTable, matchIn_append, matchIn_none.mpr hnone]
    exact if_pos (matchTest_catchAll w)
  · rw [tableOk_eq] at ht
    obtain ⟨r, hr⟩ := exists_matchIn ht w
    obtain ⟨hmem, htest⟩ := matchIn_some hr
    refine ⟨r, hmem, hr, htest, fun q hq hw => ?_⟩
    rw [matchIn_of_dropLast ht hq hw] at hr
    exact Option.some.inj hr

/-! ## The order of the rows -/

/-- To exclude is symmetric. -/
theorem Row.excludes_comm (p q : Row) : p.excludes q = q.excludes p := by
  rw [Row.excludes, Row.excludes, BitVec.xor_comm, BitVec.and_assoc, BitVec.and_comm (p.mask <<< p.shift),
    ← BitVec.and_assoc]

/-- Rows that exclude each other give the same match in any order (R96). -/
theorem matchIn_perm {rows rows' : List Row} (hperm : rows.Perm rows')
    (hp : rows'.Pairwise fun p q => p.excludes q = true) (w : Word) : matchIn rows w = matchIn rows' w := by
  have hp' : rows.Pairwise fun p q => p.excludes q = true :=
    (hperm.pairwise_iff fun {p q} h => (p.excludes_comm q).symm.trans h).mpr hp
  cases h : matchIn rows' w with
  | none => exact matchIn_none.mpr fun r hr => matchIn_none.mp h r (hperm.mem_iff.mp hr)
  | some r =>
    obtain ⟨hmem, htest⟩ := matchIn_some h
    exact matchIn_of_pairwise hp' (hperm.mem_iff.mpr hmem) htest

/-- Settles O5: the catch-all stays last, and the rows before it exclude each other. -/
theorem rowOrderCannotBeObserved : Obligations.RowOrderCannotBeObserved := by
  intro rows hperm w
  rw [patternTable, matchIn_append, matchIn_append, matchIn_perm hperm definedTable_pairwise]

end Sys2Proof
end

section
/-! PROOFS. The compiled test of a pattern (30_encoding.md R91 to R93), bit by bit. -/

namespace Sys2Proof

/-- The bits below `shift` are wildcards (R92). -/
theorem patternMask_testBit_of_lt_shift {p : Pattern} {i : Nat} (h : i < patternShift p) :
    (patternMask p).testBit i = false := by
  have hprefix := List.takeWhile_prefix (p := (· == PatBit.any)) (l := p.reverse)
  have hlen : i < p.length := Nat.lt_of_lt_of_le h (patternShift_le p)
  have hany : p.reverse[i]'(by simpa) = .any := by
    rw [← hprefix.getElem h]
    simpa using List.mem_takeWhile_imp (List.getElem_mem h)
  rw [List.getElem_reverse] at hany
  rw [patternMask_testBit, decide_eq_false_iff_not, List.getElem?_eq_getElem (by omega), hany]
  simp

/-- `(inst & full_mask) == full_key`, bit by bit. -/
theorem and_ofNat_eq_iff (inst : Word) (mask key : Nat) :
    inst &&& BitVec.ofNat 32 mask = BitVec.ofNat 32 key ↔
      ∀ b, b < 32 → (inst.getLsbD b && mask.testBit b) = key.testBit b := by
  rw [BitVec.eq_of_getLsbD_eq_iff]
  refine forall₂_congr fun b hb => ?_
  rw [BitVec.getLsbD_and, BitVec.getLsbD_ofNat, BitVec.getLsbD_ofNat, decide_eq_true hb, Bool.true_and, Bool.true_and]

/-- A bit at which mask and key are 0 is no part of the test, so the compiled test may leave out those below `shift` (R93). -/
theorem matchTest_shiftRight_iff {mask key shift : Nat} (inst : Word)
    (hm : ∀ b, b < shift ∨ 32 ≤ b → mask.testBit b = false) (hk : ∀ b, b < shift ∨ 32 ≤ b → key.testBit b = false) :
    matchTest (BitVec.ofNat 32 (key >>> shift)) (BitVec.ofNat 32 (mask >>> shift)) shift inst = true ↔
      inst &&& BitVec.ofNat 32 mask = BitVec.ofNat 32 key := by
  rw [matchTest, beq_iff_eq, and_ofNat_eq_iff, and_ofNat_eq_iff]
  simp only [BitVec.getLsbD_ushiftRight, Nat.testBit_shiftRight]
  constructor
  · intro h b hb
    by_cases hlow : b < shift
    · rw [hm b (.inl hlow), hk b (.inl hlow), Bool.and_false]
    · have := h (b - shift) (by omega)
      rwa [Nat.add_sub_cancel' (by omega)] at this
  · intro h b _
    by_cases hhigh : shift + b < 32
    · exact h (shift + b) hhigh
    · rw [hm _ (.inr (by omega)), hk _ (.inr (by omega)), Bool.and_false]

/-- The key has no bit where the mask has none. -/
theorem patternKey_testBit_eq_false {p : Pattern} {i : Nat} (h : (patternMask p).testBit i = false) :
    (patternKey p).testBit i = false :=
  Bool.eq_false_of_not_eq_true fun hk => by simp [patternMask_of_patternKey hk] at h

/-- A pattern of 32 characters fixes no bit from 32 on. -/
theorem patternMask_testBit_of_le {p : Pattern} (hl : p.length = 32) {i : Nat} (h : 32 ≤ i) :
    (patternMask p).testBit i = false := by
  rw [patternMask_testBit, decide_eq_false_iff_not, hl]
  omega

/-- One bit of the full test: the word agrees with the pattern there, if the pattern fixes it. -/
theorem and_pattern_testBit_iff {p : Pattern} (hl : p.length = 32) (v : Bool) {b : Nat} (hb : b < 32) :
    (v && (patternMask p).testBit b) = (patternKey p).testBit b ↔
      (p[31 - b]? = some .one → v = true) ∧ (p[31 - b]? = some .zero → v = false) := by
  rw [patternMask_testBit, patternKey_testBit, hl, List.getElem?_eq_getElem (by omega)]
  cases p[31 - b]'(by omega) <;> simp [hb]

/-- Settles O6: below `shift` there are only wildcards, and above it the two tests look at the same bits. -/
theorem compiledTestMatchesThePattern : Obligations.CompiledTestMatchesThePattern := by
  intro p inst hl
  have hm : ∀ b, b < patternShift p ∨ 32 ≤ b → (patternMask p).testBit b = false := fun b hb =>
    hb.elim patternMask_testBit_of_lt_shift (patternMask_testBit_of_le hl)
  refine ⟨?_, ?_⟩
  · rw [Bool.eq_iff_iff, beq_iff_eq]
    exact matchTest_shiftRight_iff inst hm fun b hb => patternKey_testBit_eq_false (hm b hb)
  · rw [and_ofNat_eq_iff]
    exact forall₂_congr fun b hb => and_pattern_testBit_iff hl _ hb

end Sys2Proof
end

section
/-! PROOFS. The immediates bit by bit (30_encoding.md R84 to R89). -/

namespace Sys2Proof.Machine

/-- A sign-extended field takes its own bits, and from its top bit on the top bit (R84). -/
theorem getLsbD_sext {n i : Nat} (hi : i < 32) (imm : BitVec n) :
    (sext imm).getLsbD i = if i < n then imm.getLsbD i else imm.getLsbD (n - 1) := by
  rw [sext, BitVec.getLsbD_signExtend, BitVec.msb_eq_getLsbD_last, decide_eq_true hi, Bool.true_and]

theorem getLsbD_sext_immIOf (w : Word) {i : Nat} (hi : i < 32) :
    (sext (immIOf w)).getLsbD i = if i < 11 then w.getLsbD (i + 20) else w.getLsbD 31 := by
  simp only [immIOf, getLsbD_sext hi, BitVec.getLsbD_extractLsb']
  interval_cases i <;> simp

theorem getLsbD_sext_immSOf (w : Word) {i : Nat} (hi : i < 32) :
    (sext (immSOf w)).getLsbD i =
      if i < 5 then w.getLsbD (i + 7) else if i < 11 then w.getLsbD (i + 20) else w.getLsbD 31 := by
  simp only [immSOf, getLsbD_sext hi, BitVec.getLsbD_append, BitVec.getLsbD_extractLsb']
  interval_cases i <;> simp

theorem getLsbD_sext_immBOf (w : Word) {i : Nat} (hi : i < 32) :
    (sext (immBOf w)).getLsbD i =
      if i = 0 then false else if i < 5 then w.getLsbD (i + 7) else if i < 11 then w.getLsbD (i + 20)
      else if i = 11 then w.getLsbD 7 else w.getLsbD 31 := by
  simp only [immBOf, getLsbD_sext hi, BitVec.getLsbD_append, BitVec.getLsbD_extractLsb']
  interval_cases i <;> simp

theorem getLsbD_sext_immJOf (w : Word) {i : Nat} (hi : i < 32) :
    (sext (immJOf w)).getLsbD i =
      if i = 0 then false else if i < 11 then w.getLsbD (i + 20) else if i = 11 then w.getLsbD 20
      else if i < 20 then w.getLsbD i else w.getLsbD 31 := by
  simp only [immJOf, getLsbD_sext hi, BitVec.getLsbD_append, BitVec.getLsbD_extractLsb']
  interval_cases i <;> simp

theorem getLsbD_upper_immUOf (w : Word) {i : Nat} (hi : i < 32) :
    (upper (immUOf w)).getLsbD i = if i < 12 then false else w.getLsbD i := by
  simp only [upper, immUOf, BitVec.getLsbD_append, BitVec.getLsbD_extractLsb']
  interval_cases i <;> simp

/-- Settles O7, format by format. -/
theorem immediatesBitByBit : Obligations.ImmediatesBitByBit :=
  fun w _ hi => ⟨getLsbD_sext_immIOf w hi, getLsbD_sext_immSOf w hi, getLsbD_sext_immBOf w hi, getLsbD_sext_immJOf w hi,
    getLsbD_upper_immUOf w hi⟩

end Sys2Proof.Machine
end

section
/-! PROOFS. Words and instructions in a step: the spec's own words (95_test_vectors.md section 2.2), that every instruction ends in a
next state (30_encoding.md R95, 40_engine_cycle.md R115), and that a step is the meaning of the word it fetches (R111). -/

namespace Sys2Proof

/-- Settles O8: each word is the encoding of a well-formed instruction, which decoding gives back. -/
theorem specWordsDecode : Obligations.SpecWordsDecode :=
  ⟨decode_encode (i := .lui 5#5 0x12345#20) rfl, decode_encode (i := .beq 1#5 2#5 0x1ff8#13) rfl,
    decode_encode (i := .jal 1#5 0x800#21) rfl, decode_encode (i := .lb 3#5 4#5 0xfff#12) rfl,
    decode_encode (i := .sb 4#5 3#5 0xfff#12) rfl, decode_encode (i := .srai 7#5 8#5 31#5) rfl,
    decode_encode (i := .sub 9#5 10#5 11#5) rfl, decode_encode (i := .mulhsu 9#5 10#5 11#5) rfl,
    decode_encode (i := .csrrw 12#5 13#5 0x305#12) rfl, decode_encode (i := .mret) rfl,
    decode_encode (i := .inv 0x0ff0000f#32) rfl⟩

end Sys2Proof

namespace Sys2Proof.Machine

/-- A load answers a next state in both its cases (44_load_store.md R198 (c), (f)). -/
theorem State.exists_next_load (s : State) (rd : RegId) (addr : Word) (n : Width) (extend : Word → Word) :
    ∃ t, s.load rd addr n extend = .next t := by
  rcases s.load_cases rd addr n extend with ⟨_, _, -, e⟩ | ⟨_, -, e⟩ <;> exact ⟨_, e⟩

/-- So does a store (R198 (d), (f)). -/
theorem State.exists_next_store (s : State) (addr : Word) (n : Width) (v : Word) : ∃ t, s.store addr n v = .next t := by
  rcases s.store_cases addr n v with ⟨_, -, e⟩ | ⟨_, -, e⟩ <;> exact ⟨_, e⟩

/-- So does a CSR access (46_system.md R230, R231). -/
theorem State.exists_next_csrUpdate (s : State) (rd : RegId) (a : CsrAddr) (new : Word → Word) :
    ∃ t, s.csrUpdate rd a new = .next t := by
  rcases s.csrUpdate_cases rd a new with ⟨_, -, e⟩ | ⟨-, e⟩ <;> exact ⟨_, e⟩

/-- Settles O14: the meanings that branch on the state do so in a load, a store, a CSR access and EBREAK, and every branch of
theirs answers a next state; the others answer one at once. -/
theorem everyInstructionAnswersANextState : Obligations.EveryInstructionAnswersANextState := by
  intro i s
  cases i
  case lb | lh | lw | lbu | lhu => exact s.exists_next_load ..
  case sb | sh | sw => exact s.exists_next_store ..
  case csrrw rd rs1 a => exact s.exists_next_csrUpdate rd a fun _ => s.reg rs1
  case csrrs rd rs1 a => exact s.exists_next_csrUpdate rd a fun old => old ||| s.reg rs1
  case ebreak =>
    rw [exec, execEbreak]
    split
    · exact ⟨_, rfl⟩
    · exact ⟨_, rfl⟩
  all_goals exact ⟨_, rfl⟩

/-- An accepted configuration has a register `x[0]` (log 18). -/
theorem configOk_nreg {c : Config} (h : configOk c = true) : 1 ≤ c.nreg := by
  simp only [configOk, Bool.and_eq_true, decide_eq_true_eq] at h
  obtain ⟨⟨⟨⟨-, -, -, hnreg⟩, -⟩, -⟩, -⟩ := h
  exact hnreg

/-- The word at the pc is the little-endian word of its four bytes (R55, R80). -/
theorem decodeBytesIn_rawFlat {t : List Row} {s : State} {addr : Word} {i : Instr}
    (h : decodeBytesIn t [Memory.byte s.mem addr.toNat, Memory.byte s.mem (addr.toNat + 1),
      Memory.byte s.mem (addr.toNat + 2), Memory.byte s.mem (addr.toNat + 3)] = .ok (i, [])) :
    decodeIn t (rawFlat s addr .word) = i := by
  cases h
  rfl

/-- Settles O9: a fetch from the flat array reads the word at the pc, and the step runs what it decodes to. -/
theorem stepRunsTheDecodedInstruction : Obligations.StepRunsTheDecodedInstruction := by
  refine ⟨fun s i hc hr hflat hi => ?_, fun s r hc hr hflat hmatch hempty => ?_⟩
  · rw [step_flat hc hr hflat, State.execWord, State.begin_cfg, decodeBytesIn_rawFlat hi]
    exact ⟨fun h => if_pos h, fun h => if_neg (by simp [h]), fun h => registersExist_of_nreg h i⟩
  · have hdecode : decodeIn s.cfg.table (rawFlat s s.pc .word) = Action.build (rawFlat s s.pc .word) .empty := by
      simp only [decodeIn, hmatch, hempty]
    rw [step_flat hc hr hflat, State.execWord, State.begin_cfg, hdecode,
      if_pos (registersExist_empty (configOk_nreg hc) _), exec_empty]
    exact ⟨_, rfl, s.begin.onlyJumps_commit _⟩

end Sys2Proof.Machine
end

section
/-! PROOFS. How a step ends (40_engine_cycle.md R110, R117, R120, R121): committed, or in a fatal error that changes no
architectural state but `run_state` and `fault`. -/

namespace Sys2Proof.Machine

/-! ## The two ends of a step -/

/-- What a commit leaves of a step that began with the fault record `record`: `x[0]` is 0 and the record is as it was; the
machine is not `ABORTED` (R117, R120; a `Stop()` may follow, 60_exceptions.md R262). -/
structure Committed (record : Option FaultRecord) (t : State) : Prop where
  zero : t.reg 0#5 = 0#32
  fault : t.fault = record
  runState : t.runState ≠ .aborted

/-- An instruction that a running machine executes ends in a fatal error or commits. -/
theorem Ending.abort_or_committed {i : Instr} {s t : State} (e : Ending i s t) (hr : s.runState = .running) :
    (∃ f, t = s.abort f) ∨ Committed s.fault t := by
  cases e with
  | aborted f => exact .inl ⟨f, rfl⟩
  | loaded u rd addr v w n _ _ hread =>
    obtain ⟨d, es, rfl⟩ := State.memRead_frame hread
    exact .inr ⟨by simp, rfl, by simp [hr]⟩
  | stored u addr v n _ hwrite =>
    obtain ⟨m, es, rfl⟩ := State.memWrite_frame hwrite
    exact .inr ⟨by simp, rfl, by simp [hr]⟩
  | csr => exact .inr ⟨by simp, by simp, by simp [hr]⟩
  | wrote | linked | fell | branched | called | broke | stopped | returned => exact .inr ⟨by simp, rfl, by simp [hr]⟩

/-- Every step ends in a fatal error or commits. A fatal error keeps the state as it was but for the mark `started`, and for the
device history, since the fetch may have read a device (20_memory.md R63; log 6). -/
theorem step_abort_or_committed {s t : State} (h : step s = .next t) :
    (∃ f d es, t = State.abort { s.begin with draws := d, events := es } f) ∨ Committed s.fault t := by
  obtain ⟨-, hr, ⟨inst, u, hf, hx⟩ | ⟨f, -, rfl⟩⟩ := step_next h
  · obtain ⟨d, es, rfl⟩ := State.memRead_frame hf
    rcases (Ending.of_exec hx).abort_or_committed hr with ⟨f, rfl⟩ | hcommitted
    · exact .inl ⟨f, d, es, rfl⟩
    · exact .inr hcommitted
  · exact .inl ⟨f, s.draws, s.events, rfl⟩

/-- A running machine with an accepted configuration and every register a field can name takes its step (R110). -/
theorem exists_step {s : State} (hc : configOk s.cfg = true) (hn : 32 ≤ s.cfg.nreg) (hr : s.runState = .running) :
    ∃ t, step s = .next t := by
  cases hf : s.begin.fetch with
  | error f => exact ⟨_, step_of_fetch_error hc hr hf⟩
  | ok p =>
    obtain ⟨inst, u⟩ := p
    obtain ⟨d, es, hu⟩ := State.memRead_frame hf
    have hnu : 32 ≤ u.cfg.nreg := by rw [hu]; exact hn
    rw [step_of_fetch hc hr hf, State.execWord_of_nreg hnu]
    exact everyInstructionAnswersANextState _ _

/-! ## What a step leaves -/

/-- Settles O13: the step is taken, and it ends in a fatal error or commits; a commit leaves the machine `RUNNING` or
`STOPPED`. -/
theorem everyRunningStepCompletes : Obligations.EveryRunningStepCompletes := by
  intro s hc hn hr
  obtain ⟨t, ht⟩ := exists_step hc hn hr
  refine ⟨t, ht, ?_⟩
  rcases step_abort_or_committed ht with ⟨f, d, es, rfl⟩ | hcommitted
  · exact .inr (.inr ⟨rfl, f.cls, f.info, rfl⟩)
  · cases hrt : t.runState with
    | running => exact .inl ⟨rfl, hcommitted.fault⟩
    | stopped => exact .inr (.inl ⟨rfl, hcommitted.fault⟩)
    | aborted => exact absurd hrt hcommitted.runState

/-- Settles O15: a commit zeroes `x[0]`, and a fatal error writes no register. -/
theorem committedStepZeroesRegisterZero : Obligations.CommittedStepZeroesRegisterZero := by
  intro s t h
  rcases step_abort_or_committed h with ⟨f, d, es, rfl⟩ | hcommitted
  · exact ⟨fun hne => absurd rfl hne, fun _ => ⟨fun _ => rfl, rfl⟩⟩
  · exact ⟨fun _ => hcommitted.zero, fun ha => absurd ha hcommitted.runState⟩

/-- Settles O16: a step that leaves the machine `ABORTED` did not commit, so it is a fatal error. -/
theorem fatalStepChangesNothingElse : Obligations.FatalStepChangesNothingElse := by
  intro s t h ha
  rcases step_abort_or_committed h with ⟨f, d, es, rfl⟩ | hcommitted
  · exact ⟨⟨f.cls, f.info, rfl⟩, rfl, ⟨fun _ => rfl, rfl⟩, fun k => by cases k <;> rfl, rfl, fun _ => rfl, rfl⟩
  · exact absurd ha hcommitted.runState

end Sys2Proof.Machine
end

section
/-! PROOFS. Runs (40_engine_cycle.md R123, 60_exceptions.md R262, R269): how the loop of `Run(n)` goes on from step to step, how
it ends, and "continue", the loop without a budget. -/

namespace Sys2Proof.Machine

/-! ## One round of the loop -/

section Round
variable {n : Nat} {s t u : State}

/-- A step that stays in `RUNNING` uses up one of the budget. -/
theorem runLoop_succ_of_running (h : step s = .next u) (hu : u.runState = .running) : runLoop (n + 1) s = runLoop n u := by
  simp only [runLoop, h, hu, if_true]

/-- A step that leaves `RUNNING` ends the loop. -/
theorem runLoop_succ_of_not_running (h : step s = .next u) (hu : u.runState ≠ .running) : runLoop (n + 1) s = .next u := by
  simp only [runLoop, h, hu, if_false]

/-- While the machine stays in `RUNNING` the reason is that of the rest of the loop. -/
theorem loopEnd_succ_of_running (h : step s = .next u) (hu : u.runState = .running) : loopEnd (n + 1) s = loopEnd n u := by
  simp only [loopEnd, h, hu, if_true]

/-- The reason is that of the step that leaves `RUNNING`. -/
theorem loopEnd_succ_of_not_running (h : step s = .next u) (hu : u.runState ≠ .running) :
    loopEnd (n + 1) s = some u.ended := by
  simp only [loopEnd, h, hu, if_false]

/-- A loop that ends has taken its first step. -/
theorem exists_step_of_runLoop_succ (h : runLoop (n + 1) s = .next t) : ∃ u, step s = .next u := by
  rw [runLoop] at h
  split at h
  · exact ⟨_, by assumption⟩
  · cases h
  · cases h

end Round

/-! ## The host's start -/

/-- Outside `ABORTED` the host's start answers. -/
theorem State.resume_of_not_aborted {s : State} (h : s.runState ≠ .aborted) :
    s.resume = some { s with runState := .running } := by
  rw [State.resume]
  split
  · exact absurd (by assumption) h
  · rfl
  · rename_i hr
    rw [← hr]

/-- A run is the loop from the started machine. -/
theorem State.run_of_resume {s u : State} (h : s.resume = some u) (n : Nat) : s.run n = runLoop n u := by
  rw [State.run, h]

/-- Its reason is the loop's. -/
theorem State.runEnd_of_resume {s u : State} (h : s.resume = some u) (n : Nat) : s.runEnd n = loopEnd n u := by
  rw [State.runEnd, h, Option.bind_some]

/-- A run that answers a next state has been started. -/
theorem State.exists_resume_of_run {s t : State} {n : Nat} (h : s.run n = .next t) :
    ∃ u, s.resume = some u ∧ runLoop n u = .next t := by
  rw [State.run] at h
  split at h
  · exact ⟨_, by assumption, h⟩
  · cases h

/-! ## A run cut in two -/

/-- Of `n + 1` steps in a row that answer, the first answers and so do the `n` that follow. -/
theorem exists_step_of_coreRun_succ {n : Nat} {M : Host.Core} {s t : M.State}
    (h : M.run (n + 1) s = .next t) : ∃ u, M.step s = .next u ∧ M.run n u = .next t := by
  rw [Host.Core.run] at h
  split at h
  · exact ⟨_, by assumption, h⟩
  · cases h
  · cases h

/-- Steps in a row that end in `RUNNING` begin there. -/
theorem running_of_coreRun {n : Nat} {s t : State} (h : Host.Core.run Sys2Proof.core n s = .next t)
    (ht : t.runState = .running) : s.runState = .running := by
  cases n with
  | zero => cases h; exact ht
  | succ n =>
    obtain ⟨u, hu, -⟩ := exists_step_of_coreRun_succ h
    exact running_of_step hu

/-- After `n` steps that stay in `RUNNING` the loop goes on from where they lead. -/
theorem runLoop_add {n : Nat} (m : Nat) {s t : State} (h : Host.Core.run Sys2Proof.core n s = .next t)
    (ht : t.runState = .running) : runLoop (n + m) s = runLoop m t := by
  induction n generalizing s with
  | zero => cases h; rw [Nat.zero_add]
  | succ n ih =>
    obtain ⟨u, hu, hrest⟩ := exists_step_of_coreRun_succ h
    rw [Nat.succ_add, runLoop_succ_of_running hu (running_of_coreRun hrest ht), ih hrest]

/-- A run of a running machine is its loop (log 7). -/
theorem State.run_of_running {s : State} (h : s.runState = .running) (n : Nat) : s.run n = runLoop n s := by
  rw [State.run, State.resume, h]

/-- A start undoes a stop. -/
theorem State.resume_stop {s : State} (h : s.runState = .running) : s.stop.resume = some s := by
  rw [State.resume_of_not_aborted (by simp), ← h]
  rfl

/-- Settles O58: both runs go on from the state after the first `n` steps, the first of them with no budget left. -/
theorem resumedRunIsTheContinuousRun : Obligations.ResumedRunIsTheContinuousRun := by
  intro n m s t hs h ht
  constructor
  · calc s.run n = runLoop (n + 0) s := State.run_of_running hs n
      _ = runLoop 0 t := runLoop_add 0 h ht
  · calc t.stop.run m = runLoop m t := State.run_of_resume (State.resume_stop ht) m
      _ = runLoop (n + m) s := (runLoop_add m h ht).symm
      _ = s.run (n + m) := (State.run_of_running hs _).symm

/-! ## How a run ends -/

/-- A step does not use up a budget. -/
theorem State.ended_ne_budget (s : State) : s.ended ≠ .budget := by
  rw [State.ended]
  split <;> simp

/-- A step's reason is a fatal error exactly in `ABORTED`. -/
theorem State.ended_eq_fatal_iff (s : State) : s.ended = .fatal ↔ s.runState = .aborted := by
  rw [State.ended]
  split <;> simp_all

/-- A loop that ends has used up its budget and stops the machine, or ends as the loop without a budget does. -/
theorem runLoop_ends {n : Nat} {s t : State} (h : runLoop n s = .next t) :
    (loopEnd n s = some .budget ∧ t.runState = .stopped) ∨
    (loopEnd n s = some t.ended ∧ t.runState ≠ .running ∧ ContinueLoop s t.ended t) := by
  induction n generalizing s with
  | zero => cases h; exact .inl ⟨rfl, rfl⟩
  | succ n ih =>
    obtain ⟨u, hu⟩ := exists_step_of_runLoop_succ h
    by_cases hru : u.runState = .running
    · rw [runLoop_succ_of_running hu hru] at h
      rw [loopEnd_succ_of_running hu hru]
      exact (ih h).imp_right fun ⟨hend, hrt, hcontinue⟩ => ⟨hend, hrt, .more hu hru hcontinue⟩
    · rw [runLoop_succ_of_not_running hu hru] at h
      cases h
      exact .inr ⟨loopEnd_succ_of_not_running hu hru, hru, .last hu hru⟩

/-- The loop without a budget ends by a step, and a budget that reaches that step gives the same end. -/
theorem ContinueLoop.exists_runLoop {s t : State} {e : RunEnd} (h : ContinueLoop s e t) :
    e = t.ended ∧ ∃ n, loopEnd n s = some e ∧ runLoop n s = .next t := by
  induction h with
  | last hstep hrt => exact ⟨rfl, 1, loopEnd_succ_of_not_running hstep hrt, runLoop_succ_of_not_running hstep hrt⟩
  | more hstep hrt _ ih =>
    obtain ⟨he, n, hend, hloop⟩ := ih
    exact ⟨he, n + 1, by rw [loopEnd_succ_of_running hstep hrt, hend], by rw [runLoop_succ_of_running hstep hrt, hloop]⟩

/-- The loop without a budget is the limit of the loops with one (R123). -/
theorem continueLoop_iff {s t : State} {e : RunEnd} :
    ContinueLoop s e t ↔ e ≠ .budget ∧ ∃ n, loopEnd n s = some e ∧ runLoop n s = .next t := by
  constructor
  · intro h
    obtain ⟨rfl, hn⟩ := h.exists_runLoop
    exact ⟨t.ended_ne_budget, hn⟩
  · rintro ⟨hne, n, hend, hloop⟩
    rcases runLoop_ends hloop with ⟨hbudget, -⟩ | ⟨hended, -, hcontinue⟩
    · exact absurd (Option.some.inj (hend.symm.trans hbudget)) hne
    · rwa [Option.some.inj (hend.symm.trans hended)]

/-- Of a machine whose every step in `RUNNING` is taken, the loop without a budget ends, or each loop with one uses it up. -/
theorem continueLoop_or_budget {s : State} (hc : configOk s.cfg = true) (hn : 32 ≤ s.cfg.nreg) (hr : s.runState = .running)
    (n : Nat) : (∃ e t, ContinueLoop s e t) ∨ loopEnd n s = some .budget := by
  induction n generalizing s with
  | zero => exact .inr rfl
  | succ n ih =>
    obtain ⟨u, hu⟩ := exists_step hc hn hr
    by_cases hru : u.runState = .running
    · have hcfg : u.cfg = s.cfg := (step_cfg_started hu).1
      rw [loopEnd_succ_of_running hu hru]
      exact (ih (by rwa [hcfg]) (by rwa [hcfg]) hru).imp_left fun ⟨e, t, ht⟩ => ⟨e, t, .more hu hru ht⟩
    · exact .inl ⟨u.ended, u, .last hu hru⟩

/-- "Continue" is the limit of the finite runs (R123). -/
theorem State.continue_iff {s t : State} {e : RunEnd} :
    s.Continue e t ↔ e ≠ .budget ∧ ∃ n, s.runEnd n = some e ∧ s.run n = .next t := by
  constructor
  · rintro ⟨u, hu, h⟩
    obtain ⟨hne, n, hend, hloop⟩ := continueLoop_iff.mp h
    exact ⟨hne, n, by rw [State.runEnd_of_resume hu, hend], by rw [State.run_of_resume hu, hloop]⟩
  · rintro ⟨hne, n, hend, hrun⟩
    obtain ⟨u, hu, hloop⟩ := State.exists_resume_of_run hrun
    rw [State.runEnd_of_resume hu] at hend
    exact ⟨u, hu, continueLoop_iff.mpr ⟨hne, n, hend, hloop⟩⟩

/-- A run that ends does not leave the machine `RUNNING`, and gives a fatal error as its reason exactly in `ABORTED`. -/
theorem State.run_ends {s t : State} {n : Nat} (h : s.run n = .next t) :
    t.runState ≠ .running ∧ ∃ e, s.runEnd n = some e ∧ (e = .fatal ↔ t.runState = .aborted) := by
  obtain ⟨u, hu, hloop⟩ := State.exists_resume_of_run h
  rw [State.runEnd_of_resume hu]
  rcases runLoop_ends hloop with ⟨hend, hrt⟩ | ⟨hend, hrt, -⟩
  · exact ⟨by simp [hrt], .budget, hend, by simp [hrt]⟩
  · exact ⟨hrt, t.ended, hend, t.ended_eq_fatal_iff⟩

/-- Settles O60: a run ends as its loop does, and the invariant ties the fault record to `ABORTED`. -/
theorem runsEndStoppedOrAborted : Obligations.RunsEndStoppedOrAborted := by
  refine ⟨fun n s t hinv h => ?_, fun n s t h => (State.run_ends h).2, fun s t e => State.continue_iff, fun s hc hn hr => ?_⟩
  · have ht : t.Inv := runKeepsTheInvariant n s t hinv h
    cases hrt : t.runState with
    | running => exact absurd hrt (State.run_ends h).1
    | stopped => exact .inl ⟨rfl, ht.fault_eq_none (by simp [hrt])⟩
    | aborted => exact .inr ⟨rfl, ht.faultIff.mpr hrt⟩
  · have hstart := State.resume_of_not_aborted hr
    refine or_iff_not_imp_left.mpr fun hcontinue n => ?_
    rw [State.runEnd_of_resume hstart]
    exact (continueLoop_or_budget hc hn (s := { s with runState := .running }) rfl n).resolve_left
      fun ⟨e, t, h⟩ => hcontinue ⟨e, t, _, hstart, h⟩

end Sys2Proof.Machine
end

section
/-! PROOFS. The integer register-immediate instructions (41_integer_immediate.md R130 to R141): the value each writes, as
arithmetic or bit by bit, and the one shape they share, a register write that goes on at `pc + 4` (R141). -/

namespace Sys2Proof.Machine

/-! ## The values -/

/-- A comparison writes 1 or 0 (R131). -/
theorem boolWord_decide (p : Prop) [Decidable p] : boolWord (decide p) = if p then 1#32 else 0#32 := by
  simp [boolWord]

/-- Sign extension keeps the signed value (R84). -/
theorem toInt_sext {n : Nat} (h : n ≤ 32) (imm : BitVec n) : (sext imm).toInt = imm.toInt :=
  BitVec.toInt_signExtend_of_le h

/-- Bit `i` of `immI`: the field's own bit, and from bit 11 on its top bit (R84). -/
theorem getLsbD_sext_min {i : Nat} (hi : i < 32) (imm : BitVec 12) : (sext imm).getLsbD i = imm.getLsbD (min i 11) := by
  rw [getLsbD_sext hi]
  split
  · rw [Nat.min_eq_left (by omega)]
  · rw [Nat.min_eq_right (by omega)]

/-- A left shift multiplies modulo `2^32` (R136). -/
theorem toNat_shiftLeft_eq_mul (a : Word) (k : Nat) : (a <<< k).toNat = a.toNat * 2 ^ k % 2 ^ 32 := by
  rw [BitVec.toNat_shiftLeft, Nat.shiftLeft_eq]

/-- A logical right shift divides the unsigned value (R137). -/
theorem toNat_ushiftRight_eq_div (a : Word) (k : Nat) : (a >>> k).toNat = a.toNat / 2 ^ k := by
  rw [BitVec.toNat_ushiftRight, Nat.shiftRight_eq_div_pow]

/-- An arithmetic right shift divides the signed value, rounding toward minus infinity (R138). -/
theorem toInt_sshiftRight_eq_div (a : Word) (k : Nat) : (a.sshiftRight k).toInt = a.toInt / 2 ^ k := by
  rw [BitVec.toInt_sshiftRight, Int.shiftRight_eq_div_pow]
  norm_cast

/-- `immU` is the field times `2^12` (R89). -/
theorem toNat_upper (imm : BitVec 20) : (upper imm).toNat = imm.toNat * 2 ^ 12 := by
  rw [upper, BitVec.toNat_append, Nat.shiftLeft_eq, BitVec.toNat_ofNat, Nat.zero_mod, Nat.or_zero]

/-! ## The instructions -/

/-- Of an action that ends in `writeNext`, whatever holds of the value holds of what it writes. -/
theorem State.exists_writeNext_writesReg (s : State) (rd : RegId) {v : Word} {P : Word → Prop} (hv : P v) :
    ∃ t w, s.writeNext rd v = .next t ∧ WritesReg s t rd w (s.pc + 4#32) ∧ P w := by
  obtain ⟨t, ht, hw⟩ := s.writeNext_writesReg rd v
  exact ⟨t, v, ht, hw, hv⟩

section Immediates
variable (rd rs1 : RegId) (imm : BitVec 12) (s : State)

/-- ADDI writes the sum modulo `2^32` (R130). -/
theorem exec_addi_writesReg : ∃ t, exec (.addi rd rs1 imm) s = .next t ∧
    WritesReg s t rd (BitVec.ofNat 32 ((s.reg rs1).toNat + (imm.signExtend 32).toNat)) (s.pc + 4#32) := by
  rw [← BitVec.add_def]
  exact s.writeNext_writesReg rd _

/-- SLTI writes the signed comparison (R131). -/
theorem exec_slti_writesReg : ∃ t, exec (.slti rd rs1 imm) s = .next t ∧
    WritesReg s t rd (if (s.reg rs1).toInt < imm.toInt then 1#32 else 0#32) (s.pc + 4#32) := by
  rw [← toInt_sext (by decide) imm, ← boolWord_decide]
  exact s.writeNext_writesReg rd _

/-- SLTIU writes the unsigned comparison with the sign-extended immediate (R132). -/
theorem exec_sltiu_writesReg : ∃ t, exec (.sltiu rd rs1 imm) s = .next t ∧
    WritesReg s t rd (if (s.reg rs1).toNat < (imm.signExtend 32).toNat then 1#32 else 0#32) (s.pc + 4#32) := by
  rw [← boolWord_decide]
  exact s.writeNext_writesReg rd _

end Immediates

/-- Settles O30: each word is its instruction's encoding, and each instruction writes its one register. -/
theorem addAndCompareImmediate : Obligations.AddAndCompareImmediate :=
  fun rd rs1 imm s =>
    ⟨decode_encode (i := .addi rd rs1 imm) rfl, exec_addi_writesReg rd rs1 imm s,
      decode_encode (i := .slti rd rs1 imm) rfl, exec_slti_writesReg rd rs1 imm s,
      decode_encode (i := .sltiu rd rs1 imm) rfl, exec_sltiu_writesReg rd rs1 imm s⟩

/-- Settles O31: the operation works bit by bit, and the immediate's bits from 11 on are its top bit. -/
theorem logicImmediate : Obligations.LogicImmediate := by
  intro rd rs1 imm s
  refine ⟨decode_encode (i := .xori rd rs1 imm) rfl, s.exists_writeNext_writesReg rd fun i hi => ?_,
    decode_encode (i := .ori rd rs1 imm) rfl, s.exists_writeNext_writesReg rd fun i hi => ?_,
    decode_encode (i := .andi rd rs1 imm) rfl, s.exists_writeNext_writesReg rd fun i hi => ?_⟩
  · rw [BitVec.getLsbD_xor, getLsbD_sext_min hi]
  · rw [BitVec.getLsbD_or, getLsbD_sext_min hi]
  · rw [BitVec.getLsbD_and, getLsbD_sext_min hi]

/-- Settles O32: the shifts as multiplication and division by a power of 2. -/
theorem shiftImmediate : Obligations.ShiftImmediate :=
  fun rd rs1 shamt s =>
    ⟨decode_encode (i := .slli rd rs1 shamt) rfl, s.exists_writeNext_writesReg rd (toNat_shiftLeft_eq_mul _ _),
      decode_encode (i := .srli rd rs1 shamt) rfl, s.exists_writeNext_writesReg rd (toNat_ushiftRight_eq_div _ _),
      decode_encode (i := .srai rd rs1 shamt) rfl, s.exists_writeNext_writesReg rd (toInt_sshiftRight_eq_div _ _)⟩

/-- Settles O33: the upper immediate is the field times `2^12`, and AUIPC's sum is taken modulo `2^32`. -/
theorem upperImmediate : Obligations.UpperImmediate := by
  intro rd imm s
  refine ⟨decode_encode (i := .lui rd imm) rfl, s.exists_writeNext_writesReg rd (toNat_upper imm),
    decode_encode (i := .auipc rd imm) rfl, s.exists_writeNext_writesReg rd ?_⟩
  rw [BitVec.toNat_add, toNat_upper]

end Sys2Proof.Machine
end

section
/-! PROOFS. The integer register-register instructions (42_integer_register.md R150 to R160): as for the register-immediate
ones, each value as arithmetic or bit by bit, and a register write that goes on at `pc + 4` (R160). -/

namespace Sys2Proof.Machine

/-! ## The values -/

/-- A difference is taken modulo `2^32` (R151). -/
theorem toNat_sub_eq_emod (a b : Word) : ((a - b).toNat : Int) = (a.toNat - b.toNat : Int) % 2 ^ 32 := by
  have hb : b.toNat < 2 ^ 32 := b.isLt
  rw [BitVec.toNat_sub]
  omega

/-- The amount of a register shift is its source modulo 32 (R160). -/
theorem shiftAmount_eq_mod (v : Word) : shiftAmount v = v.toNat % 32 :=
  BitVec.extractLsb'_toNat 0 5 v

/-! ## The instructions -/

section Comparisons
variable (rd rs1 rs2 : RegId) (s : State)

/-- SLT writes the signed comparison (R153). -/
theorem exec_slt_writesReg : ∃ t, exec (.slt rd rs1 rs2) s = .next t ∧
    WritesReg s t rd (if (s.reg rs1).toInt < (s.reg rs2).toInt then 1#32 else 0#32) (s.pc + 4#32) := by
  rw [← boolWord_decide]
  exact s.writeNext_writesReg rd _

/-- SLTU writes the unsigned comparison (R154). -/
theorem exec_sltu_writesReg : ∃ t, exec (.sltu rd rs1 rs2) s = .next t ∧
    WritesReg s t rd (if (s.reg rs1).toNat < (s.reg rs2).toNat then 1#32 else 0#32) (s.pc + 4#32) := by
  rw [← boolWord_decide]
  exact s.writeNext_writesReg rd _

end Comparisons

/-- Settles O34: the sum and the difference are taken modulo `2^32`, and a comparison writes 1 or 0. -/
theorem addSubtractAndCompare : Obligations.AddSubtractAndCompare :=
  fun rd rs1 rs2 s =>
    ⟨decode_encode (i := .add rd rs1 rs2) rfl, s.exists_writeNext_writesReg rd (BitVec.toNat_add _ _),
      decode_encode (i := .sub rd rs1 rs2) rfl, s.exists_writeNext_writesReg rd (toNat_sub_eq_emod _ _),
      decode_encode (i := .slt rd rs1 rs2) rfl, exec_slt_writesReg rd rs1 rs2 s,
      decode_encode (i := .sltu rd rs1 rs2) rfl, exec_sltu_writesReg rd rs1 rs2 s⟩

/-- Settles O35: each operation works bit by bit. -/
theorem logicRegister : Obligations.LogicRegister :=
  fun rd rs1 rs2 s =>
    ⟨decode_encode (i := .xor rd rs1 rs2) rfl, s.exists_writeNext_writesReg rd fun _ _ => BitVec.getLsbD_xor,
      decode_encode (i := .or rd rs1 rs2) rfl, s.exists_writeNext_writesReg rd fun _ _ => BitVec.getLsbD_or,
      decode_encode (i := .and rd rs1 rs2) rfl, s.exists_writeNext_writesReg rd fun _ _ => BitVec.getLsbD_and⟩

/-- Settles O36: the shifts of O32, by an amount that is `src2` modulo 32. -/
theorem shiftRegister : Obligations.ShiftRegister := by
  intro rd rs1 rs2 s
  rw [← shiftAmount_eq_mod]
  exact ⟨decode_encode (i := .sll rd rs1 rs2) rfl, s.exists_writeNext_writesReg rd (toNat_shiftLeft_eq_mul _ _),
    decode_encode (i := .srl rd rs1 rs2) rfl, s.exists_writeNext_writesReg rd (toNat_ushiftRight_eq_div _ _),
    decode_encode (i := .sra rd rs1 rs2) rfl, s.exists_writeNext_writesReg rd (toInt_sshiftRight_eq_div _ _)⟩

end Sys2Proof.Machine
end

section
/-! PROOFS. Control transfer (43_control_transfer.md R170 to R178): the two shapes of R178, a jump that writes the link register and
a branch that only sets the next pc, and what each instruction puts into its shape. -/

namespace Sys2Proof.Machine

/-- An offset whose bit 0 is clear is one the encoder can write (R87, R88). -/
theorem evenOffset_of_getLsbD {n : Nat} {imm : BitVec n} (h : imm.getLsbD 0 = false) : evenOffset imm = true := by
  rw [evenOffset, h]
  rfl

/-! ## Jumps -/

/-- Clearing bit 0 rounds down to an even number (R171). -/
theorem toNat_clearBit0 (a : Word) : (a &&& 0xfffffffe#32).toNat = 2 * (a.toNat / 2) := by
  have hmask : a &&& 0xfffffffe#32 = a >>> 1 <<< 1 := by
    rw [BitVec.shiftLeft_ushiftRight]
    rfl
  rw [hmask]
  bv_omega

/-- A jump completes, writes `pc + 4` to its link register and goes to its target (R178). -/
theorem State.jump_writesReg (s : State) (rd : RegId) (target : Word) :
    ∃ t, s.jump rd target = .next t ∧ WritesReg s t rd (s.pc + 4#32) target :=
  ⟨_, rfl, s.writesReg_commit rd s.snpc target⟩

/-- Settles O37: both instructions are jumps, JALR's target the sum with bit 0 cleared. -/
theorem jumpAndLink : Obligations.JumpAndLink := by
  refine ⟨fun rd imm heven => decode_encode (i := .jal rd imm) (evenOffset_of_getLsbD heven),
    fun rd imm s => s.jump_writesReg rd _,
    fun rd rs1 imm s => ⟨decode_encode (i := .jalr rd rs1 imm) rfl, ?_⟩⟩
  obtain ⟨t, ht, hw⟩ := s.jump_writesReg rd ((s.reg rs1 + sext imm) &&& 0xfffffffe#32)
  exact ⟨t, _, ht, hw, toNat_clearBit0 _⟩

/-! ## Branches -/

/-- The six branch words decode to their instructions when the offset is even (R172 to R177). -/
theorem decode_encodeB {rs1 rs2 : RegId} {imm : BitVec 13} (heven : evenOffset imm = true) {f3 : BitVec 3} {i : Instr}
    (hi : (f3, i) ∈ [(0b000#3, .beq rs1 rs2 imm), (0b001#3, .bne rs1 rs2 imm), (0b100#3, .blt rs1 rs2 imm),
      (0b101#3, .bge rs1 rs2 imm), (0b110#3, .bltu rs1 rs2 imm), (0b111#3, .bgeu rs1 rs2 imm)]) :
    decode (encodeB imm rs2 rs1 f3 0b1100011#7) = i := by
  obtain ⟨hwf, hword⟩ : i.wf = evenOffset imm ∧ encode i = encodeB imm rs2 rs1 f3 0b1100011#7 := by
    simp only [List.mem_cons, List.not_mem_nil, or_false, Prod.mk.injEq] at hi
    rcases hi with ⟨rfl, rfl⟩ | ⟨rfl, rfl⟩ | ⟨rfl, rfl⟩ | ⟨rfl, rfl⟩ | ⟨rfl, rfl⟩ | ⟨rfl, rfl⟩ <;> exact ⟨rfl, rfl⟩
  rw [← hword]
  exact decode_encode (hwf.trans heven)

/-- A branch on the condition `p` completes and only sets the next pc: `pc + immB` if `p` holds, `pc + 4` if not. -/
theorem State.branch_onlyJumps (s : State) (imm : BitVec 13) {taken : Bool} {p : Prop} [Decidable p] (h : taken = true ↔ p) :
    ∃ t, s.branch taken imm = .next t ∧ OnlyJumps s t (s.pc + if p then imm.signExtend 32 else 4#32) := by
  have htarget : (s.pc + if p then imm.signExtend 32 else 4#32) = if taken then s.pc + sext imm else s.snpc := by
    rw [add_ite, if_congr h rfl rfl]
    rfl
  rw [htarget]
  exact ⟨_, rfl, s.onlyJumps_commit _⟩

/-- The signed comparison of R174 as an inequality of the signed values. -/
@[simp] theorem ltSigned_iff (a b : Word) : ltSigned a b = true ↔ a.toInt < b.toInt := decide_eq_true_iff

/-- The unsigned comparison of R176 as an inequality of the unsigned values. -/
@[simp] theorem ltUnsigned_iff (a b : Word) : ltUnsigned a b = true ↔ a.toNat < b.toNat := decide_eq_true_iff

/-- `not (a <s b)`, the condition of R175. -/
theorem not_ltSigned_iff (a b : Word) : (!ltSigned a b) = true ↔ b.toInt ≤ a.toInt := by
  rw [Bool.not_eq_true', ← Bool.not_eq_true, ltSigned_iff, not_lt]

/-- `not (a <u b)`, the condition of R177. -/
theorem not_ltUnsigned_iff (a b : Word) : (!ltUnsigned a b) = true ↔ b.toNat ≤ a.toNat := by
  rw [Bool.not_eq_true', ← Bool.not_eq_true, ltUnsigned_iff, not_lt]

/-- Settles O38: each instruction is a branch on its condition. -/
theorem conditionalBranches : Obligations.ConditionalBranches :=
  fun _ _ imm s =>
    ⟨fun heven _ _ hi => decode_encodeB (evenOffset_of_getLsbD heven) hi,
      s.branch_onlyJumps imm beq_iff_eq,
      s.branch_onlyJumps imm bne_iff_ne,
      s.branch_onlyJumps imm (ltSigned_iff _ _),
      s.branch_onlyJumps imm (not_ltSigned_iff _ _),
      s.branch_onlyJumps imm (ltUnsigned_iff _ _),
      s.branch_onlyJumps imm (not_ltUnsigned_iff _ _)⟩

end Sys2Proof.Machine
end

section
/-! PROOFS. Loads and stores (44_load_store.md R190 to R198): what the two shared shapes do in each of the three cases of an
access, and which shape, width and extension each of the eight instructions has. -/

namespace Sys2Proof.Machine

/-! ## Loads -/

/-- An access of `n` bytes has nothing above its low `8n` bits, so to cut it again changes nothing (R56). -/
@[simp] theorem lowBytes_lowBytes (v : Word) (n : Width) : lowBytes (lowBytes v n) n = lowBytes v n := by
  cases n <;> simp [lowBytes]

/-- What the flat array gives to a read of `n` bytes has nothing above them (R56). -/
@[simp] theorem lowBytes_rawFlat (s : State) (addr : Word) (n : Width) : lowBytes (rawFlat s addr n) n = rawFlat s addr n := by
  cases n <;> simp [lowBytes, rawFlat]

/-- A read of the flat array gives the bytes that lie there and changes nothing. -/
theorem State.memRead_of_flatAccess {s : State} {addr : Word} {n : Width} (h : FlatAccess s.cfg addr n.bytes) :
    s.memRead addr n = .ok (rawFlat s addr n, s) := by
  rw [State.memRead_flat ((flatAccess_iff n.bytes_bounds.1).mp h), Memory.read_eq_rawFlat]

/-- A load whose read answers writes the extended value (R198 (c)). -/
theorem State.load_of_memRead {s u : State} {rd : RegId} {addr v : Word} {n : Width} (extend : Word → Word)
    (h : s.memRead addr n = .ok (v, u)) : s.load rd addr n extend = u.writeNext rd (extend v) := by
  rw [State.load, h]

/-- A load whose read fails ends in its fatal error (R198 (f)). -/
theorem State.load_of_error {s : State} {rd : RegId} {addr : Word} {n : Width} {f : Fatal} (extend : Word → Word)
    (h : s.memRead addr n = .error f) : s.load rd addr n extend = .next (s.abort f) := by
  rw [State.load, h]

/-- An instruction that loads has the three effects; its extension is only ever applied to an `n`-byte value. -/
theorem State.load_effect {i : Instr} {s : State} {rd : RegId} {addr : Word} {n : Width} {extend extend' : Word → Word}
    (hi : exec i s = s.load rd addr n extend) (hext : ∀ v, extend (lowBytes v n) = extend' (lowBytes v n)) :
    LoadEffect i s rd addr n extend' := by
  rw [LoadEffect, hi]
  refine ⟨fun hflat => ?_, fun hout => ?_, fun w hdev => ?_⟩
  · have hraw : extend (rawFlat s addr n) = extend' (rawFlat s addr n) := by
      rw [← lowBytes_rawFlat, hext]
    rw [State.load_of_memRead extend (State.memRead_of_flatAccess hflat), hraw]
    exact s.writeNext_writesReg rd _
  · exact ⟨_, State.load_of_error extend (State.memRead_outOfBound hout), s.aborted_abort (memoryBound addr)⟩
  · rw [State.load_of_memRead extend (State.memRead_device hdev), hext]
    obtain ⟨t, ht, hw⟩ := State.writeNext_writesReg _ rd _
    exact ⟨t, ht, hw.regs, hw.pc, hw.mem, hw.csrs, hw.control.cfg, hw.control.trapState, hw.control.runState,
      hw.control.fault, hw.control.draws, hw.control.events⟩

/-- Settles O39: LB sign-extends the low byte of what it reads, and LBU cuts a byte to a byte. -/
theorem byteLoads : Obligations.ByteLoads :=
  fun rd rs1 imm _ =>
    ⟨decode_encode (i := .lb rd rs1 imm) rfl, State.load_effect rfl fun _ => rfl,
      decode_encode (i := .lbu rd rs1 imm) rfl, State.load_effect rfl fun v => lowBytes_lowBytes v .byte⟩

/-- Settles O40: LH sign-extends the low halfword of what it reads, and LHU cuts a halfword to a halfword. -/
theorem halfwordLoads : Obligations.HalfwordLoads :=
  fun rd rs1 imm _ =>
    ⟨decode_encode (i := .lh rd rs1 imm) rfl, State.load_effect rfl fun _ => rfl,
      decode_encode (i := .lhu rd rs1 imm) rfl, State.load_effect rfl fun v => lowBytes_lowBytes v .half⟩

/-- Settles O41: LW writes the word as it is read. -/
theorem wordLoad : Obligations.WordLoad :=
  fun rd rs1 imm _ => ⟨decode_encode (i := .lw rd rs1 imm) rfl, State.load_effect rfl fun _ => rfl⟩

/-! ## Stores -/

/-- A store whose write answers commits with `pc + 4` (R198 (d)). -/
theorem State.store_of_memWrite {s u : State} {addr v : Word} {n : Width} (h : s.memWrite addr n v = .ok u) :
    s.store addr n v = .next (u.commit s.snpc) := by
  rw [State.store, h]

/-- A store whose write fails ends in its fatal error (R198 (f)). -/
theorem State.store_of_error {s : State} {addr v : Word} {n : Width} {f : Fatal} (h : s.memWrite addr n v = .error f) :
    s.store addr n v = .next (s.abort f) := by
  rw [State.store, h]

/-- An instruction that stores has the three effects: after the write it only goes on to `pc + 4`. -/
theorem State.store_effect {i : Instr} {s : State} {addr v : Word} {n : Width} (hi : exec i s = s.store addr n v) :
    StoreEffect i s addr n v := by
  rw [StoreEffect, hi]
  refine ⟨fun hflat => ?_, fun hout => ?_, fun w hdev => ?_⟩
  · refine ⟨_, State.store_of_memWrite (State.memWrite_of_flatAccess v hflat), fun a => ?_, ?_⟩
    · rw [State.commit_mem, Memory.byte_write, BitVec.setWidth_ushiftRight_eq_extractLsb]
    · have hc := State.onlyJumps_commit { s with mem := Memory.write s.mem addr.toNat v n.bytes } s.snpc
      exact ⟨hc.regs, hc.pc, hc.csrs, { hc.control with }⟩
  · exact ⟨_, State.store_of_error (State.memWrite_outOfBound v hout), s.aborted_abort (memoryBound addr)⟩
  · have hc := State.onlyJumps_commit { s with events := s.events ++ [.write w (addr - w.base) n v] } s.snpc
    exact ⟨_, State.store_of_memWrite (State.memWrite_device v hdev), hc.regs, hc.pc, hc.mem, hc.csrs, hc.control.cfg,
      hc.control.trapState, hc.control.runState, hc.control.fault, hc.control.draws, hc.control.events⟩

/-- Settles O42: each instruction is a store of its width. -/
theorem storesWriteTheirBytesOnly : Obligations.StoresWriteTheirBytesOnly :=
  fun rs1 rs2 imm _ =>
    ⟨decode_encode (i := .sb rs1 rs2 imm) rfl, State.store_effect rfl,
      decode_encode (i := .sh rs1 rs2 imm) rfl, State.store_effect rfl,
      decode_encode (i := .sw rs1 rs2 imm) rfl, State.store_effect rfl⟩

end Sys2Proof.Machine
end

section
/-! PROOFS. Multiplication and division (45_muldiv.md R210 to R219): the two halves of an exact product as arithmetic, the
result of an ordinary division as its quotient or remainder, and of every division by the default table. -/

namespace Sys2Proof.Machine

/-! ## Products -/

/-- Bits 31:0 of a product are the product cut to a word (R210). -/
theorem lowWord_eq_ofInt (p : Int) : lowWord p = BitVec.ofInt 32 p := by
  apply BitVec.eq_of_toNat_eq
  rw [lowWord, BitVec.extractLsb'_toNat, BitVec.toNat_ofInt, BitVec.toNat_ofInt]
  omega

/-- Bits 63:32 of a product are its quotient by `2^32`, rounded down and cut to a word (R211 to R213). -/
theorem highWord_eq_ofInt (p : Int) : highWord p = BitVec.ofInt 32 (p / 2 ^ 32) := by
  apply BitVec.eq_of_toNat_eq
  rw [highWord, BitVec.extractLsb'_toNat, BitVec.toNat_ofInt, BitVec.toNat_ofInt, Nat.shiftRight_eq_div_pow]
  omega

/-- The low word is the unsigned readings' product modulo `2^32` (R210). -/
theorem lowWord_mul (a b : Word) : lowWord ((a.toNat : Int) * (b.toNat : Int)) = a * b := by
  rw [lowWord_eq_ofInt, BitVec.ofInt_mul]
  simp

/-- A product modulo `2^32` is the signed readings' too (R210). -/
theorem toNat_mul_eq_toInt_mul_emod (a b : Word) : ((a * b).toNat : Int) = a.toInt * b.toInt % 2 ^ 32 := by
  have hword : a * b = BitVec.ofInt 32 (a.toInt * b.toInt) := by
    rw [BitVec.ofInt_mul, BitVec.ofInt_toInt, BitVec.ofInt_toInt]
  rw [hword, BitVec.toNat_ofInt]
  omega

/-- The signed value of a word is at least `-2^31` and below `2^31`. -/
theorem abs_toInt_le (a : Word) : |a.toInt| ≤ 2 ^ 31 :=
  abs_le.mpr ⟨a.le_toInt, a.toInt_lt.le⟩

/-- With a signed factor the exact product fits 64 bits signed, so its high word loses nothing (R211, R212). -/
theorem toInt_highWord_mul (a : Word) {y : Int} (hy : |y| ≤ 2 ^ 32 - 1) :
    (highWord (a.toInt * y)).toInt = a.toInt * y / 2 ^ 32 := by
  have hbound : |a.toInt * y| ≤ 2 ^ 31 * (2 ^ 32 - 1) :=
    abs_mul a.toInt y ▸ mul_le_mul (abs_toInt_le a) hy (abs_nonneg y) (by decide)
  obtain ⟨hlow, hhigh⟩ := abs_le.mp hbound
  rw [highWord_eq_ofInt]
  exact BitVec.toInt_ofInt_eq_self (by decide) (by omega) (by omega)

/-- The unsigned readings' product fits 64 bits unsigned, so its high word loses nothing (R213). -/
theorem toNat_highWord_mul (a b : Word) :
    (highWord ((a.toNat : Int) * (b.toNat : Int))).toNat = a.toNat * b.toNat / 2 ^ 32 := by
  have hbound : a.toNat * b.toNat < 2 ^ 32 * 2 ^ 32 := Nat.mul_lt_mul'' a.isLt b.isLt
  rw [highWord_eq_ofInt, BitVec.toNat_ofInt]
  omega

/-- Settles O47: MUL writes the low word of the product, and the others a high word that loses nothing. -/
theorem multiplication : Obligations.Multiplication := by
  intro rd rs1 rs2 s
  have hsigned : |(s.reg rs2).toInt| ≤ 2 ^ 32 - 1 := (abs_toInt_le _).trans (by decide)
  have hunsigned : |((s.reg rs2).toNat : Int)| ≤ 2 ^ 32 - 1 := by
    rw [Nat.abs_cast]
    omega
  refine ⟨decode_encode (i := .mul rd rs1 rs2) rfl, s.exists_writeNext_writesReg rd ?_,
    decode_encode (i := .mulh rd rs1 rs2) rfl, s.exists_writeNext_writesReg rd (toInt_highWord_mul _ hsigned),
    decode_encode (i := .mulhsu rd rs1 rs2) rfl, s.exists_writeNext_writesReg rd (toInt_highWord_mul _ hunsigned),
    decode_encode (i := .mulhu rd rs1 rs2) rfl, s.exists_writeNext_writesReg rd (toNat_highWord_mul _ _)⟩
  rw [lowWord_mul]
  exact ⟨BitVec.toNat_mul _ _, toNat_mul_eq_toInt_mul_emod _ _⟩

/-! ## Ordinary divisions -/

/-- DIVU of an ordinary pair is the unsigned quotient (R215). -/
theorem divUnsigned_of_ne_zero (d : DivCorners) (a : Word) {b : Word} (hb : b ≠ 0#32) : divUnsigned d a b = a / b := by
  rw [divUnsigned, if_neg hb, BitVec.udiv_def]

/-- REMU of an ordinary pair is the unsigned remainder (R217). -/
theorem remUnsigned_of_ne_zero (d : DivCorners) (a : Word) {b : Word} (hb : b ≠ 0#32) : remUnsigned d a b = a % b := by
  rw [remUnsigned, if_neg hb, BitVec.umod_def]

/-- Only the pair of R219 is taken for the signed overflow. -/
theorem not_divOverflows {a b : Word} (ho : ¬ (a = 0x80000000#32 ∧ b = 0xffffffff#32)) : ¬ divOverflows a b = true := by
  simpa [divOverflows] using ho

section Ordinary
variable (d : DivCorners) {a b : Word} (hb : b ≠ 0#32) (ho : ¬ (a = 0x80000000#32 ∧ b = 0xffffffff#32))
include hb ho

/-- DIV of an ordinary pair is the quotient rounded toward zero, which fits a word (R214). -/
theorem toInt_divSigned_of_ordinary : (divSigned d a b).toInt = a.toInt.tdiv b.toInt := by
  have hword : divSigned d a b = a.sdiv b := by
    rw [divSigned, if_neg hb, if_neg (not_divOverflows ho)]
    apply BitVec.eq_of_toInt_eq
    rw [BitVec.toInt_ofInt, BitVec.toInt_sdiv]
  rw [hword]
  exact BitVec.toInt_sdiv_of_ne_or_ne a b (not_and_or.mp ho)

/-- REM of an ordinary pair is the remainder of that quotient (R216). -/
theorem toInt_remSigned_of_ordinary : (remSigned d a b).toInt = a.toInt.tmod b.toInt := by
  rw [remSigned, if_neg hb, if_neg (not_divOverflows ho), ← Int.tmod_def, ← BitVec.toInt_srem, BitVec.ofInt_toInt]

end Ordinary

/-! ## Every operand pair, with the default corners -/

/-- The zero divisor by its signed value (R219). -/
theorem toInt_eq_zero_iff (b : Word) : b.toInt = 0 ↔ b = 0#32 := BitVec.toInt_inj (y := 0#32)

/-- The zero divisor by its unsigned value (R219). -/
theorem toNat_eq_zero_iff (b : Word) : b.toNat = 0 ↔ b = 0#32 := BitVec.toNat_inj (y := 0#32)

/-- The operands of the signed overflow by their signed values (R219). -/
theorem toInt_overflow_iff (a b : Word) :
    (a.toInt = -2 ^ 31 ∧ b.toInt = -1) ↔ (a = 0x80000000#32 ∧ b = 0xffffffff#32) :=
  and_congr (BitVec.toInt_inj (y := 0x80000000#32)) (BitVec.toInt_inj (y := 0xffffffff#32))

section Standard
variable {d : DivCorners} (hd : d = DivCorners.standard) (a b : Word)
include hd

/-- DIV by the default table (R214, R219). -/
theorem divSigned_of_standard :
    if b.toInt = 0 then divSigned d a b = 0xffffffff#32
    else if a.toInt = -2 ^ 31 ∧ b.toInt = -1 then divSigned d a b = 0x80000000#32
    else (divSigned d a b).toInt = a.toInt.tdiv b.toInt := by
  subst hd
  simp only [toInt_eq_zero_iff, toInt_overflow_iff]
  split_ifs with hb ho
  · subst hb
    exact divSigned_zero _ a
  · obtain ⟨rfl, rfl⟩ := ho
    exact divSigned_overflow _
  · exact toInt_divSigned_of_ordinary _ hb ho

/-- REM by the default table (R216, R219). -/
theorem remSigned_of_standard :
    if b.toInt = 0 then remSigned d a b = a
    else if a.toInt = -2 ^ 31 ∧ b.toInt = -1 then remSigned d a b = 0#32
    else (remSigned d a b).toInt = a.toInt - b.toInt * a.toInt.tdiv b.toInt := by
  subst hd
  simp only [toInt_eq_zero_iff, toInt_overflow_iff]
  split_ifs with hb ho
  · subst hb
    exact remSigned_zero _ a
  · obtain ⟨rfl, rfl⟩ := ho
    exact remSigned_overflow _
  · rw [← Int.tmod_def]
    exact toInt_remSigned_of_ordinary _ hb ho

/-- DIVU by the default table (R215, R219). -/
theorem divUnsigned_of_standard :
    if b.toNat = 0 then divUnsigned d a b = 0xffffffff#32 else (divUnsigned d a b).toNat = a.toNat / b.toNat := by
  subst hd
  simp only [toNat_eq_zero_iff]
  split_ifs with hb
  · subst hb
    exact divUnsigned_zero _ a
  · rw [divUnsigned_of_ne_zero _ a hb, BitVec.toNat_udiv]

/-- REMU by the default table (R217, R219). -/
theorem remUnsigned_of_standard :
    if b.toNat = 0 then remUnsigned d a b = a else (remUnsigned d a b).toNat = a.toNat % b.toNat := by
  subst hd
  simp only [toNat_eq_zero_iff]
  split_ifs with hb
  · subst hb
    exact remUnsigned_zero _ a
  · rw [remUnsigned_of_ne_zero _ a hb, BitVec.toNat_umod]

end Standard

/-- Settles O48: each instruction writes its result function's value, which is the default table's at the corners. -/
theorem signedDivision : Obligations.SignedDivision :=
  fun rd rs1 rs2 s hd =>
    ⟨decode_encode (i := .div rd rs1 rs2) rfl, s.exists_writeNext_writesReg rd (divSigned_of_standard hd _ _),
      decode_encode (i := .rem rd rs1 rs2) rfl, s.exists_writeNext_writesReg rd (remSigned_of_standard hd _ _)⟩

/-- Settles O49: as O48, with the one corner of an unsigned division. -/
theorem unsignedDivision : Obligations.UnsignedDivision :=
  fun rd rs1 rs2 s hd =>
    ⟨decode_encode (i := .divu rd rs1 rs2) rfl, s.exists_writeNext_writesReg rd (divUnsigned_of_standard hd _ _),
      decode_encode (i := .remu rd rs1 rs2) rfl, s.exists_writeNext_writesReg rd (remUnsigned_of_standard hd _ _)⟩

/-! ## The division laws -/

/-- A destination other than `x0` holds what was written. -/
theorem WritesReg.reg_dest {s t : State} {rd : RegId} {v target : Word} (h : WritesReg s t rd v target) (h0 : rd ≠ 0#5) :
    t.reg rd = v := by
  obtain ⟨hreg, -⟩ := h.regs
  rw [hreg rd, if_neg h0, if_pos rfl]

/-- A remainder of the division toward zero is smaller than the divisor (R219). -/
theorem abs_tmod_lt (a : Int) {b : Int} (hb : b ≠ 0) : |a.tmod b| < |b| := by
  rw [Int.abs_eq_natAbs, Int.abs_eq_natAbs, Int.natAbs_tmod, Int.ofNat_lt]
  exact Nat.mod_lt _ (Int.natAbs_pos.mpr hb)

/-- A remainder of the division toward zero is not of the other sign than the dividend (R219). -/
theorem tmod_nonpos {a : Int} (b : Int) (ha : a ≤ 0) : a.tmod b ≤ 0 := by
  have hneg := Int.tmod_nonneg b (neg_nonneg.mpr ha)
  rw [Int.neg_tmod] at hneg
  exact neg_nonneg.mp hneg

/-- Settles O51: each destination holds the ordinary quotient or remainder, for which the laws are the library's. -/
theorem divisionLaws : Obligations.DivisionLaws := by
  intro rq rr rs1 rs2 s hq hr hb
  refine ⟨fun ho => ?_, ?_⟩
  · obtain ⟨t, ht, hwt⟩ := exec_div_writesReg rq rs1 rs2 s
    obtain ⟨u, hu, hwu⟩ := exec_rem_writesReg rr rs1 rs2 s
    refine ⟨t, u, ht, hu, ?_⟩
    rw [hwt.reg_dest hq, hwu.reg_dest hr, toInt_divSigned_of_ordinary _ hb ho, toInt_remSigned_of_ordinary _ hb ho]
    exact ⟨(Int.mul_tdiv_add_tmod _ _).symm, abs_tmod_lt _ (mt (toInt_eq_zero_iff _).mp hb), Int.tmod_nonneg _,
      tmod_nonpos _⟩
  · obtain ⟨t, ht, hwt⟩ := exec_divu_writesReg rq rs1 rs2 s
    obtain ⟨u, hu, hwu⟩ := exec_remu_writesReg rr rs1 rs2 s
    refine ⟨t, u, ht, hu, ?_⟩
    rw [hwt.reg_dest hq, hwu.reg_dest hr, divUnsigned_of_ne_zero _ _ hb, remUnsigned_of_ne_zero _ _ hb,
      BitVec.toNat_udiv, BitVec.toNat_umod]
    exact ⟨(Nat.div_add_mod _ _).symm, Nat.mod_lt _ (Nat.pos_of_ne_zero (mt (toNat_eq_zero_iff _).mp hb))⟩

end Sys2Proof.Machine
end

section
/-! PROOFS. The system-call, breakpoint, trap-return and invalid instructions (46_system.md R232 to R235): each is an update of the
trap unit or none, then a commit that only jumps; EBREAK then stops, and `inv` is a fatal error. -/

namespace Sys2Proof.Machine

/-! ## Trap entry and trap return -/

/-- R232: trap entry, then a commit at `mtvec` as held. -/
theorem exec_ecall (s : State) : exec .ecall s = .next ((s.trap s.cfg.causeEcall).2.commit s.mtvec) := rfl

/-- R234: trap return, then a commit at `mepc` as held. -/
theorem exec_mret (s : State) : exec .mret s = .next (s.returnFromTrap.2.commit s.mepc) := rfl

/-- Settles O53: after the trap entry the commit only jumps, so the trap unit and the frame are those of the trap entry. -/
theorem ecallEntersTheHandler : Obligations.EcallEntersTheHandler := by
  refine ⟨decode_encode (i := .ecall) rfl, fun s => ⟨_, exec_ecall s, ?_⟩⟩
  have h := State.onlyJumps_commit (s.trap s.cfg.causeEcall).2 s.mtvec
  exact ⟨h.csrs .mepc, h.csrs .mcause, h.control.trapState, h.pc, h.csrs .mtvec, h.csrs .mstatus, h.regs, h.mem,
    h.control.runState, h.control.fault, h.control.cfg, h.control.events, h.control.draws⟩

/-- Settles O55: the trap return sets the trap state and no CSR, and after it the commit only jumps. -/
theorem mretReturnsFromTheTrap : Obligations.MretReturnsFromTheTrap := by
  refine ⟨decode_encode (i := .mret) rfl, fun s => ⟨_, exec_mret s, ?_⟩⟩
  have h := State.onlyJumps_commit s.returnFromTrap.2 s.mepc
  have hcsrs : SameCsrs s (s.returnFromTrap.2.commit s.mepc) := fun k => (h.csrs k).trans (s.csr_returnFromTrap k)
  exact ⟨h.pc, h.control.trapState, hcsrs, h.regs, h.mem, h.control.runState, h.control.fault, h.control.cfg,
    h.control.events, h.control.draws⟩

/-! ## EBREAK -/

/-- R233 with `BREAK_TRAPS`: trap entry, then a commit at `mtvec` as held and the stop. -/
theorem exec_ebreak_of_breakTraps {s : State} (h : s.cfg.breakTraps = true) :
    exec .ebreak s = .next ((s.trap s.cfg.causeBreakpoint).2.commit s.mtvec).stop :=
  if_pos h

/-- R233 without `BREAK_TRAPS`: the step goes on to `pc + 4` and stops there. -/
theorem exec_ebreak_of_not_breakTraps {s : State} (h : s.cfg.breakTraps = false) :
    exec .ebreak s = .next (s.commit s.snpc).stop :=
  if_neg (by simp [h])

/-- Settles O54, by the two values of `BREAK_TRAPS`: the commit only jumps and the stop sets `run_state`, so the trap unit is as
the trap entry left it, or as it was. -/
theorem ebreakStopsTheRun : Obligations.EbreakStopsTheRun := by
  refine ⟨decode_encode (i := .ebreak) rfl, fun s => ?_⟩
  cases hb : s.cfg.breakTraps with
  | true =>
    have h := State.onlyJumps_commit (s.trap s.cfg.causeBreakpoint).2 s.mtvec
    exact ⟨_, exec_ebreak_of_breakTraps hb, State.stop_runState _, h.control.fault, h.csrs .mtvec, h.csrs .mstatus, h.regs,
      h.mem, h.control.cfg, h.control.events, h.control.draws,
      fun _ => ⟨h.csrs .mepc, h.csrs .mcause, h.control.trapState, h.pc⟩, nofun⟩
  | false =>
    have h := s.onlyJumps_commit s.snpc
    exact ⟨_, exec_ebreak_of_not_breakTraps hb, State.stop_runState _, h.control.fault, h.csrs .mtvec, h.csrs .mstatus, h.regs,
      h.mem, h.control.cfg, h.control.events, h.control.draws,
      nofun, fun _ => ⟨h.csrs .mepc, h.csrs .mcause, h.control.trapState, h.pc⟩⟩

/-! ## The invalid instruction -/

/-- R235: the action of `inv` raises the fatal decode error with the word. -/
theorem exec_inv (w : Word) (s : State) : exec (.inv w) s = .next (s.abort ⟨.decodeError, w⟩) := rfl

/-- Settles O56: the end of a fatal error is the same for every class. -/
theorem invalidInstructionAborts : Obligations.InvalidInstructionAborts :=
  fun w s => ⟨_, exec_inv w s, s.aborted_abort ⟨.decodeError, w⟩⟩

end Sys2Proof.Machine
end

section
/-! PROOFS. The trap unit over whole steps (60_exceptions.md R256, R266): which endings of an instruction set `trap_state`, and the
round trip from ECALL to the handler and back by MRET. -/

namespace Sys2Proof.Machine

/-! ## The trap state machine -/

/-- Only trap entry and trap return set `trap_state` (R256). -/
theorem Ending.keeps_trapState {i : Instr} {s t : State} (e : Ending i s t) (hcall : i ≠ .ecall) (hret : i ≠ .mret)
    (hbreak : ¬ (i = .ebreak ∧ s.cfg.breakTraps = true)) : t.trapState = s.trapState := by
  cases e with
  | loaded u rd addr v w n _ _ hread =>
    obtain ⟨d, es, rfl⟩ := State.memRead_frame hread
    rfl
  | stored u addr v n _ hwrite =>
    obtain ⟨m, es, rfl⟩ := State.memWrite_frame hwrite
    rfl
  | csr => simp
  | aborted | wrote | linked | fell | branched | stopped => rfl
  | called hi => exact absurd hi hcall
  | broke hi hb => exact absurd ⟨hi, hb⟩ hbreak
  | returned hi => exact absurd hi hret

/-- Settles O23: the rows of trap entry and trap return are what the three instructions answer, every other ending keeps
`trap_state`, a fatal step changes nothing else, and the reset state is fresh. -/
theorem trapStateMachine : Obligations.TrapStateMachine := by
  refine ⟨fun s => ⟨_, exec_ecall s, rfl, rfl, rfl, rfl⟩,
    fun s hb => ⟨_, exec_ebreak_of_breakTraps hb, rfl, rfl, rfl, rfl⟩,
    fun s => ⟨_, exec_mret s, rfl, rfl⟩,
    fun i s t h => (Ending.of_exec h).keeps_trapState, fun s t h ha => ?fatal,
    fun s => (State.freshReset_resetOf s.cfg).trapState⟩
  case fatal =>
    obtain ⟨-, -, -, -, htrap, -⟩ := fatalStepChangesNothingElse s t h ha
    exact htrap

/-! ## The trap round trip -/

/-- A step whose fetch is from the flat array runs the instruction its word decodes to, where the registers that it names
exist (40_engine_cycle.md R111; log 18). -/
theorem step_of_decodeIn {s : State} {i : Instr} (hc : configOk s.cfg = true) (hr : s.runState = .running)
    (hflat : FlatAccess s.cfg s.pc 4) (hi : decodeIn s.cfg.table (rawFlat s s.pc .word) = i)
    (hx : registersExist s.cfg i = true) : step s = exec i s.begin := by
  rw [step_flat hc hr hflat, State.execWord, State.begin_cfg, hi, if_pos hx]

/-- The step of an ECALL fetched from the flat array (46_system.md R232). -/
theorem step_ecall {s : State} (hc : configOk s.cfg = true) (hr : s.runState = .running) (hflat : FlatAccess s.cfg s.pc 4)
    (hi : decodeIn s.cfg.table (rawFlat s s.pc .word) = .ecall) :
    step s = .next ((s.begin.trap s.cfg.causeEcall).2.commit s.mtvec) :=
  (step_of_decodeIn hc hr hflat hi rfl).trans (exec_ecall s.begin)

/-- The step of an MRET fetched from the flat array (R234). -/
theorem step_mret {s : State} (hc : configOk s.cfg = true) (hr : s.runState = .running) (hflat : FlatAccess s.cfg s.pc 4)
    (hi : decodeIn s.cfg.table (rawFlat s s.pc .word) = .mret) :
    step s = .next (s.begin.returnFromTrap.2.commit s.mepc) :=
  (step_of_decodeIn hc hr hflat hi rfl).trans (exec_mret s.begin)

/-- Where `x[0]` is 0 already, a commit leaves every register as it is (10_state.md R22). -/
theorem State.reg_commit_of_zero {s : State} (h : s.reg 0#5 = 0#32) (q : RegId) (target : Word) :
    (s.commit target).reg q = s.reg q := by
  rw [State.reg_commit]
  split
  · rename_i hq
    rw [hq, h]
  · rfl

/-- Settles O57: ECALL's step touches neither memory nor the configuration, so the second step finds MRET at the handler, and
returns to the `mepc` that the first one set. Both commits find `x[0]` at 0. -/
theorem trapRoundTrip : Obligations.TrapRoundTrip := by
  intro s hinv hc hr hflat hcall hhandler hret
  refine ⟨_, _, step_ecall hc hr hflat hcall, step_mret hc hr hhandler hret, rfl, rfl, rfl, rfl,
    ⟨fun q => ?regs, rfl⟩, rfl, rfl, fun _ => rfl, hr⟩
  case regs =>
    rw [State.reg_commit_of_zero, State.reg_returnFromTrap, State.reg_begin, State.reg_commit_of_zero, State.reg_trap,
      State.reg_begin]
    · exact hinv.zero
    · exact State.reg_zero_commit (s.begin.trap s.cfg.causeEcall).2 s.mtvec

end Sys2Proof.Machine
end
